-- ==== Sys2Proof/Word.lean ====
section
/-! DEFINITION. The widths the spec fixes (spec/00_scope.md R5, R9; spec/30_encoding.md R80, R82). -/

namespace Sys2Proof

/-- A byte: 8 bits, unsigned 0 to 255 (R9). -/
abbrev Byte := BitVec 8

/-- A command word of the one format CMD64 (R80). -/
abbrev CmdWord := BitVec 64

/-- A word of `RESULT_WIDTH` = 32 bits, two's complement (R5, R82). -/
abbrev Word := BitVec 32

/-- A slave address of `ADDRESS_WIDTH` = 7 bits (R5). -/
abbrev Addr := BitVec 7

/-- A platform pin identifier of `PIN_ID_WIDTH` = 8 bits (R5, R23). -/
abbrev PinId := BitVec 8

/-- The level of a line: `true` is 1, high; `false` is 0, low (R12). -/
abbrev Level := Bool

end Sys2Proof
end

