-- ==== Sys2Proof/Syntax.lean ====
section
/-! DEFINITION. The block's commands: one constructor per row of spec/opcode_table.json (spec/30_encoding.md R86). -/

namespace Sys2Proof

/-- A decoded command. Each operand has exactly the width its field gives it (R81, R83 to R85), so every term
stands for a word of the encoding; the ranges an assembler must check are in WellFormed.lean. -/
inductive Instr where
  /-- CONFIGURE sda, scl: A = SDA pin id, B = SCL pin id (R101). -/
  | configure (sda scl : PinId)
  /-- RELEASE (R102). -/
  | release
  /-- SET_CLOCK f: V, read as a signed 32-bit frequency in Hz (R103). -/
  | setClock (v : Word)
  /-- START (R131). -/
  | start
  /-- STOP (R133). -/
  | stop
  /-- WRITE_BIT b: F = the bit (R135). -/
  | writeBit (b : Bool)
  /-- READ_BIT (R137). -/
  | readBit
  /-- WRITE_BYTE v: A = the byte (R151). -/
  | writeByte (v : Byte)
  /-- READ_BYTE ack: F = 1 to acknowledge (R153). -/
  | readByte (ack : Bool)
  /-- OPEN_TX addr: A[6:0] = the slave address (R171). -/
  | openTx (addr : Addr)
  /-- QUEUE_BYTE v: A = the byte (R172). -/
  | queueByte (v : Byte)
  /-- QUEUE_BYTES: V = n, the number of payload bytes that follow on the payload port (R173). -/
  | queueBytes (n : Word)
  /-- CLOSE_TX stop|nostop: F = send_stop (R175). -/
  | closeTx (sendStop : Bool)
  /-- REQUEST addr, q, stop|nostop: A[6:0] = address, V = quantity, F = send_stop (R177). -/
  | request (addr : Addr) (qty : Word) (sendStop : Bool)
  /-- READ (R178). -/
  | read
  /-- PEEK (R179). -/
  | peek
  /-- AVAILABLE (R180). -/
  | available
  /-- PROBE addr: A[6:0] = the slave address (R181). -/
  | probe (addr : Addr)
  deriving DecidableEq, Repr

end Sys2Proof
end

