-- ==== Sys2Proof/Decode.lean ====
section
/-! DEFINITION. Decoding and encoding of the CMD64 word (spec/30_encoding.md R80 to R92) and its byte order on a
narrow link (spec/20_memory.md R63). -/

namespace Sys2Proof

/-- The rows of R86. -/
inductive Opcode where
  | configure | release | setClock
  | start | stop | writeBit | readBit | writeByte | readByte
  | openTx | queueByte | queueBytes | closeTx | request | read | peek | available | probe
  deriving DecidableEq, Repr

/-- Why a word is no command (R88, R89). -/
inductive Reject where
  /-- OP is not in R86 (R88). -/
  | illegalOpcode
  /-- A legal OP with a 1 in a bit its row's mask covers (R89). -/
  | reservedBits
  deriving DecidableEq, Repr

/-- The answer of the decoder: a command, or a rejection by name. -/
inductive Decoded where
  | command (i : Instr)
  | reject (r : Reject)
  deriving DecidableEq, Repr

/-- The rows in the order of R86. -/
def opcodes : List Opcode :=
  [.configure, .release, .setClock, .start, .stop, .writeBit, .readBit, .writeByte, .readByte,
   .openTx, .queueByte, .queueBytes, .closeTx, .request, .read, .peek, .available, .probe]

/-- The OP column of R86. -/
def Opcode.code : Opcode → Byte
  | .configure => 0x01#8
  | .release => 0x02#8
  | .setClock => 0x03#8
  | .start => 0x10#8
  | .stop => 0x11#8
  | .writeBit => 0x12#8
  | .readBit => 0x13#8
  | .writeByte => 0x14#8
  | .readByte => 0x15#8
  | .openTx => 0x20#8
  | .queueByte => 0x21#8
  | .queueBytes => 0x22#8
  | .closeTx => 0x23#8
  | .request => 0x24#8
  | .read => 0x25#8
  | .peek => 0x26#8
  | .available => 0x27#8
  | .probe => 0x28#8

/-- The mask of each row (R87): OP, RSV and every field R86 marks 0, A[7] of an address row included. -/
def Opcode.mask : Opcode → CmdWord
  | .configure => 0xFF0000FFFFFFFFFF#64
  | .release => 0xFFFFFFFFFFFFFFFF#64
  | .setClock => 0xFFFFFFFF00000000#64
  | .start => 0xFFFFFFFFFFFFFFFF#64
  | .stop => 0xFFFFFFFFFFFFFFFF#64
  | .writeBit => 0xFFFFFFFEFFFFFFFF#64
  | .readBit => 0xFFFFFFFFFFFFFFFF#64
  | .writeByte => 0xFF00FFFFFFFFFFFF#64
  | .readByte => 0xFFFFFFFEFFFFFFFF#64
  | .openTx => 0xFF80FFFFFFFFFFFF#64
  | .queueByte => 0xFF00FFFFFFFFFFFF#64
  | .queueBytes => 0xFFFFFFFF00000000#64
  | .closeTx => 0xFFFFFFFEFFFFFFFF#64
  | .request => 0xFF80FFFE00000000#64
  | .read => 0xFFFFFFFFFFFFFFFF#64
  | .peek => 0xFFFFFFFFFFFFFFFF#64
  | .available => 0xFFFFFFFFFFFFFFFF#64
  | .probe => 0xFF80FFFFFFFFFFFF#64

/-- The match of each row: `OP << 56` (R87). -/
def Opcode.matchWord (o : Opcode) : CmdWord := o.code ++ 0#56

/-- The row whose OP is `c`, if there is one (R86, R88). -/
def opcodeOf (c : Byte) : Option Opcode := opcodes.find? fun o => o.code == c

/-- OP = w[63:56] (R81). -/
def fieldOP (w : CmdWord) : Byte := w.extractLsb' 56 8

/-- A = w[55:48] (R81). -/
def fieldA (w : CmdWord) : Byte := w.extractLsb' 48 8

/-- A[6:0] = w[54:48], the address of an address command (R83). -/
def fieldAddr (w : CmdWord) : Addr := w.extractLsb' 48 7

/-- B = w[47:40] (R81). -/
def fieldB (w : CmdWord) : Byte := w.extractLsb' 40 8

/-- F = w[32] (R81). -/
def fieldF (w : CmdWord) : Bool := w.getLsbD 32

/-- V = w[31:0] (R81). -/
def fieldV (w : CmdWord) : Word := w.extractLsb' 0 32

/-- The command of a row, its operands read from the word's fields (R83 to R86). -/
def commandOf (o : Opcode) (w : CmdWord) : Instr :=
  match o with
  | .configure => .configure (fieldA w) (fieldB w)
  | .release => .release
  | .setClock => .setClock (fieldV w)
  | .start => .start
  | .stop => .stop
  | .writeBit => .writeBit (fieldF w)
  | .readBit => .readBit
  | .writeByte => .writeByte (fieldA w)
  | .readByte => .readByte (fieldF w)
  | .openTx => .openTx (fieldAddr w)
  | .queueByte => .queueByte (fieldA w)
  | .queueBytes => .queueBytes (fieldV w)
  | .closeTx => .closeTx (fieldF w)
  | .request => .request (fieldAddr w) (fieldV w) (fieldF w)
  | .read => .read
  | .peek => .peek
  | .available => .available
  | .probe => .probe (fieldAddr w)

/-- R87: OP selects the row, and every bit the row's mask covers must agree with its match. -/
def decode (w : CmdWord) : Decoded :=
  match opcodeOf (fieldOP w) with
  | none => .reject .illegalOpcode
  | some o => if w &&& o.mask = o.matchWord then .command (commandOf o w) else .reject .reservedBits

/-- A word from its fields, RSV zero (R81). -/
def packWord (o : Opcode) (a b : Byte) (f : Bool) (v : Word) : CmdWord :=
  o.code ++ a ++ b ++ 0#7 ++ BitVec.ofBool f ++ v

/-- The row of a command (R86). -/
def opcodeOfInstr : Instr → Opcode
  | .configure _ _ => .configure
  | .release => .release
  | .setClock _ => .setClock
  | .start => .start
  | .stop => .stop
  | .writeBit _ => .writeBit
  | .readBit => .readBit
  | .writeByte _ => .writeByte
  | .readByte _ => .readByte
  | .openTx _ => .openTx
  | .queueByte _ => .queueByte
  | .queueBytes _ => .queueBytes
  | .closeTx _ => .closeTx
  | .request _ _ _ => .request
  | .read => .read
  | .peek => .peek
  | .available => .available
  | .probe _ => .probe

/-- The word of a command: the fields of its row in R86, every other bit zero. -/
def encode : Instr → CmdWord
  | .configure sda scl => packWord .configure sda scl false 0#32
  | .release => packWord .release 0#8 0#8 false 0#32
  | .setClock v => packWord .setClock 0#8 0#8 false v
  | .start => packWord .start 0#8 0#8 false 0#32
  | .stop => packWord .stop 0#8 0#8 false 0#32
  | .writeBit b => packWord .writeBit 0#8 0#8 b 0#32
  | .readBit => packWord .readBit 0#8 0#8 false 0#32
  | .writeByte v => packWord .writeByte v 0#8 false 0#32
  | .readByte ack => packWord .readByte 0#8 0#8 ack 0#32
  | .openTx addr => packWord .openTx (addr.zeroExtend 8) 0#8 false 0#32
  | .queueByte v => packWord .queueByte v 0#8 false 0#32
  | .queueBytes n => packWord .queueBytes 0#8 0#8 false n
  | .closeTx sendStop => packWord .closeTx 0#8 0#8 sendStop 0#32
  | .request addr qty sendStop => packWord .request (addr.zeroExtend 8) 0#8 sendStop qty
  | .read => packWord .read 0#8 0#8 false 0#32
  | .peek => packWord .peek 0#8 0#8 false 0#32
  | .available => packWord .available 0#8 0#8 false 0#32
  | .probe addr => packWord .probe (addr.zeroExtend 8) 0#8 false 0#32

/-- The bytes of a command word on a narrow link: cmd[63:56] first, down to cmd[7:0] (R63). -/
def bytesOfWord (w : CmdWord) : List Byte :=
  [w.extractLsb' 56 8, w.extractLsb' 48 8, w.extractLsb' 40 8, w.extractLsb' 32 8,
   w.extractLsb' 24 8, w.extractLsb' 16 8, w.extractLsb' 8 8, w.extractLsb' 0 8]

/-- The command word eight bytes of a narrow link carry, and the bytes after it (R63); `none` while fewer than
eight have come. -/
def wordOfBytes : List Byte → Option (CmdWord × List Byte)
  | b7 :: b6 :: b5 :: b4 :: b3 :: b2 :: b1 :: b0 :: rest =>
      some (b7 ++ b6 ++ b5 ++ b4 ++ b3 ++ b2 ++ b1 ++ b0, rest)
  | _ => none

/-- Decoding from the bytes of a narrow link, total on any bytes: `none` while the word is not whole. -/
def decodeBytes (bs : List Byte) : Option (Decoded × List Byte) :=
  match wordOfBytes bs with
  | none => none
  | some (w, rest) => some (decode w, rest)

/-- The host's reading of a table row: the table numbers the 64 bits of a command word as R9 does, so the number
is the word; a number that does not fit 64 bits is no command word (R80: one length). -/
def decodeTableWord (nbits w : Nat) : Option Instr :=
  if nbits ≤ 64 ∧ w < 2 ^ 64 then
    match decode (BitVec.ofNat 64 w) with
    | .command i => some i
    | .reject _ => none
  else none

end Sys2Proof
end

