-- ==== Sys2Proof/Config.lean ====
section
/-! DEFINITION. What an implementation of the block fixes (the parameters of spec/00_scope.md R5) and the free
values (the bus environment's answers, spec/20_memory.md R66). -/

namespace Sys2Proof

/-- The parameters R5 leaves open or lets a model take as an argument (93_implementation_defined.md I1, I2, I3).
A machine carries its own in `State.params`, which nothing writes, so that a statement about every state is a
statement about every choice of them (notes/assumptions/1.md). -/
structure Params where
  /-- `TX_CAPACITY`: bytes the transmit buffer holds. -/
  txCapacity : Nat
  /-- `RX_CAPACITY`: bytes the receive buffer holds. -/
  rxCapacity : Nat
  /-- `HALF_PERIOD_RESET`: the half-period delay before any SET_CLOCK, in microseconds. -/
  halfPeriodReset : BitVec 32
  /-- `STRETCH_POLL_LIMIT`: the 1-microsecond waits the clock-stretch poll makes at most. -/
  stretchPollLimit : Nat
  deriving DecidableEq, Repr

/-- R5's values and spec defaults: capacities 32 and 32, half-period 5, poll limit 1000. -/
def Params.spec : Params :=
  { txCapacity := 32, rxCapacity := 32, halfPeriodReset := 5#32, stretchPollLimit := 1000 }

/-- R5's constraints: both capacities and the half-period at reset are at least 1. -/
def Params.valid (p : Params) : Bool :=
  decide (1 ≤ p.txCapacity) && decide (1 ≤ p.rxCapacity) && decide (1 ≤ p.halfPeriodReset.toNat)

/-- FREE VALUE (R66): the level the bus environment answers at the n-th sample of SDA for which `State` lists no
answer. No value of it can be proved (notes/assumptions/2.md). -/
opaque Config.freeSdaLevel : Nat → Level

/-- FREE VALUE (R66): the same for the samples of SCL. -/
opaque Config.freeSclLevel : Nat → Level

end Sys2Proof
end

