-- ==== Sys2Proof/Machine/State.lean ====
section
/-! DEFINITION. The block's state as plain data (spec/10_state.md R20 to R51), its reset value
(spec/70_reset_and_hazards.md R231), and the reasons a step can stop. -/

namespace Sys2Proof.Machine

/-- The two bus lines. -/
inductive Line where
  | sda
  | scl
  deriving DecidableEq, Repr

/-- R26: the mode the block last set on a pin; no mode drives a line high (R27). -/
inductive PinMode where
  /-- 0b00: the block has set no mode on this pin since reset. -/
  | unset
  /-- 0b01: neutral input, no pull-up. -/
  | input
  /-- 0b10: input with pull-up, "released". -/
  | inputPullup
  /-- 0b11: output driving logic low. -/
  | outputLow
  deriving DecidableEq, Repr

/-- The modes `SetMode` takes (R12): every mode of R26 but UNSET, which only reset gives. -/
inductive DriveMode where
  | input
  | inputPullup
  | outputLow
  deriving DecidableEq, Repr

/-- An event of the bus trace (R44). -/
inductive Event where
  /-- `Mode(line, m)`. -/
  | mode (line : Line) (m : DriveMode)
  /-- `Wait(n)`: at least n microseconds pass before the next event (R14). -/
  | wait (n : Nat)
  /-- `Sample(line, lvl)`. -/
  | sample (line : Line) (lvl : Level)
  deriving DecidableEq, Repr

/-- R41: the values of `fault_code` the block produces. -/
inductive FaultCode where
  /-- 0 NONE. -/
  | none
  /-- 1 ILLEGAL_OPCODE. -/
  | illegalOpcode
  /-- 2 RESERVED_BITS. -/
  | reservedBits
  /-- 3 NOT_CONFIGURED. -/
  | notConfigured
  /-- 4 PIN_CONFLICT. -/
  | pinConflict
  deriving DecidableEq, Repr

/-- The two byte arrays that are the block's storage (R60). -/
inductive Buffer where
  /-- `tx_buf`. -/
  | tx
  /-- `rx_buf`. -/
  | rx
  deriving DecidableEq, Repr

/-- The contents of a byte array: (index, byte) pairs in canonical form (`Memory.wf`, Machine/Memory.lean). -/
abbrev Memory := List Host.Cell

/-- The inside of a QUEUE_BYTES that waits for payload (R38's byte index and the count so far). -/
structure QueueProgress where
  /-- Payload bytes still to be taken. -/
  remaining : Nat
  /-- Bytes accepted so far (`acc` of R173). -/
  accepted : Nat
  deriving DecidableEq, Repr

/-- What the bus side of the block holds: the mirrored pin modes (R25), the bus trace (R44), and the answers the
bus environment gives (R66). -/
structure Bus where
  /-- `sda_mode` (R25). -/
  sdaMode : PinMode
  /-- `scl_mode` (R25). -/
  sclMode : PinMode
  /-- The bus trace, oldest event first (R44). -/
  trace : List Event
  /-- INPUT: the bus environment's answers to the next samples of SDA, in order (notes/assumptions/2.md). -/
  sdaAnswers : List Level
  /-- INPUT: the same for SCL. -/
  sclAnswers : List Level
  /-- The MODEL's own counter: samples of SDA so far for which no answer was listed; it indexes the free values. -/
  sdaDraws : Nat
  /-- The MODEL's own counter: the same for SCL. -/
  sclDraws : Nat
  deriving DecidableEq, Repr

/-- A bus command that waits for its delay to end (R47), its place kept as data: the command, and the bus side it
began on. The events it has performed are those `State.bus` has beyond `start` (notes/assumptions/17.md). -/
structure InFlight where
  /-- The command. -/
  instr : Instr
  /-- The bus side at the command's start. -/
  start : Bus
  deriving DecidableEq, Repr

/-- All the block holds between two steps (R43), with its inputs and its outputs as data. -/
structure State where
  /-- The implementation parameters (R5); nothing writes them. -/
  params : Params
  /-- `configured` (R22). -/
  configured : Bool
  /-- `pins_bound` (R23). -/
  pinsBound : Bool
  /-- `sda_pin` (R23). -/
  sdaPin : PinId
  /-- `scl_pin` (R23). -/
  sclPin : PinId
  /-- `hp`, the half-period delay in microseconds (R24). -/
  hp : BitVec 32
  /-- `sda_mode`, `scl_mode`, the bus trace and the bus environment's answers (R25, R44, R66). -/
  bus : Bus
  /-- `tx_addr` (R28). -/
  txAddr : Addr
  /-- `tx_len` (R29). -/
  txLen : Nat
  /-- `tx_buf` (R30). -/
  txBuf : Memory
  /-- `rx_len` (R32). -/
  rxLen : Nat
  /-- `rx_cursor` (R33). -/
  rxCursor : Nat
  /-- `rx_buf` (R34). -/
  rxBuf : Memory
  /-- `fault` (R40). -/
  fault : Bool
  /-- `fault_code` (R40, R41). -/
  faultCode : FaultCode
  /-- `busy` (R42). -/
  busy : Bool
  /-- A QUEUE_BYTES in progress; none at every command boundary (R38). -/
  queue : Option QueueProgress
  /-- A bus command in progress whose delay is outstanding; none at every command boundary (R38, R47). -/
  inFlight : Option InFlight
  /-- The delay port (R47): `some n` while `delay_req` is raised with `delay_us = n`. -/
  delay : Option (BitVec 32)
  /-- OUTPUT: the results placed on the result port, oldest first (R8, R48); no command reads them (R37). -/
  results : List Word
  /-- OUTPUT: the bus traces that resets have ended, oldest first: what the bus has seen of each (R230). -/
  history : List (List Event)
  /-- INPUT: the words the host offers on the command port, in order (R45). -/
  cmdIn : List CmdWord
  /-- INPUT: the bytes the host offers on the payload port, in order (R49). -/
  payloadIn : List Byte
  /-- INPUT: `delay_done` each time the block looks at it while a delay is outstanding; raised past the list's end
  (R47; notes/assumptions/11.md). -/
  delayIn : List Bool
  /-- INPUT: the reset signal each time it is sampled; not asserted past the list's end (R230;
  notes/assumptions/5.md). -/
  resetIn : List Bool
  deriving DecidableEq, Repr

/-- Why a step stops the machine. (The block's own faults, R202, do not: their entry is a next state, R203.) -/
inductive Fault where
  /-- A buffer access at an index outside 0 .. capacity-1, an entry that does not exist (R30, R34). Raised by
  `memRead` and `memWrite`. R11: no rule produces one, and none is reached from a state with `State.wf`
  (Safety.lean). Safe. -/
  | bufferIndex (b : Buffer) (i : Nat)
  deriving DecidableEq, Repr

/-- Why an instruction has no meaning. -/
inductive Refusal where
  /-- The instruction is not modelled; raised only by exec's own arms, and by none of them now. Safe. -/
  | notModelled (mnemonic : String)
  deriving DecidableEq, Repr

/-- The state right after reset of a block with parameters `p` (R231), no input pending. `sda_pin`, `scl_pin` and
the buffers' contents are unspecified there; the model's values are named in notes/assumptions/3.md. -/
def State.resetWith (p : Params) : State :=
  { params := p
    configured := false
    pinsBound := false
    sdaPin := 0#8
    sclPin := 0#8
    hp := p.halfPeriodReset
    bus := { sdaMode := .unset, sclMode := .unset, trace := [], sdaAnswers := [], sclAnswers := [],
             sdaDraws := 0, sclDraws := 0 }
    txAddr := 0#7
    txLen := 0
    txBuf := []
    rxLen := 0
    rxCursor := 0
    rxBuf := []
    fault := false
    faultCode := .none
    busy := false
    queue := none
    inFlight := none
    delay := none
    results := []
    history := []
    cmdIn := []
    payloadIn := []
    delayIn := []
    resetIn := [] }

/-- The machine right after reset, at the parameter values of R5. -/
def State.reset : State := State.resetWith Params.spec

end Sys2Proof.Machine
end

