-- ==== Sys2Proof/Machine/Memory.lean ====
section
/-! DEFINITION. The contents of a byte array as (index, byte) pairs (spec/20_memory.md R60, R65). -/

namespace Sys2Proof.Machine

/-- What an entry nothing has written reads as: 0x00 (DESIGN CHOICE, notes/assumptions/3.md; the spec leaves it open
and no rule reads such an entry, R30, R34). -/
def Memory.unwritten : Byte := 0x00#8

/-- The byte at index `i`. -/
def Memory.read : Memory → Nat → Byte
  | [], _ => Memory.unwritten
  | c :: rest, i => if c.1 = i then c.2 else Memory.read rest i

/-- Writing one byte, the cells kept in rising order and no cell kept that reads as an unwritten entry. -/
def Memory.write : Memory → Nat → Byte → Memory
  | [], i, v => if v = Memory.unwritten then [] else [(i, v)]
  | c :: rest, i, v =>
      if i < c.1 then (if v = Memory.unwritten then c :: rest else (i, v) :: c :: rest)
      else if i = c.1 then (if v = Memory.unwritten then rest else (i, v) :: rest)
      else c :: Memory.write rest i v

/-- The canonical form from index `lo` on: indices strictly rising, no cell equal to what an unlisted one reads as. -/
def Memory.wfFrom : Nat → Memory → Bool
  | _, [] => true
  | lo, c :: rest => decide (lo ≤ c.1) && decide (c.2 ≠ Memory.unwritten) && Memory.wfFrom (c.1 + 1) rest

/-- The canonical form: equal contents are equal lists. -/
def Memory.wf (m : Memory) : Bool := Memory.wfFrom 0 m

/-- Every listed index is below `cap`. -/
def Memory.within (cap : Nat) (m : Memory) : Bool := m.all fun c => decide (c.1 < cap)

end Sys2Proof.Machine
end

