-- ==== Sys2Proof/Machine/Operands.lean ====
section
/-! DEFINITION. Operand forms (spec/30_encoding.md R83 to R85), the address byte (spec/43_transaction.md R174), result
words (R82), bits on the bus (spec/20_memory.md R61) and the pin-mode and fault-code encodings (spec/10_state.md R26,
R41). -/

namespace Sys2Proof.Machine

/-- SET_CLOCK's operand as a frequency: V as a signed 32-bit two's-complement integer, in Hz (R85). -/
def frequency (v : Word) : Int := v.toInt

/-- REQUEST's quantity and QUEUE_BYTES's count: V unsigned (R85). -/
def quantity (v : Word) : Nat := v.toNat

/-- The half-period of a positive frequency: `max(1, 500000 / f)`, the quotient toward zero (R103). -/
def halfPeriodOf (f : Nat) : BitVec 32 := BitVec.ofNat 32 (max 1 (500000 / f))

/-- `addr_byte(a, rw) = {a[6:0], rw}`; `rw` is 0 to write and 1 to read (R174). -/
def addrByte (a : Addr) (rw : Bool) : Byte := a.concat rw

/-- A Boolean result: 1 for true, 0 for false (R82). -/
def boolResult (b : Bool) : Word := if b then 1#32 else 0#32

/-- A byte result: `zext_32(byte)` (R82). -/
def byteResult (b : Byte) : Word := b.zeroExtend 32

/-- A count result, narrowed to the result word (R82). -/
def countResult (n : Int) : Word := BitVec.ofInt 32 n

/-- The sentinel, -1 = 0xFFFFFFFF (R82). -/
def sentinel : Word := 0xFFFFFFFF#32

/-- The transaction status values of R176. -/
inductive Status where
  | success
  /-- "unused by this layer": never produced. -/
  | dataTooLong
  | nackAddress
  | nackData
  /-- No rule produces it. -/
  | other
  deriving DecidableEq, Repr

/-- The numerals of R176. -/
def statusResult : Status → Word
  | .success => 0#32
  | .dataTooLong => 1#32
  | .nackAddress => 2#32
  | .nackData => 3#32
  | .other => 4#32

/-- The bits of a byte in the order they are sent, v[7] first (R61, R150). -/
def msbFirst (v : Byte) : List Bool :=
  [v.getLsbD 7, v.getLsbD 6, v.getLsbD 5, v.getLsbD 4, v.getLsbD 3, v.getLsbD 2, v.getLsbD 1, v.getLsbD 0]

/-- `{r[6:0], lvl}`: the receive shift of R152. -/
def shiftIn (r : Byte) (lvl : Level) : Byte := (r.extractLsb' 0 7).concat lvl

/-- The mode `SetMode` leaves on the pin (R12, R25). -/
def DriveMode.pinMode : DriveMode → PinMode
  | .input => .input
  | .inputPullup => .inputPullup
  | .outputLow => .outputLow

/-- The 2-bit encoding of R26. -/
def PinMode.code : PinMode → BitVec 2
  | .unset => 0b00#2
  | .input => 0b01#2
  | .inputPullup => 0b10#2
  | .outputLow => 0b11#2

/-- The 3-bit encoding of R41. -/
def FaultCode.code : FaultCode → BitVec 3
  | .none => 0#3
  | .illegalOpcode => 1#3
  | .reservedBits => 2#3
  | .notConfigured => 3#3
  | .pinConflict => 4#3

end Sys2Proof.Machine
end

