-- ==== Sys2Proof/Machine/Ops.lean ====
section
/-! DEFINITION. The primitives of spec/00_scope.md R11 to R15: buffer accesses, pin modes, samples, delays, results,
and the one fault entry (spec/60_exceptions.md R203); and reset (spec/70_reset_and_hazards.md R230, R231). -/

namespace Sys2Proof.Machine

/-! ## The pin and delay primitives (R12, R14) -/

/-- Appending one event to the bus trace (R44). -/
def Bus.emit (e : Event) (b : Bus) : Bus := { b with trace := b.trace ++ [e] }

/-- `SetMode(line, m)`: the mirrored mode and one event, even if the mode does not change (R12, R127). -/
def Bus.setMode (line : Line) (m : DriveMode) (b : Bus) : Bus :=
  match line with
  | .sda => { b with sdaMode := m.pinMode }.emit (.mode .sda m)
  | .scl => { b with sclMode := m.pinMode }.emit (.mode .scl m)

/-- `Delay(n)`: one `Wait(n)` event; nothing reads the time (R14). -/
def Bus.delay (n : Nat) (b : Bus) : Bus := b.emit (.wait n)

/-- The bus environment's answer to the next sample of a line (R66): the next one listed, else a free value. -/
def Bus.answer (line : Line) (b : Bus) : Level × Bus :=
  match line with
  | .sda =>
    match b.sdaAnswers with
    | lvl :: rest => (lvl, { b with sdaAnswers := rest })
    | [] => (Config.freeSdaLevel b.sdaDraws, { b with sdaDraws := b.sdaDraws + 1 })
  | .scl =>
    match b.sclAnswers with
    | lvl :: rest => (lvl, { b with sclAnswers := rest })
    | [] => (Config.freeSclLevel b.sclDraws, { b with sclDraws := b.sclDraws + 1 })

/-- `Sample(line)`: the environment's answer, and one event that records it (R12). -/
def Bus.sample (line : Line) (b : Bus) : Level × Bus :=
  ((b.answer line).1, (b.answer line).2.emit (.sample line (b.answer line).1))

/-- Performing an event a command has come to: the mode is set, the delay is recorded, or the environment's answer is
taken. -/
def Bus.perform (b : Bus) : Event → Bus
  | .mode l m => b.setMode l m
  | .wait n => b.delay n
  | .sample l lvl => (b.answer l).2.emit (.sample l lvl)

/-- Performing events one after another. -/
def Bus.play (b : Bus) (evs : List Event) : Bus := evs.foldl Bus.perform b

/-- What the bus procedures read of the configuration: the half-period and the poll limit. -/
structure Timing where
  /-- `hp` in microseconds (R24). -/
  hp : Nat
  /-- `STRETCH_POLL_LIMIT` (R5). -/
  pollLimit : Nat
  deriving DecidableEq, Repr

/-- The timing of a state. -/
def State.timing (s : State) : Timing := { hp := s.hp.toNat, pollLimit := s.params.stretchPollLimit }

/-! ## Buffer accesses (R11) -/

/-- The contents of a buffer. -/
def State.mem (s : State) : Buffer → Memory
  | .tx => s.txBuf
  | .rx => s.rxBuf

/-- How many bytes a buffer has (R30, R34). -/
def State.capacity (s : State) : Buffer → Nat
  | .tx => s.params.txCapacity
  | .rx => s.params.rxCapacity

/-- `MemRead(buf:i, 1)` (R11): the byte, or the fault for an entry that does not exist. -/
def memRead (buf : Buffer) (i : Nat) (s : State) : Except Fault Byte :=
  if i < s.capacity buf then .ok ((s.mem buf).read i) else .error (.bufferIndex buf i)

/-- `MemWrite(buf:i, 1, v)` (R11). -/
def memWrite (buf : Buffer) (i : Nat) (v : Byte) (s : State) : Except Fault State :=
  if i < s.capacity buf then
    match buf with
    | .tx => .ok { s with txBuf := s.txBuf.write i v }
    | .rx => .ok { s with rxBuf := s.rxBuf.write i v }
  else .error (.bufferIndex buf i)

/-! ## Ending a command: a result, or the fault entry -/

/-- `return v`: the result is placed and the block is ready again (R13, R42, R48). -/
def State.ret (v : Word) (s : State) : State := { s with results := s.results ++ [v], busy := false }

/-- `raise Fault(code)`: the one fault entry. `fault <- 1`, `fault_code <- code`, `busy <- 0`, no result, no event,
nothing else (R15, R203). There is no return from it: only reset clears it (R207, R230). -/
def State.raise (code : FaultCode) (s : State) : State :=
  { s with fault := true, faultCode := code, busy := false }

/-- A bus command's own check: NOT_CONFIGURED before any state change or event (R120, R170, R202). -/
def whenConfigured (s : State) (body : Host.Outcome State Fault Refusal) : Host.Outcome State Fault Refusal :=
  if s.configured then body else .next (s.raise .notConfigured)

/-- The state with its bus side replaced. -/
def State.withBus (s : State) (b : Bus) : State := { s with bus := b }

/-! ## Reset -/

/-- Reset: every element of R43 at its reset value, the trace empty (R231), a command in progress abandoned (R230). The
trace that ends is kept as history; the results placed so far stay placed, and none is added. The parameters are the
machine's; what the host and the environment still offer is theirs and stays (R232; notes/assumptions/5.md). -/
def State.resetNow (s : State) : State :=
  { State.resetWith s.params with
    bus := { sdaMode := .unset, sclMode := .unset, trace := [], sdaAnswers := s.bus.sdaAnswers,
             sclAnswers := s.bus.sclAnswers, sdaDraws := s.bus.sdaDraws, sclDraws := s.bus.sclDraws }
    results := s.results
    history := s.history ++ [s.bus.trace]
    cmdIn := s.cmdIn
    payloadIn := s.payloadIn
    delayIn := s.delayIn
    resetIn := s.resetIn }

end Sys2Proof.Machine
end

