-- ==== Sys2Proof/Machine/Lifecycle.lean ====
section
/-! DEFINITION. CONFIGURE, RELEASE and SET_CLOCK (spec/40_lifecycle.md). -/

namespace Sys2Proof.Machine

/-- CONFIGURE's bus events: both lines released, SDA first, no stretch poll, one half-period (R101). -/
def settle (t : Timing) (b : Bus) : Bus :=
  ((b.setMode .sda .inputPullup).setMode .scl .inputPullup).delay t.hp

/-- R101. -/
def execConfigure (sda scl : PinId) (s : State) : Host.Outcome State Fault Refusal :=
  if sda = scl then .next (s.raise .pinConflict)
  else
    .next
      ({ s with sdaPin := sda, sclPin := scl, pinsBound := true, bus := settle s.timing s.bus,
                configured := true }.ret 0#32)

/-- RELEASE's bus events: both pins to neutral input, no delay (R102). -/
def relinquish (b : Bus) : Bus := (b.setMode .sda .input).setMode .scl .input

/-- R102: the events only if pins are bound; `configured <- 0` always. -/
def execRelease (s : State) : Host.Outcome State Fault Refusal :=
  .next ({ s with bus := if s.pinsBound then relinquish s.bus else s.bus, configured := false }.ret 0#32)

/-- R103: a frequency that is not positive leaves `hp`. -/
def execSetClock (v : Word) (s : State) : Host.Outcome State Fault Refusal :=
  if frequency v ≤ 0 then .next (s.ret 0#32)
  else .next ({ s with hp := halfPeriodOf (frequency v).toNat }.ret 0#32)

end Sys2Proof.Machine
end

