-- ==== Sys2Proof/Machine/BitLevel.lean ====
section
/-! DEFINITION. Line control, the start and stop conditions, one bit out and one bit in, and the four commands that run
one of them (spec/41_bit_level.md). -/

namespace Sys2Proof.Machine

/-- R121. -/
def releaseSda (b : Bus) : Bus := b.setMode .sda .inputPullup

/-- R122. -/
def driveSdaLow (b : Bus) : Bus := b.setMode .sda .outputLow

/-- R125. -/
def driveSclLow (b : Bus) : Bus := b.setMode .scl .outputLow

/-- R124: sample SCL until it reads high or the given number of 1-microsecond waits is spent; a timeout goes on as
if it had read high (R126). -/
def stretchWait : Nat → Bus → Bus
  | 0, b => (b.sample .scl).2
  | n + 1, b =>
      if (b.sample .scl).1 then (b.sample .scl).2 else stretchWait n ((b.sample .scl).2.delay 1)

/-- R123: release SCL, one half-period, then the stretch poll. -/
def releaseScl (t : Timing) (b : Bus) : Bus :=
  stretchWait t.pollLimit ((b.setMode .scl .inputPullup).delay t.hp)

/-- R130. -/
def genStart (t : Timing) (b : Bus) : Bus :=
  driveSclLow ((driveSdaLow ((releaseScl t (releaseSda b)).delay t.hp)).delay t.hp)

/-- R132. -/
def genStop (t : Timing) (b : Bus) : Bus :=
  (releaseSda ((releaseScl t ((driveSdaLow b).delay t.hp)).delay t.hp)).delay t.hp

/-- SDA to a bit's level: released for 1, driven low for 0 (R134). -/
def putSda (bit : Bool) (b : Bus) : Bus := if bit then releaseSda b else driveSdaLow b

/-- R134. -/
def txBit (t : Timing) (bit : Bool) (b : Bus) : Bus :=
  driveSclLow (releaseScl t ((putSda bit b).delay t.hp))

/-- R136's events up to the sample of SDA. -/
def openBit (t : Timing) (b : Bus) : Bus := releaseScl t ((releaseSda b).delay t.hp)

/-- R136: the sampled level, and the bus after SCL is driven low. -/
def rxBit (t : Timing) (b : Bus) : Level × Bus :=
  (((openBit t b).sample .sda).1, driveSclLow ((openBit t b).sample .sda).2)

/-- R131. -/
def execStart (s : State) : Host.Outcome State Fault Refusal :=
  whenConfigured s (.next ((s.withBus (genStart s.timing s.bus)).ret 0#32))

/-- R133. -/
def execStop (s : State) : Host.Outcome State Fault Refusal :=
  whenConfigured s (.next ((s.withBus (genStop s.timing s.bus)).ret 0#32))

/-- R135. -/
def execWriteBit (bit : Bool) (s : State) : Host.Outcome State Fault Refusal :=
  whenConfigured s (.next ((s.withBus (txBit s.timing bit s.bus)).ret 0#32))

/-- R137. -/
def execReadBit (s : State) : Host.Outcome State Fault Refusal :=
  whenConfigured s
    (.next ((s.withBus (rxBit s.timing s.bus).2).ret (boolResult (rxBit s.timing s.bus).1)))

end Sys2Proof.Machine
end

