-- ==== Sys2Proof/Machine/ByteLevel.lean ====
section
/-! DEFINITION. One byte out with its acknowledge, one byte in with a chosen acknowledge, and WRITE_BYTE and READ_BYTE
(spec/42_byte_level.md). -/

namespace Sys2Proof.Machine

/-- The bits of a list sent in order (R150's loop). -/
def txBits (t : Timing) : List Bool → Bus → Bus
  | [], b => b
  | bit :: rest, b => txBits t rest (txBit t bit b)

/-- R150: the eight bits, v[7] first, then the ninth bit read; true iff the slave pulled the line low. -/
def txByte (t : Timing) (v : Byte) (b : Bus) : Bool × Bus :=
  (!(rxBit t (txBits t (msbFirst v) b)).1, (rxBit t (txBits t (msbFirst v) b)).2)

/-- `n` bits received into `r`, the first ending highest (R152's loop). -/
def rxBits (t : Timing) : Nat → Byte → Bus → Byte × Bus
  | 0, r, b => (r, b)
  | n + 1, r, b => rxBits t n (shiftIn r (rxBit t b).1) (rxBit t b).2

/-- R152: eight bits, then the negation of the acknowledge flag sent as the ninth. -/
def rxByte (t : Timing) (ack : Bool) (b : Bus) : Byte × Bus :=
  ((rxBits t 8 0#8 b).1, txBit t (!ack) (rxBits t 8 0#8 b).2)

/-- R151. -/
def execWriteByte (v : Byte) (s : State) : Host.Outcome State Fault Refusal :=
  whenConfigured s
    (.next ((s.withBus (txByte s.timing v s.bus).2).ret (boolResult (txByte s.timing v s.bus).1)))

/-- R153. -/
def execReadByte (ack : Bool) (s : State) : Host.Outcome State Fault Refusal :=
  whenConfigured s
    (.next ((s.withBus (rxByte s.timing ack s.bus).2).ret (byteResult (rxByte s.timing ack s.bus).1)))

end Sys2Proof.Machine
end

