-- ==== Sys2Proof/Machine/Transaction.lean ====
section
/-! DEFINITION. The transaction commands (spec/43_transaction.md). -/

namespace Sys2Proof.Machine

/-- The answer of a meaning whose buffer accesses may fault. -/
def outcomeOf : Except Fault State → Host.Outcome State Fault Refusal
  | .ok s => .next s
  | .error f => .fault f

/-! ## Transmit side -/

/-- R171. -/
def execOpenTx (addr : Addr) (s : State) : Host.Outcome State Fault Refusal :=
  .next ({ s with txAddr := addr, txLen := 0 }.ret 0#32)

/-- Appending one byte if there is room: the state, and 1 if it was accepted (R172, R173). -/
def appendByte (v : Byte) (s : State) : Except Fault (State × Nat) :=
  if s.txLen < s.params.txCapacity then
    match memWrite .tx s.txLen v s with
    | .ok s' => .ok ({ s' with txLen := s.txLen + 1 }, 1)
    | .error f => .error f
  else .ok (s, 0)

/-- R172. -/
def execQueueByte (v : Byte) (s : State) : Host.Outcome State Fault Refusal :=
  match appendByte v s with
  | .ok (s', n) => .next (s'.ret (countResult n))
  | .error f => .fault f

/-- R173's loop over the bytes the payload port offers, `n` still to be taken and `acc` accepted: every one is
taken, accepted or not. When the port runs dry the block waits in the command, busy (R49, R215). -/
def takePayload : List Byte → Nat → Nat → State → Except Fault State
  | offered, 0, acc, s => .ok ({ s with payloadIn := offered, queue := none }.ret (countResult acc))
  | [], n + 1, acc, s =>
      .ok { s with payloadIn := [], queue := some { remaining := n + 1, accepted := acc }, busy := true }
  | b :: rest, n + 1, acc, s =>
      match appendByte b s with
      | .ok (s', k) => takePayload rest n (acc + k) s'
      | .error f => .error f

/-- R173. -/
def execQueueBytes (n : Word) (s : State) : Host.Outcome State Fault Refusal :=
  outcomeOf (takePayload s.payloadIn (quantity n) 0 s)

/-- A QUEUE_BYTES in progress goes on with what the payload port now offers (R49, R215). -/
def resumeQueue (s : State) : Host.Outcome State Fault Refusal :=
  match s.queue with
  | some q => outcomeOf (takePayload s.payloadIn q.remaining q.accepted s)
  | none => .next s

/-- A stop condition if `send_stop` is set (R175, R177). -/
def stopIf (sendStop : Bool) (s : State) : State :=
  if sendStop then s.withBus (genStop s.timing s.bus) else s

/-- R175's loop: the queued bytes from index `i` on, `n` of them, until one is not acknowledged; true if all were. -/
def sendQueued : Nat → Nat → State → Except Fault (Bool × State)
  | 0, _, s => .ok (true, s)
  | n + 1, i, s =>
      match memRead .tx i s with
      | .error f => .error f
      | .ok v =>
          if (txByte s.timing v s.bus).1 then sendQueued n (i + 1) (s.withBus (txByte s.timing v s.bus).2)
          else .ok (false, s.withBus (txByte s.timing v s.bus).2)

/-- A start condition and an address byte: whether it was acknowledged, and the state (R175, R177, R181). -/
def sendAddress (addr : Addr) (rw : Bool) (s : State) : Bool × State :=
  ((txByte s.timing (addrByte addr rw) (genStart s.timing s.bus)).1,
   s.withBus (txByte s.timing (addrByte addr rw) (genStart s.timing s.bus)).2)

/-- R175. -/
def execCloseTx (sendStop : Bool) (s : State) : Host.Outcome State Fault Refusal :=
  whenConfigured s
    (match sendAddress s.txAddr false s with
     | (false, s1) => .next ((stopIf sendStop s1).ret (statusResult .nackAddress))
     | (true, s1) =>
         match sendQueued s.txLen 0 s1 with
         | .error f => .fault f
         | .ok (false, s2) => .next ((stopIf sendStop s2).ret (statusResult .nackData))
         | .ok (true, s2) => .next ((stopIf sendStop s2).ret (statusResult .success)))

/-! ## Receive side -/

/-- R177's loop: `n` bytes stored from index `i` on, every one acknowledged but the last. -/
def receiveInto : Nat → Nat → State → Except Fault State
  | 0, _, s => .ok s
  | n + 1, i, s =>
      match memWrite .rx i (rxByte s.timing (n != 0) s.bus).1
          (s.withBus (rxByte s.timing (n != 0) s.bus).2) with
      | .error f => .error f
      | .ok s' => receiveInto n (i + 1) s'

/-- REQUEST's quantity clamped to the receive buffer (R177). -/
def clampQuantity (qty : Word) (s : State) : Nat := min (quantity qty) s.params.rxCapacity

/-- R177. -/
def execRequest (addr : Addr) (qty : Word) (sendStop : Bool) (s : State) : Host.Outcome State Fault Refusal :=
  whenConfigured s
    (match sendAddress addr true { s with rxLen := 0, rxCursor := 0 } with
     | (false, s1) => .next ((stopIf sendStop s1).ret 0#32)
     | (true, s1) =>
         match receiveInto (clampQuantity qty s) 0 s1 with
         | .error f => .fault f
         | .ok s2 =>
             .next ((stopIf sendStop { s2 with rxLen := clampQuantity qty s }).ret
               (countResult (clampQuantity qty s))))

/-- R178. -/
def execRead (s : State) : Host.Outcome State Fault Refusal :=
  if s.rxCursor < s.rxLen then
    match memRead .rx s.rxCursor s with
    | .ok v => .next ({ s with rxCursor := s.rxCursor + 1 }.ret (byteResult v))
    | .error f => .fault f
  else .next (s.ret sentinel)

/-- R179. -/
def execPeek (s : State) : Host.Outcome State Fault Refusal :=
  if s.rxCursor < s.rxLen then
    match memRead .rx s.rxCursor s with
    | .ok v => .next (s.ret (byteResult v))
    | .error f => .fault f
  else .next (s.ret sentinel)

/-- R180: a count, 0 when exhausted (90_conflicts.md C2). -/
def execAvailable (s : State) : Host.Outcome State Fault Refusal :=
  .next (s.ret (countResult ((s.rxLen : Int) - (s.rxCursor : Int))))

/-! ## Probe -/

/-- R181: the stop is sent whatever the acknowledge. -/
def execProbe (addr : Addr) (s : State) : Host.Outcome State Fault Refusal :=
  whenConfigured s
    (.next ((stopIf true (sendAddress addr false s).2).ret (boolResult (sendAddress addr false s).1)))

end Sys2Proof.Machine
end

