-- ==== Sys2Proof/Machine/Dispatch.lean ====
section
/-! DEFINITION. Every command's meaning, one arm per constructor (spec/30_encoding.md R86). -/

namespace Sys2Proof.Machine

def exec (i : Instr) (s : State) : Host.Outcome State Fault Refusal :=
  match i with
  | .configure sda scl => Sys2Proof.Machine.execConfigure sda scl s
  | .release => Sys2Proof.Machine.execRelease s
  | .setClock v => Sys2Proof.Machine.execSetClock v s
  | .start => Sys2Proof.Machine.execStart s
  | .stop => Sys2Proof.Machine.execStop s
  | .writeBit b => Sys2Proof.Machine.execWriteBit b s
  | .readBit => Sys2Proof.Machine.execReadBit s
  | .writeByte v => Sys2Proof.Machine.execWriteByte v s
  | .readByte ack => Sys2Proof.Machine.execReadByte ack s
  | .openTx addr => Sys2Proof.Machine.execOpenTx addr s
  | .queueByte v => Sys2Proof.Machine.execQueueByte v s
  | .queueBytes n => Sys2Proof.Machine.execQueueBytes n s
  | .closeTx sendStop => Sys2Proof.Machine.execCloseTx sendStop s
  | .request addr qty sendStop => Sys2Proof.Machine.execRequest addr qty sendStop s
  | .read => Sys2Proof.Machine.execRead s
  | .peek => Sys2Proof.Machine.execPeek s
  | .available => Sys2Proof.Machine.execAvailable s
  | .probe addr => Sys2Proof.Machine.execProbe addr s

end Sys2Proof.Machine
end

