-- ==== Sys2Proof/Machine/Flags.lean ====
section
/-! DEFINITION. The block's ports as functions of the state (spec/10_state.md R45 to R49) and the observation of a run
(spec/00_scope.md R8). The block has no condition codes (R37); `fault` and `busy` are its only flags. -/

namespace Sys2Proof.Machine

/-- `cmd_valid`: the host offers a word (R45). -/
def State.cmdValid (s : State) : Bool := !s.cmdIn.isEmpty

/-- `cmd_ready = ~busy & ~fault` (R45). -/
def State.cmdReady (s : State) : Bool := !s.busy && !s.fault

/-- `cmd[63:0]`, meaningful while `cmd_valid = 1` (R45). -/
def State.cmd (s : State) : Option CmdWord := s.cmdIn.head?

/-- `sda_id[7:0] = sda_pin` (R46). -/
def State.sdaId (s : State) : PinId := s.sdaPin

/-- `scl_id[7:0] = scl_pin` (R46). -/
def State.sclId (s : State) : PinId := s.sclPin

/-- `sda_mode_out[1:0] = sda_mode` (R46). -/
def State.sdaModeOut (s : State) : BitVec 2 := s.bus.sdaMode.code

/-- `scl_mode_out[1:0] = scl_mode` (R46). -/
def State.sclModeOut (s : State) : BitVec 2 := s.bus.sclMode.code

/-- `res[31:0]`: the last result placed (R48). -/
def State.res (s : State) : Option Word := s.results.getLast?

/-- `fault_out = fault` (R48). -/
def State.faultOut (s : State) : Bool := s.fault

/-- `fault_code_out[2:0] = fault_code` (R48). -/
def State.faultCodeOut (s : State) : BitVec 3 := s.faultCode.code

/-- `pl_valid`: the host offers a payload byte (R49). -/
def State.plValid (s : State) : Bool := !s.payloadIn.isEmpty

/-- `pl_ready`: a QUEUE_BYTES waits for payload (R49). -/
def State.plReady (s : State) : Bool := s.queue.isSome

/-- `delay_req`: a delay is outstanding (R47). -/
def State.delayReq (s : State) : Bool := s.delay.isSome

/-- `delay_us[31:0]`, meaningful while `delay_req = 1` (R47). -/
def State.delayUs (s : State) : Option (BitVec 32) := s.delay

/-- `delay_done`, as the block finds it when it next looks (R47). -/
def State.delayDone (s : State) : Bool := s.delayIn.headD true

/-- The observation of a run: the results, one per command, and the bus trace (R8). -/
def State.observation (s : State) : List Word × List Event := (s.results, s.bus.trace)

end Sys2Proof.Machine
end

