-- ==== Sys2Proof/Machine/CommandPort.lean ====
section
/-! DEFINITION. What the block does at its ports (spec/10_state.md R45, R47, R49; spec/60_exceptions.md R203, R204, R215;
spec/70_reset_and_hazards.md R230): take a word and run its command, wait for a delay, go on with what waits, or be reset.
The reset signal is sampled at the start of every step and, in a step in which a command begins or goes on after a
delay, before each event of the command and before its end. -/

namespace Sys2Proof.Machine

/-- The fault code of a word the decoder rejects (R88, R89, R202). -/
def rejectCode : Reject → FaultCode
  | .illegalOpcode => .illegalOpcode
  | .reservedBits => .reservedBits

/-- The state in which an accepted word runs: it is off the command port and the block is busy (R42, R45). -/
def State.accept (rest : List CmdWord) (s : State) : State := { s with cmdIn := rest, busy := true }

/-- The state past one sampling of the reset signal. -/
def State.pastResetSignal (s : State) : State := { s with resetIn := s.resetIn.tail }

/-- The state with what is still to come of `delay_done` and of the reset signal replaced. -/
def State.withInputs (delays resets : List Bool) (s : State) : State :=
  { s with delayIn := delays, resetIn := resets }

/-- The reset signal at this sampling (R230). -/
def State.resetAsserted (s : State) : Bool := s.resetIn.headD false

/-! ## The events of a command, one after another -/

/-- How far a command's events have got. -/
inductive Drive where
  /-- All are performed. -/
  | ended (s : State)
  /-- A delay is outstanding. -/
  | waiting (s : State)
  /-- The reset signal was asserted. -/
  | reset (s : State)
  deriving DecidableEq, Repr

/-- The delay an event leaves outstanding: that of a `Wait(n)` for which `delay_done` is not raised (R47). -/
def State.outstanding (s : State) : Event → Option (BitVec 32)
  | .wait n => if s.delayDone then none else some (BitVec.ofNat 32 n)
  | .mode _ _ | .sample _ _ => none

/-- The state after an event; a `Wait(n)` has looked at `delay_done` once. -/
def State.perform (e : Event) (s : State) : State :=
  { s.pastResetSignal with
    bus := s.bus.perform e
    delayIn := match e with
      | .wait _ => s.delayIn.tail
      | .mode _ _ | .sample _ _ => s.delayIn }

/-- A command's events performed in order, until all are, or a delay is not yet done, or the reset signal is asserted.
`Delay(n)` records `Wait(n)` and raises `delay_req`; nothing follows it before `delay_done` (R14, R47). -/
def drive : List Event → State → Drive
  | [], s => if s.resetAsserted then .reset s.pastResetSignal else .ended s.pastResetSignal
  | e :: rest, s =>
      if s.resetAsserted then .reset s.pastResetSignal
      else
        match s.outstanding e with
        | none => drive rest (s.perform e)
        | some n => .waiting { s.perform e with delay := some n }

/-- What a command has written besides the bus side once its first event is performed: CONFIGURE the pins (R101), and
REQUEST the empty receive buffer (R177). -/
def begun : Instr → State → State
  | .configure sda scl, s => { s with sdaPin := sda, sclPin := scl, pinsBound := true }
  | .request _ _ _, s => { s with rxLen := 0, rxCursor := 0 }
  | .release, s | .setClock _, s | .start, s | .stop, s | .writeBit _, s | .readBit, s | .writeByte _, s
  | .readByte _, s | .openTx _, s | .queueByte _, s | .queueBytes _, s | .closeTx _, s | .read, s | .peek, s
  | .available, s | .probe _, s => s

/-- What becomes of the command `i`, begun on the bus side `start`, whose meaning answers `t`: it ends as its meaning
says, or keeps its place at a delay that is not done, or is abandoned by a reset: no result, and no event more (R230). -/
def conclude (i : Instr) (start : Bus) (t : State) : Drive → State
  | .ended u => t.withInputs u.delayIn u.resetIn
  | .waiting u => { begun i u with inFlight := some { instr := i, start := start } }
  | .reset u => u.resetNow

/-- The command `i`, begun in state `a` and by now in state `s`, goes on. -/
def follow (i : Instr) (a s : State) : Host.Outcome State Fault Refusal :=
  match exec i a with
  | .next t => .next (conclude i a.bus t (drive (t.bus.trace.drop s.bus.trace.length) s))
  | .fault f => .fault f
  | .refused r => .refused r

/-- The state a command in progress began in; at a command boundary, the state itself. -/
def State.boundary (s : State) : State :=
  match s.inFlight with
  | some c => { s with bus := c.start, inFlight := none, delay := none }
  | none => s

/-! ## Steps -/

/-- An accepted word: a decoding fault comes before the command's own checks (R204). -/
def runWord (w : CmdWord) (s : State) : Host.Outcome State Fault Refusal :=
  match decode w with
  | .reject r => .next (s.raise (rejectCode r))
  | .command i => follow i s s

/-- A bus command whose delay is outstanding: the block waits for `delay_done`, and then goes on (R47). -/
def resumeCommand (c : InFlight) (s : State) : Host.Outcome State Fault Refusal :=
  if s.delayDone then
    follow c.instr { s.boundary with delayIn := s.delayIn.tail }
      { s with delayIn := s.delayIn.tail, inFlight := none, delay := none }
  else .next { s with delayIn := s.delayIn.tail }

/-- A busy block goes on with the bus command that waits for a delay, or with the QUEUE_BYTES that waits for payload. -/
def resume (s : State) : Host.Outcome State Fault Refusal :=
  match s.inFlight with
  | some c => resumeCommand c s
  | none => resumeQueue s

/-- One step of a block that is not being reset. A block in fault takes nothing: the host holds its word (R45, R203).
A busy block is in a command. A ready block takes the word offered, if any. -/
def stepCommand (s : State) : Host.Outcome State Fault Refusal :=
  if s.fault then .next s
  else if s.busy then resume s
  else
    match s.cmdIn with
    | [] => .next s
    | w :: rest => runWord w (s.accept rest)

/-- One step: reset if its signal is asserted, else the block's own step. -/
def stepBlock (s : State) : Host.Outcome State Fault Refusal :=
  if s.resetAsserted then .next s.pastResetSignal.resetNow else stepCommand s.pastResetSignal

/-- `s` with a word offered first on the command port, no reset and every delay done at once. -/
def State.offer (w : CmdWord) (s : State) : State :=
  { s with cmdIn := w :: s.cmdIn, delayIn := [], resetIn := [] }

end Sys2Proof.Machine
end

