-- ==== Sys2Proof/Machine/Step.lean ====
section
/-! DEFINITION. One step of the machine: at most one command accepted, and executed to its end unless a delay or the host
keeps it waiting or a reset abandons it (spec/10_state.md R21, R47, spec/20_memory.md R67, R71). -/

namespace Sys2Proof.Machine

/-- One step (Machine/CommandPort.lean says what it does). -/
def step (s : State) : Host.Outcome State Fault Refusal := stepBlock s

/-- `s` with the word a table row gives offered first on the command port: the block fetches nothing (R21, R75), it
takes the word the host offers next. The delay and reset inputs are set so that nothing keeps the command from running
to its end in one step (notes/assumptions/6.md). -/
def State.withFetchWord (s : State) (_nbits w : Nat) : State := s.offer (BitVec.ofNat 64 w)

end Sys2Proof.Machine
end

