-- ==== Sys2Proof/Safety.lean ====
section
/-! DEFINITION. The terms claims use: the invariants of a run, the two kinds of command (spec/00_scope.md R18), and the
shapes of bus traffic (spec/41_bit_level.md R123 to R136, spec/42_byte_level.md R150 and R152, spec/43_transaction.md
R175, R177, R181, R182) as predicates on lists of events, written from the rules' traces and not from the machine. -/

namespace Sys2Proof.Machine

/-! ## Invariants -/

/-- R47: the bus command `c` has performed some of its events, the last of them the delay that is outstanding, and the
bus side is what they have made of that at its start. -/
def State.MidCommand (c : InFlight) (s : State) : Prop :=
  ∃ t n before after, exec c.instr s.boundary = .next t ∧ s.delay = some n ∧
    t.bus.trace = c.start.trace ++ (before ++ Event.wait n.toNat :: after) ∧
    s.bus = c.start.play (before ++ [Event.wait n.toNat])

/-- What holds of the stored state at every step boundary. -/
structure State.Wf (s : State) : Prop where
  /-- The parameter constraints of R5. -/
  params_valid : s.params.valid = true
  /-- R24: `hp >= 1` at all times. -/
  hp_pos : 1 ≤ s.hp.toNat
  /-- R22: a configured block has its pins bound. -/
  configured_bound : s.configured = true → s.pinsBound = true
  /-- R23: bound pins differ. -/
  pins_differ : s.pinsBound = true → s.sdaPin ≠ s.sclPin
  /-- R31. -/
  txLen_le : s.txLen ≤ s.params.txCapacity
  /-- R35. -/
  rxCursor_le : s.rxCursor ≤ s.rxLen
  /-- R35. -/
  rxLen_le : s.rxLen ≤ s.params.rxCapacity
  /-- The transmit buffer's contents are in canonical form. -/
  txBuf_wf : s.txBuf.wf = true
  /-- R30: entries 0 to TX_CAPACITY-1. -/
  txBuf_within : s.txBuf.within s.params.txCapacity = true
  /-- The receive buffer's contents are in canonical form. -/
  rxBuf_wf : s.rxBuf.wf = true
  /-- R34: entries 0 to RX_CAPACITY-1. -/
  rxBuf_within : s.rxBuf.within s.params.rxCapacity = true
  /-- R40, R41: `fault` is set with a code other than NONE, and only so. -/
  fault_code : s.fault = true ↔ s.faultCode ≠ .none
  /-- R203: a fault leaves the block not busy. -/
  fault_idle : s.fault = true → s.busy = false
  /-- R38, R42: between steps the block is busy exactly while a QUEUE_BYTES waits for payload or a bus command waits
  for a delay. -/
  busy_waiting : s.busy = (s.queue.isSome || s.inFlight.isSome)
  /-- R21: one command at a time. -/
  one_command : s.queue = none ∨ s.inFlight = none
  /-- R47: `delay_req` is raised exactly while a bus command waits. -/
  delay_inFlight : s.delay.isSome = s.inFlight.isSome
  /-- A waiting bus command is where its events so far have brought it. -/
  mid_command : ∀ c, s.inFlight = some c → s.MidCommand c
  /-- A waiting QUEUE_BYTES has payload to take, at most its 32-bit count in all (R85, R173). -/
  queue_counts : ∀ q, s.queue = some q → 1 ≤ q.remaining ∧ q.remaining + q.accepted < 2 ^ 32

/-- The mode a line is left in by a list of events, from the mode it had before them. -/
def modeAfter (line : Line) : PinMode → List Event → PinMode
  | m, [] => m
  | m, .mode l d :: rest => modeAfter line (if l = line then d.pinMode else m) rest
  | m, .wait _ :: rest => modeAfter line m rest
  | m, .sample _ _ :: rest => modeAfter line m rest

/-- R25: `sda_mode` and `scl_mode` are the modes the block last set, UNSET before the first. -/
def Bus.Mirrors (b : Bus) : Prop :=
  b.sdaMode = modeAfter .sda .unset b.trace ∧ b.sclMode = modeAfter .scl .unset b.trace

/-- Every sample in a list of events is of a line in mode INPUT_PULLUP at that point, from the modes before them. -/
def samplesReleased : PinMode → PinMode → List Event → Prop
  | _, _, [] => True
  | _, mc, .mode .sda d :: rest => samplesReleased d.pinMode mc rest
  | md, _, .mode .scl d :: rest => samplesReleased md d.pinMode rest
  | md, mc, .wait _ :: rest => samplesReleased md mc rest
  | md, mc, .sample .sda _ :: rest => md = .inputPullup ∧ samplesReleased md mc rest
  | md, mc, .sample .scl _ :: rest => mc = .inputPullup ∧ samplesReleased md mc rest

/-- R66: "The block only samples a line it has released". -/
def Bus.SamplesReleased (b : Bus) : Prop := samplesReleased .unset .unset b.trace

/-- R44: every `Wait(n)` has n >= 1. -/
def waitsPositive (evs : List Event) : Prop := ∀ n, Event.wait n ∈ evs → 1 ≤ n

/-- A property of the bus side that holds of it now and held when the command in progress began. -/
def State.Throughout (P : Bus → Prop) (s : State) : Prop := P s.bus ∧ P s.boundary.bus

/-- The lines of a block: no mode and no event before the first CONFIGURE (R23, R26), and while configured each line
released or driven low (R22, R27). -/
structure State.LinesLegal (s : State) : Prop where
  configured_bound : s.configured = true → s.pinsBound = true
  unbound_unset : s.pinsBound = false → s.bus.sdaMode = .unset ∧ s.bus.sclMode = .unset ∧ s.bus.trace = []
  configured_sda : s.configured = true → s.bus.sdaMode = .inputPullup ∨ s.bus.sdaMode = .outputLow
  configured_scl : s.configured = true → s.bus.sclMode = .inputPullup ∨ s.bus.sclMode = .outputLow

/-! ## What a piece of bus activity does -/

/-- The levels a list of events sampled on a line, in order. -/
def samplesOf (line : Line) : List Event → List Level
  | [] => []
  | .sample l lvl :: rest => if l = line then lvl :: samplesOf line rest else samplesOf line rest
  | .mode _ _ :: rest => samplesOf line rest
  | .wait _ :: rest => samplesOf line rest

/-- R66: the samples `taken` are the environment's answers: those listed `before`, in order, and free ones only once
none is listed; `after` is what is still listed. -/
def Answered (taken before after : List Level) : Prop :=
  ∃ free, taken ++ after = before ++ free ∧ (after = [] ∨ free = [])

/-- Everything the bus activity `evs` does to the bus side of the state: the events are appended (R44), the modes
follow them (R25), and the samples are the environment's answers (R66). -/
structure Bus.Emits (b b' : Bus) (evs : List Event) : Prop where
  trace : b'.trace = b.trace ++ evs
  sdaMode : b'.sdaMode = modeAfter .sda b.sdaMode evs
  sclMode : b'.sclMode = modeAfter .scl b.sclMode evs
  sdaAnswers : Answered (samplesOf .sda evs) b.sdaAnswers b'.sdaAnswers
  sclAnswers : Answered (samplesOf .scl evs) b.sclAnswers b'.sclAnswers
  /-- Performing the events one after another leads to the same bus side, draws of free answers included. -/
  play : b.play evs = b'

/-- Between `lo` and `hi` events are appended to the trace. -/
def Bus.AppendsTo (b b' : Bus) (lo hi : Nat) : Prop :=
  ∃ evs, b'.trace = b.trace ++ evs ∧ lo ≤ evs.length ∧ evs.length ≤ hi

/-! ## Kinds of command (R18) -/

/-- The bus commands of R18: those that produce pin events. -/
def isBusCommand : Instr → Bool
  | .configure _ _ | .release | .start | .stop | .writeBit _ | .readBit | .writeByte _ | .readByte _
  | .closeTx _ | .request _ _ _ | .probe _ => true
  | .setClock _ | .openTx _ | .queueByte _ | .queueBytes _ | .read | .peek | .available => false

/-- The commands that fault NOT_CONFIGURED on a block that is not configured (R202): the bus commands but CONFIGURE
and RELEASE. -/
def needsConfigured : Instr → Bool
  | .start | .stop | .writeBit _ | .readBit | .writeByte _ | .readByte _
  | .closeTx _ | .request _ _ _ | .probe _ => true
  | .configure _ _ | .release | .setClock _ | .openTx _ | .queueByte _ | .queueBytes _ | .read | .peek
  | .available => false

/-! ## Bus traffic -/

/-- `j` low samples of SCL, each followed by a 1-microsecond wait (R124). -/
def lowPolls (j : Nat) : List Event := (List.replicate j [Event.sample .scl false, Event.wait 1]).flatten

/-- R124: j low samples and then a high one, 0 <= j <= limit; or, on timeout, limit + 1 low samples. -/
def IsPoll (limit : Nat) (evs : List Event) : Prop :=
  (∃ j, j ≤ limit ∧ evs = lowPolls j ++ [Event.sample .scl true]) ∨ evs = lowPolls limit ++ [Event.sample .scl false]

/-- R123: `SCL=R, W(hp)`, then the poll. -/
def IsRelease (t : Timing) (evs : List Event) : Prop :=
  ∃ p, IsPoll t.pollLimit p ∧ evs = Event.mode .scl .inputPullup :: Event.wait t.hp :: p

/-- R130: `SDA=R`, the release of SCL, `W(hp), SDA=L, W(hp), SCL=L`. -/
def IsStart (t : Timing) (evs : List Event) : Prop :=
  ∃ r, IsRelease t r ∧
    evs = Event.mode .sda .inputPullup ::
      (r ++ [Event.wait t.hp, Event.mode .sda .outputLow, Event.wait t.hp, Event.mode .scl .outputLow])

/-- R132: `SDA=L, W(hp)`, the release of SCL, `W(hp), SDA=R, W(hp)`. -/
def IsStop (t : Timing) (evs : List Event) : Prop :=
  ∃ r, IsRelease t r ∧
    evs = Event.mode .sda .outputLow :: Event.wait t.hp ::
      (r ++ [Event.wait t.hp, Event.mode .sda .inputPullup, Event.wait t.hp])

/-- R134: SDA to the bit, `W(hp)`, the release of SCL, `SCL=L`. -/
def IsBitOut (t : Timing) (bit : Bool) (evs : List Event) : Prop :=
  ∃ r, IsRelease t r ∧
    evs = Event.mode .sda (if bit then DriveMode.inputPullup else DriveMode.outputLow) :: Event.wait t.hp ::
      (r ++ [Event.mode .scl .outputLow])

/-- R136: `SDA=R, W(hp)`, the release of SCL, `sSDA=lvl, SCL=L`. -/
def IsBitIn (t : Timing) (lvl : Level) (evs : List Event) : Prop :=
  ∃ r, IsRelease t r ∧
    evs = Event.mode .sda .inputPullup :: Event.wait t.hp ::
      (r ++ [Event.sample .sda lvl, Event.mode .scl .outputLow])

/-- Bits sent one after another. -/
def IsBitsOut (t : Timing) : List Bool → List Event → Prop
  | [], evs => evs = []
  | bit :: bits, evs => ∃ e₁ e₂, IsBitOut t bit e₁ ∧ IsBitsOut t bits e₂ ∧ evs = e₁ ++ e₂

/-- Bits received one after another. -/
def IsBitsIn (t : Timing) : List Level → List Event → Prop
  | [], evs => evs = []
  | lvl :: lvls, evs => ∃ e₁ e₂, IsBitIn t lvl e₁ ∧ IsBitsIn t lvls e₂ ∧ evs = e₁ ++ e₂

/-- R150: the byte's bits, v[7] first, then the ninth bit in, low exactly for an acknowledge. -/
def IsByteOut (t : Timing) (v : Byte) (ack : Bool) (evs : List Event) : Prop :=
  ∃ e₁ e₂, IsBitsOut t (msbFirst v) e₁ ∧ IsBitIn t (!ack) e₂ ∧ evs = e₁ ++ e₂

/-- R152: the byte's bits in, v[7] first, then the negated acknowledge flag out. -/
def IsByteIn (t : Timing) (v : Byte) (ack : Bool) (evs : List Event) : Prop :=
  ∃ e₁ e₂, IsBitsIn t (msbFirst v) e₁ ∧ IsBitOut t (!ack) e₂ ∧ evs = e₁ ++ e₂

/-- R175's data phase: bytes sent in order up to the first that is not acknowledged; `ok` if all were. -/
def IsDataOut (t : Timing) : List Byte → Bool → List Event → Prop
  | [], ok, evs => ok = true ∧ evs = []
  | v :: vs, ok, evs =>
      (∃ e₁ e₂, IsByteOut t v true e₁ ∧ IsDataOut t vs ok e₂ ∧ evs = e₁ ++ e₂) ∨
      (ok = false ∧ IsByteOut t v false evs)

/-- R177's data phase: bytes received in order, all acknowledged but the last. -/
def IsDataIn (t : Timing) : List Byte → List Event → Prop
  | [], evs => evs = []
  | v :: vs, evs => ∃ e₁ e₂, IsByteIn t v (!vs.isEmpty) e₁ ∧ IsDataIn t vs e₂ ∧ evs = e₁ ++ e₂

/-- A stop condition if `send_stop`, else nothing. -/
def IsStopIf (t : Timing) (sendStop : Bool) (evs : List Event) : Prop :=
  if sendStop then IsStop t evs else evs = []

/-- A start condition and an address byte with its acknowledge. -/
def IsAddressed (t : Timing) (addr : Addr) (rw ack : Bool) (evs : List Event) : Prop :=
  ∃ e₁ e₂, IsStart t e₁ ∧ IsByteOut t (addrByte addr rw) ack e₂ ∧ evs = e₁ ++ e₂

/-- R175, R182: the traffic of CLOSE_TX and the status it reports. -/
def IsCloseTx (t : Timing) (addr : Addr) (bytes : List Byte) (sendStop : Bool) (st : Status)
    (evs : List Event) : Prop :=
  (∃ e₁ e₂, IsAddressed t addr false false e₁ ∧ IsStopIf t sendStop e₂ ∧ evs = e₁ ++ e₂ ∧ st = .nackAddress) ∨
  (∃ e₁ e₂ e₃ ok, IsAddressed t addr false true e₁ ∧ IsDataOut t bytes ok e₂ ∧ IsStopIf t sendStop e₃ ∧
    evs = e₁ ++ e₂ ++ e₃ ∧ st = if ok then .success else .nackData)

/-- R177, R182: the traffic of a REQUEST whose address is acknowledged and which receives `bytes`. -/
def IsRequest (t : Timing) (addr : Addr) (bytes : List Byte) (sendStop : Bool) (evs : List Event) : Prop :=
  ∃ e₁ e₂ e₃, IsAddressed t addr true true e₁ ∧ IsDataIn t bytes e₂ ∧ IsStopIf t sendStop e₃ ∧
    evs = e₁ ++ e₂ ++ e₃

/-- R177, R182: the traffic of a REQUEST whose address is not acknowledged. -/
def IsRequestNack (t : Timing) (addr : Addr) (sendStop : Bool) (evs : List Event) : Prop :=
  ∃ e₁ e₂, IsAddressed t addr true false e₁ ∧ IsStopIf t sendStop e₂ ∧ evs = e₁ ++ e₂

/-- R181, R182: the traffic of PROBE. -/
def IsProbe (t : Timing) (addr : Addr) (ack : Bool) (evs : List Event) : Prop :=
  ∃ e₁ e₂, IsAddressed t addr false ack e₁ ∧ IsStop t e₂ ∧ evs = e₁ ++ e₂

/-- The bytes queued: entries 0 to `tx_len`-1 of the transmit buffer, in order (R30). -/
def State.queued (s : State) : List Byte := (List.range s.txLen).map s.txBuf.read

/-- Buffer contents after bytes written one after another from an index on. -/
def Memory.writeAll : Memory → Nat → List Byte → Memory
  | m, _, [] => m
  | m, i, v :: vs => Memory.writeAll (m.write i v) (i + 1) vs

/-- How many of `n` payload bytes the transmit buffer has room for (R173). -/
def State.room (n : Nat) (s : State) : Nat := min n (s.params.txCapacity - s.txLen)

/-- `n` READ commands one after another. -/
def readTimes : Nat → State → Host.Outcome State Fault Refusal
  | 0, s => .next s
  | n + 1, s =>
      match exec .read s with
      | .next t => readTimes n t
      | .fault f => .fault f
      | .refused r => .refused r

/-- `n` steps one after another. -/
def stepTimes : Nat → State → Host.Outcome State Fault Refusal
  | 0, s => .next s
  | n + 1, s =>
      match step s with
      | .next t => stepTimes n t
      | .fault f => .fault f
      | .refused r => .refused r

/-- How many delays a list of events has. -/
def delaysOf : List Event → Nat
  | [] => 0
  | .wait _ :: rest => 1 + delaysOf rest
  | .mode _ _ :: rest => delaysOf rest
  | .sample _ _ :: rest => delaysOf rest

/-- R231: every element that has a reset value holds it, `hp` the machine's own (R5), and the trace is empty. What
`sda_pin`, `scl_pin` and the buffers hold is unspecified. -/
structure State.HasResetValues (s : State) : Prop where
  configured : s.configured = false
  pinsBound : s.pinsBound = false
  hp : s.hp = s.params.halfPeriodReset
  sdaMode : s.bus.sdaMode = .unset
  sclMode : s.bus.sclMode = .unset
  txAddr : s.txAddr = 0#7
  txLen : s.txLen = 0
  rxLen : s.rxLen = 0
  rxCursor : s.rxCursor = 0
  fault : s.fault = false
  faultCode : s.faultCode = .none
  busy : s.busy = false
  trace : s.bus.trace = []

/-- R230: `t` is `s` reset once the command in progress has had the events `seen`, and no other: no result is placed, the
bus has seen those events, no delay and no payload is asked for, and every element is reset. -/
structure State.AbandonedAfter (s : State) (seen : List Event) (t : State) : Prop where
  results : t.results = s.results
  history : t.history = s.history ++ [s.bus.trace ++ seen]
  params : t.params = s.params
  values : t.HasResetValues
  delayReq : t.delayReq = false
  plReady : t.plReady = false

/-- The reset signal is asserted at no sampling to come. -/
def State.noReset (s : State) : Prop := ∀ b ∈ s.resetIn, b = false

/-- Every delay to come is done when the block first looks. -/
def State.delaysDone (s : State) : Prop := ∀ b ∈ s.delayIn, b = true

/-- The microseconds a list of events waits at least (R14, R241). -/
def waitTotal : List Event → Nat
  | [] => 0
  | .wait n :: rest => n + waitTotal rest
  | .mode _ _ :: rest => waitTotal rest
  | .sample _ _ :: rest => waitTotal rest

/-- How often a list of events releases SCL (R243). -/
def sclReleases : List Event → Nat
  | [] => 0
  | .mode .scl .inputPullup :: rest => 1 + sclReleases rest
  | .mode .scl .outputLow :: rest => sclReleases rest
  | .mode .scl .input :: rest => sclReleases rest
  | .mode .sda _ :: rest => sclReleases rest
  | .wait _ :: rest => sclReleases rest
  | .sample _ _ :: rest => sclReleases rest

end Sys2Proof.Machine
end

