-- ==== Sys2Proof/Certificates/Slice0/Obligations.lean ====
section
/-! DEFINITION. The statements for the provers. Each docstring names the rule of spec/ it formalises. A statement about a
command says its encoding, every fault it has, and its answer with the whole next state written out, so that what
the equation does not name is unchanged. -/

open Sys2Proof Sys2Proof.Machine

/-! ## Encoding (spec/30_encoding.md) -/

/-- R81, R86, R87: decoding the word of a command gives the command, whatever its operands. -/
def Obligations.DecodeOfEncodeIsTheCommand : Prop :=
  ∀ i : Instr, decode (encode i) = .command i

/-- R87, R89: a word that decodes to a command is that command's word: no other bit of it may be set. -/
def Obligations.LegalWordIsTheWordOfItsCommand : Prop :=
  ∀ (w : CmdWord) (i : Instr), decode w = .command i → encode i = w

/-- R88: the OP values that are illegal. -/
def Obligations.UnassignedOpcodesAreIllegal : Prop :=
  ∀ w : CmdWord, decode w = .reject .illegalOpcode ↔
    (w.toNat / 2 ^ 56 = 0x00 ∨ (0x04 ≤ w.toNat / 2 ^ 56 ∧ w.toNat / 2 ^ 56 ≤ 0x0F) ∨
      (0x16 ≤ w.toNat / 2 ^ 56 ∧ w.toNat / 2 ^ 56 ≤ 0x1F) ∨ 0x29 ≤ w.toNat / 2 ^ 56)

/-- R89 (and R87's mask): under a legal OP, any 1 in a bit the row's mask covers outside OP is rejected. -/
def Obligations.ReservedBitsAreRejected : Prop :=
  ∀ (o : Opcode) (w : CmdWord), w.extractLsb' 56 8 = o.code →
    (decode w = .reject .reservedBits ↔
      ∃ k, k < 56 ∧ o.mask.getLsbD k = true ∧ w.getLsbD k = true)

/-- R95: each of the nine encoding examples is the word of its command, and decodes to it. -/
def Obligations.EncodingExamplesDecode : Prop :=
  ∀ row ∈ [(Instr.configure 4#8 5#8, 0x0104050000000000#64),
      (Instr.setClock 100000#32, 0x03000000000186A0#64),
      (Instr.setClock (BitVec.ofInt 32 (-5)), 0x03000000FFFFFFFB#64),
      (Instr.writeBit true, 0x1200000100000000#64),
      (Instr.readByte true, 0x1500000100000000#64),
      (Instr.openTx 0x50#7, 0x2050000000000000#64),
      (Instr.closeTx true, 0x2300000100000000#64),
      (Instr.request 0x68#7 3#32 true, 0x2468000100000003#64),
      (Instr.probe 0x3C#7, 0x283C000000000000#64)],
    encode row.1 = row.2 ∧ decode row.2 = .command row.1

/-- 20_memory.md section 2 (the first sentence of R63): the bytes of a narrow link, opcode byte first, carry the word. -/
def Obligations.LinkBytesCarryTheWord : Prop :=
  ∀ (w : CmdWord) (rest : List Byte),
    wordOfBytes (bytesOfWord w ++ rest) = some (w, rest) ∧ (bytesOfWord w).head? = some (w.extractLsb' 56 8)

/-! ## The command port, faults and reset (spec/10_state.md, spec/60_exceptions.md, spec/70_reset_and_hazards.md) -/

/-- A step runs the decoded command: with the block ready, no reset to come and every delay done when the block looks,
the word offered is accepted and its command's meaning is the step (R21, R45). `m` and `k` count how often the command
looked at the reset signal and at `delay_done`. -/
def Obligations.StepRunsTheOfferedCommand : Prop :=
  ∀ (s : State) (w : CmdWord) (rest : List CmdWord) (i : Instr),
    s.noReset → s.delaysDone → s.busy = false → s.fault = false → s.cmdIn = w :: rest → decode w = .command i →
    ∃ m k, step s = exec i { s with
      resetIn := s.resetIn.drop m, delayIn := s.delayIn.drop k, cmdIn := rest, busy := true }

/-- The word the host's `withFetchWord` offers is the one a ready block's next step runs. The model's own interface
(notes/assumptions/6.md), no rule of the spec. -/
def Obligations.OfferedTableWordIsRunNext : Prop :=
  ∀ (s : State) (nbits w : Nat) (i : Instr), s.busy = false → s.fault = false → nbits ≤ 64 →
    decodeTableWord nbits w = some i →
    step (s.withFetchWord nbits w) = exec i { s with busy := true, delayIn := [], resetIn := [] }

/-- R88, R89: an accepted word whose OP is unassigned, or whose OP is assigned and which has a 1 in a bit its row's mask
covers outside OP, faults with the rule's code and has no other effect but that it was taken. -/
def Obligations.RejectedWordFaultsAndDoesNothingElse : Prop :=
  ∀ (s : State) (w : CmdWord) (rest : List CmdWord),
    s.resetIn.headD false = false → s.busy = false → s.fault = false → s.cmdIn = w :: rest →
    (w.toNat / 2 ^ 56 = 0x00 ∨ (0x04 ≤ w.toNat / 2 ^ 56 ∧ w.toNat / 2 ^ 56 ≤ 0x0F) ∨
        (0x16 ≤ w.toNat / 2 ^ 56 ∧ w.toNat / 2 ^ 56 ≤ 0x1F) ∨ 0x29 ≤ w.toNat / 2 ^ 56 →
      step s = .next { s with resetIn := s.resetIn.tail, cmdIn := rest, fault := true,
                              faultCode := .illegalOpcode }) ∧
    (∀ o : Opcode, w.extractLsb' 56 8 = o.code →
      (∃ k, k < 56 ∧ o.mask.getLsbD k = true ∧ w.getLsbD k = true) →
      step s = .next { s with resetIn := s.resetIn.tail, cmdIn := rest, fault := true,
                              faultCode := .reservedBits })

/-- R202, R204: without a reset, an accepted word ends in a fault exactly for the four causes of the table, decoding's
before the command's own. -/
def Obligations.FaultCausesAreThoseOfTheTable : Prop :=
  ∀ (s t : State) (w : CmdWord) (rest : List CmdWord),
    s.noReset → s.busy = false → s.fault = false → s.faultCode = .none →
    s.cmdIn = w :: rest → step s = .next t →
    (t.faultCode = .illegalOpcode ↔ decode w = .reject .illegalOpcode) ∧
    (t.faultCode = .reservedBits ↔ decode w = .reject .reservedBits) ∧
    (t.faultCode = .notConfigured ↔
      ∃ i, decode w = .command i ∧ needsConfigured i = true ∧ s.configured = false) ∧
    (t.faultCode = .pinConflict ↔ ∃ pin, decode w = .command (.configure pin pin)) ∧
    (t.fault = true ↔ t.faultCode ≠ .none)

/-- R203: a step that raises a fault changes nothing but `fault`, `fault_code` and `busy`, and takes the word; no result
is placed. From then on the block is not ready, and it accepts nothing until reset. `m` counts how often the step looked
at the reset signal. -/
def Obligations.FaultEntryIsPrecise : Prop :=
  ∀ s t : State, s.Wf → step s = .next t → s.fault = false → t.fault = true →
    (∃ m, t = { s with fault := true, faultCode := t.faultCode, busy := false, cmdIn := s.cmdIn.tail,
                       resetIn := s.resetIn.drop m }) ∧
    t.faultCode ≠ .none ∧ t.faultOut = true ∧ t.cmdReady = false ∧
    (t.resetIn.headD false = false → step t = .next { t with resetIn := t.resetIn.tail })

/-- R203, R207: a block in fault accepts nothing, whatever the host offers, until reset, and reset clears the fault. -/
def Obligations.FaultIsLeftOnlyByReset : Prop :=
  ∀ s : State, s.fault = true →
    (s.resetIn.headD false = false → step s = .next { s with resetIn := s.resetIn.tail }) ∧
    (s.resetIn.headD false = true → ∃ t, step s = .next t ∧ t.fault = false ∧ t.faultCode = .none)

/-- R231: a reset, from any state, gives every element its reset value and empties the trace. What `sda_pin`,
`scl_pin` and the buffers hold is left open by the rule and by this statement. -/
def Obligations.ResetGivesEveryElementItsResetValue : Prop :=
  ∀ s : State, s.resetIn.headD false = true → ∃ t, step s = .next t ∧
    t.configured = false ∧ t.pinsBound = false ∧ t.hp = s.params.halfPeriodReset ∧
    t.bus.sdaMode = .unset ∧ t.bus.sclMode = .unset ∧ t.txAddr = 0#7 ∧ t.txLen = 0 ∧ t.rxLen = 0 ∧
    t.rxCursor = 0 ∧ t.fault = false ∧ t.faultCode = .none ∧ t.busy = false ∧ t.bus.trace = []

/-- R231, R232: the state the machine starts in, at R5's parameter values; it is ready for its first command. -/
def Obligations.StartStateHasTheResetValues : Prop :=
  State.reset.configured = false ∧ State.reset.pinsBound = false ∧ State.reset.hp = 5#32 ∧
  State.reset.bus.sdaMode = .unset ∧ State.reset.bus.sclMode = .unset ∧ State.reset.txAddr = 0#7 ∧
  State.reset.txLen = 0 ∧ State.reset.rxLen = 0 ∧ State.reset.rxCursor = 0 ∧ State.reset.fault = false ∧
  State.reset.faultCode = .none ∧ State.reset.busy = false ∧ State.reset.bus.trace = [] ∧
  State.reset.cmdReady = true

/-- R232 ("the block waits for its first command"): a ready block that is offered no word does nothing. That such a step
is a next state that only looks at the reset signal is the model's reading (notes/assumptions/8.md, DEDUCED). -/
def Obligations.ReadyBlockWaitsForAWord : Prop :=
  ∀ s : State, s.resetIn.headD false = false → s.busy = false → s.fault = false → s.cmdIn = [] →
    step s = .next { s with resetIn := s.resetIn.tail }

/-! ## Invariants and whole-machine rules -/

/-- R24, R31, R35, R23, R41, R47 and the canonical form of the buffers: every step keeps the state well formed. -/
def Obligations.StepKeepsTheStateWellFormed : Prop :=
  ∀ s t : State, s.Wf → step s = .next t → t.Wf

/-- The start state is well formed. -/
def Obligations.StartStateIsWellFormed : Prop := State.reset.Wf

/-- R11, R243: from a well-formed state no step stops: every accepted command, whatever the bus answers, ends in a
next state. -/
def Obligations.WellFormedStateAlwaysSteps : Prop :=
  ∀ s : State, s.Wf → ∃ t, step s = .next t

/-- R25: `sda_mode` and `scl_mode` stay the modes the block last set, inside a command that waits for a delay too. -/
def Obligations.StepKeepsTheModesThoseLastSet : Prop :=
  ∀ s t : State, s.Throughout Bus.Mirrors → step s = .next t → t.Throughout Bus.Mirrors

/-- R66: every sample of a run is of a line the block has released. -/
def Obligations.StepSamplesOnlyReleasedLines : Prop :=
  ∀ s t : State, s.Wf → s.Throughout Bus.SamplesReleased → step s = .next t → t.Throughout Bus.SamplesReleased

/-- R22, R26: before the first CONFIGURE both modes are UNSET, and while configured each line is released or driven
low. -/
def Obligations.StepKeepsTheLinesLegal : Prop :=
  ∀ s t : State, s.Wf → s.LinesLegal → s.boundary.LinesLegal → step s = .next t →
    t.LinesLegal ∧ t.boundary.LinesLegal

/-- R44: every wait of a run is of at least one microsecond. -/
def Obligations.StepKeepsWaitsPositive : Prop :=
  ∀ s t : State, s.Wf → s.Throughout (fun b => waitsPositive b.trace) → step s = .next t →
    t.Throughout (fun b => waitsPositive b.trace)

/-- The start state meets the invariants of the bus side. -/
def Obligations.StartStateMeetsTheBusInvariants : Prop :=
  State.reset.Throughout Bus.Mirrors ∧ State.reset.Throughout Bus.SamplesReleased ∧ State.reset.LinesLegal ∧
    State.reset.boundary.LinesLegal ∧ State.reset.Throughout (fun b => waitsPositive b.trace)

/-- R8, R44, R48: without a reset a step only appends to the observation, and to the results at most one. -/
def Obligations.StepOnlyAppendsToTheObservation : Prop :=
  ∀ s t : State, s.Wf → s.noReset → step s = .next t →
    ∃ evs rs, t.bus.trace = s.bus.trace ++ evs ∧ t.results = s.results ++ rs ∧ rs.length ≤ 1 ∧
      t.history = s.history

/-- R48: an accepted command that ends gives one result unless it faults, and then none; one that does not end is a
QUEUE_BYTES that waits (R42, R215). -/
def Obligations.EachCommandGivesOneResultOrFaults : Prop :=
  ∀ (i : Instr) (s t : State), s.fault = false → exec i s = .next t →
    (t.busy = false ∧ t.fault = false ∧ ∃ r, t.results = s.results ++ [r]) ∨
    (t.busy = false ∧ t.fault = true ∧ t.results = s.results) ∨
    (t.busy = true ∧ t.fault = false ∧ t.results = s.results ∧ t.queue.isSome = true ∧ ∃ n, i = .queueBytes n)

/-- 10_state.md section 7: no command writes an element that is not in its list there. -/
def Obligations.EachElementIsWrittenOnlyByItsCommands : Prop :=
  ∀ (i : Instr) (s t : State), exec i s = .next t →
    t.params = s.params ∧ t.cmdIn = s.cmdIn ∧ t.resetIn = s.resetIn ∧ t.delayIn = s.delayIn ∧
    t.inFlight = s.inFlight ∧ t.delay = s.delay ∧ t.history = s.history ∧
    (t.configured ≠ s.configured → (∃ a b, i = .configure a b) ∨ i = .release) ∧
    ((t.pinsBound ≠ s.pinsBound ∨ t.sdaPin ≠ s.sdaPin ∨ t.sclPin ≠ s.sclPin) → ∃ a b, i = .configure a b) ∧
    (t.hp ≠ s.hp → ∃ v, i = .setClock v) ∧
    (t.bus ≠ s.bus → isBusCommand i = true) ∧
    (t.txAddr ≠ s.txAddr → ∃ addr, i = .openTx addr) ∧
    (t.txLen ≠ s.txLen → (∃ addr, i = .openTx addr) ∨ (∃ v, i = .queueByte v) ∨ ∃ n, i = .queueBytes n) ∧
    (t.txBuf ≠ s.txBuf → (∃ v, i = .queueByte v) ∨ ∃ n, i = .queueBytes n) ∧
    ((t.rxLen ≠ s.rxLen ∨ t.rxBuf ≠ s.rxBuf) → ∃ addr qty stop, i = .request addr qty stop) ∧
    (t.rxCursor ≠ s.rxCursor → i = .read ∨ ∃ addr qty stop, i = .request addr qty stop) ∧
    ((t.payloadIn ≠ s.payloadIn ∨ t.queue ≠ s.queue) → ∃ n, i = .queueBytes n)

/-- R170 and R18: the buffer commands produce no bus event, do not read `configured` and never fault. -/
def Obligations.BufferCommandsLeaveTheBusAlone : Prop :=
  ∀ (i : Instr) (s t : State) (c : Bool), isBusCommand i = false → exec i s = .next t →
    t.bus = s.bus ∧ t.fault = s.fault ∧ t.faultCode = s.faultCode ∧
    exec i { s with configured := c } = .next { t with configured := c }

/-- R202, R120, R170: each of the nine commands on a block that is not configured faults before any event. -/
def Obligations.BusCommandsFaultUnlessConfigured : Prop :=
  ∀ (i : Instr) (s : State), needsConfigured i = true → s.configured = false →
    exec i s = .next { s with fault := true, faultCode := .notConfigured, busy := false }

/-- R126: how long a slave stretches the clock changes no result, flag or stored element of any command: runs that
differ only in the answers to samples of SCL differ only in the trace and in those answers. -/
def Obligations.ClockStretchingChangesNoResult : Prop :=
  ∀ (i : Instr) (s t t' : State) (answers : List Level) (draws : Nat), exec i s = .next t →
    exec i { s with bus := { s.bus with sclAnswers := answers, sclDraws := draws } } = .next t' →
    t' = { t with bus := { t.bus with trace := t'.bus.trace, sclAnswers := t'.bus.sclAnswers,
                                      sclDraws := t'.bus.sclDraws } }

/-! ## Lifecycle commands (spec/40_lifecycle.md) -/

/-- R101. -/
def Obligations.ConfigureBindsThePinsAndReleasesTheLines : Prop :=
  (∀ sda scl, encode (.configure sda scl) = 0x01#8 ++ sda ++ scl ++ 0#40) ∧
  (∀ s pin, exec (.configure pin pin) s =
    .next { s with fault := true, faultCode := .pinConflict, busy := false }) ∧
  (∀ s sda scl, sda ≠ scl → exec (.configure sda scl) s =
    .next { s with
      sdaPin := sda, sclPin := scl, pinsBound := true, configured := true
      bus := { s.bus with
        sdaMode := .inputPullup, sclMode := .inputPullup
        trace := s.bus.trace ++ [.mode .sda .inputPullup, .mode .scl .inputPullup, .wait s.hp.toNat] }
      results := s.results ++ [0#32], busy := false })

/-- R102. -/
def Obligations.ReleaseRelinquishesTheBus : Prop :=
  encode .release = 0x0200000000000000#64 ∧
  (∀ s, s.pinsBound = true → exec .release s =
    .next { s with
      configured := false
      bus := { s.bus with
        sdaMode := .input, sclMode := .input
        trace := s.bus.trace ++ [.mode .sda .input, .mode .scl .input] }
      results := s.results ++ [0#32], busy := false }) ∧
  (∀ s, s.pinsBound = false → exec .release s =
    .next { s with configured := false, results := s.results ++ [0#32], busy := false })

/-- R103. -/
def Obligations.SetClockDerivesTheHalfPeriod : Prop :=
  (∀ v, encode (.setClock v) = 0x03#8 ++ 0#24 ++ v) ∧
  (∀ s v, v.toInt ≤ 0 → exec (.setClock v) s = .next { s with results := s.results ++ [0#32], busy := false }) ∧
  (∀ s v, 0 < v.toInt → ∃ h : BitVec 32, h.toNat = max 1 (500000 / v.toInt.toNat) ∧
    exec (.setClock v) s = .next { s with hp := h, results := s.results ++ [0#32], busy := false }) ∧
  (∀ s u v t t', 0 < u.toInt → u.toInt ≤ v.toInt → exec (.setClock u) s = .next t →
    exec (.setClock v) s = .next t' → 1 ≤ t'.hp.toNat ∧ t'.hp.toNat ≤ t.hp.toNat ∧ t.hp.toNat ≤ 500000)

/-! ## Line control, start and stop, bits (spec/41_bit_level.md) -/

/-- R121, R122, R125, R127: each line-control procedure sets its mode and appends its one event, even when the pin is
already in that mode. -/
def Obligations.LineControlAppendsOneEvent : Prop :=
  ∀ b : Bus,
    releaseSda b = { b with sdaMode := .inputPullup, trace := b.trace ++ [.mode .sda .inputPullup] } ∧
    driveSdaLow b = { b with sdaMode := .outputLow, trace := b.trace ++ [.mode .sda .outputLow] } ∧
    driveSclLow b = { b with sclMode := .outputLow, trace := b.trace ++ [.mode .scl .outputLow] }

/-- R124: the poll against an SCL that answers `j` lows and then a high (j <= limit), and against one that stays low
for limit + 1 samples. -/
def Obligations.StretchPollTakesTheAnswersItNeeds : Prop :=
  ∀ (limit : Nat) (b : Bus) (rest : List Level),
    (∀ j, j ≤ limit → b.sclAnswers = List.replicate j false ++ true :: rest →
      stretchWait limit b = { b with
        sclAnswers := rest
        trace := b.trace ++ (List.replicate j [Event.sample .scl false, Event.wait 1]).flatten ++
          [Event.sample .scl true] }) ∧
    (b.sclAnswers = List.replicate (limit + 1) false ++ rest →
      stretchWait limit b = { b with
        sclAnswers := rest
        trace := b.trace ++ (List.replicate limit [Event.sample .scl false, Event.wait 1]).flatten ++
          [Event.sample .scl false] })

/-- R138: one release of SCL appends 3 to 2*STRETCH_POLL_LIMIT + 3 events whatever the bus answers, and each procedure a
bounded number; with no stretching a start appends 8 events, a stop 8, a bit sent 6 and a bit received 7 (and a byte
sent 55 and a byte received 62, R150 and R152). -/
def Obligations.ProceduresAppendBoundedEvents : Prop :=
  ∀ (t : Timing) (b : Bus),
    (b.AppendsTo (releaseScl t b) 3 (2 * t.pollLimit + 3) ∧ b.AppendsTo (genStart t b) 8 (2 * t.pollLimit + 8) ∧
      b.AppendsTo (genStop t b) 8 (2 * t.pollLimit + 8) ∧
      (∀ bit, b.AppendsTo (txBit t bit b) 6 (2 * t.pollLimit + 6)) ∧
      b.AppendsTo (rxBit t b).2 7 (2 * t.pollLimit + 7)) ∧
    (b.sclAnswers.head? = some true →
      b.AppendsTo (releaseScl t b) 3 3 ∧ b.AppendsTo (genStart t b) 8 8 ∧ b.AppendsTo (genStop t b) 8 8 ∧
      (∀ bit, b.AppendsTo (txBit t bit b) 6 6) ∧ b.AppendsTo (rxBit t b).2 7 7) ∧
    (b.sclAnswers.take 9 = List.replicate 9 true →
      (∀ v, b.AppendsTo (txByte t v b).2 55 55) ∧ ∀ ack, b.AppendsTo (rxByte t ack b).2 62 62)

/-- R131 (and R130's trace and end state). -/
def Obligations.StartEmitsAStartCondition : Prop :=
  encode .start = 0x1000000000000000#64 ∧
  (∀ s, s.configured = false →
    exec .start s = .next { s with fault := true, faultCode := .notConfigured, busy := false }) ∧
  (∀ s, s.configured = true → ∃ b evs,
    exec .start s = .next { s with bus := b, results := s.results ++ [0#32], busy := false } ∧
    IsStart s.timing evs ∧ s.bus.Emits b evs ∧ b.sdaMode = .outputLow ∧ b.sclMode = .outputLow)

/-- R133 (and R132's trace and end state). -/
def Obligations.StopEmitsAStopCondition : Prop :=
  encode .stop = 0x1100000000000000#64 ∧
  (∀ s, s.configured = false →
    exec .stop s = .next { s with fault := true, faultCode := .notConfigured, busy := false }) ∧
  (∀ s, s.configured = true → ∃ b evs,
    exec .stop s = .next { s with bus := b, results := s.results ++ [0#32], busy := false } ∧
    IsStop s.timing evs ∧ s.bus.Emits b evs ∧ b.sdaMode = .inputPullup ∧ b.sclMode = .inputPullup)

/-- R135 (and R134's trace): the result is 0 whatever the bus does. -/
def Obligations.WriteBitSendsOneBit : Prop :=
  (∀ bit, encode (.writeBit bit) = 0x12#8 ++ 0#23 ++ BitVec.ofBool bit ++ 0#32) ∧
  (∀ s bit, s.configured = false →
    exec (.writeBit bit) s = .next { s with fault := true, faultCode := .notConfigured, busy := false }) ∧
  (∀ s bit, s.configured = true → ∃ b evs,
    exec (.writeBit bit) s = .next { s with bus := b, results := s.results ++ [0#32], busy := false } ∧
    IsBitOut s.timing bit evs ∧ s.bus.Emits b evs ∧
    b.sdaMode = (if bit then .inputPullup else .outputLow) ∧ b.sclMode = .outputLow)

/-- R137 (and R136's trace): the result is the one SDA sample. -/
def Obligations.ReadBitReturnsTheSample : Prop :=
  encode .readBit = 0x1300000000000000#64 ∧
  (∀ s, s.configured = false →
    exec .readBit s = .next { s with fault := true, faultCode := .notConfigured, busy := false }) ∧
  (∀ s, s.configured = true → ∃ b evs lvl,
    exec .readBit s =
      .next { s with bus := b, results := s.results ++ [if lvl then 1#32 else 0#32], busy := false } ∧
    IsBitIn s.timing lvl evs ∧ s.bus.Emits b evs ∧ b.sdaMode = .inputPullup ∧ b.sclMode = .outputLow)

/-! ## Bytes (spec/42_byte_level.md) -/

/-- R151 (and R150's trace): the byte, most significant bit first, then the acknowledge, which is the result. -/
def Obligations.WriteByteSendsTheByteAndReturnsTheAcknowledge : Prop :=
  (∀ v, encode (.writeByte v) = 0x14#8 ++ v ++ 0#48) ∧
  (∀ s v, s.configured = false →
    exec (.writeByte v) s = .next { s with fault := true, faultCode := .notConfigured, busy := false }) ∧
  (∀ s v, s.configured = true → ∃ b evs ack,
    exec (.writeByte v) s =
      .next { s with bus := b, results := s.results ++ [if ack then 1#32 else 0#32], busy := false } ∧
    IsByteOut s.timing v ack evs ∧ s.bus.Emits b evs ∧ b.sdaMode = .inputPullup ∧ b.sclMode = .outputLow)

/-- R153 (and R152's trace): the result is the byte whose bits were sampled; the ninth bit is the negated flag. -/
def Obligations.ReadByteReturnsTheBitsSampled : Prop :=
  (∀ ack, encode (.readByte ack) = 0x15#8 ++ 0#23 ++ BitVec.ofBool ack ++ 0#32) ∧
  (∀ s ack, s.configured = false →
    exec (.readByte ack) s = .next { s with fault := true, faultCode := .notConfigured, busy := false }) ∧
  (∀ s ack, s.configured = true → ∃ b evs r,
    exec (.readByte ack) s =
      .next { s with bus := b, results := s.results ++ [r.zeroExtend 32], busy := false } ∧
    IsByteIn s.timing r ack evs ∧ s.bus.Emits b evs ∧
    b.sdaMode = (if ack then .outputLow else .inputPullup) ∧ b.sclMode = .outputLow)

/-- R154: `WRITE_BYTE v` sends the bits of v, and a READ_BYTE whose eight SDA samples are answered with those bits in
that order returns v. -/
def Obligations.LoopbackReturnsTheByteSent : Prop :=
  ∀ (s : State) (v : Byte) (ack : Bool) (bits rest : List Level), s.configured = true →
    bits = [v.getLsbD 7, v.getLsbD 6, v.getLsbD 5, v.getLsbD 4, v.getLsbD 3, v.getLsbD 2, v.getLsbD 1,
            v.getLsbD 0] →
    ∃ t evs₁ evs₂, exec (.writeByte v) s = .next t ∧ IsBitsOut s.timing bits evs₁ ∧
      t.bus.trace = s.bus.trace ++ evs₁ ++ evs₂ ∧
      (t.bus.sdaAnswers = bits ++ rest →
        ∃ u, exec (.readByte ack) t = .next u ∧ u.results = t.results ++ [v.zeroExtend 32])

/-! ## Transactions (spec/43_transaction.md) -/

/-- R174. -/
def Obligations.AddressByteIsTheAddressAndTheDirection : Prop :=
  (∀ (a : Addr) (rw : Bool), (addrByte a rw).toNat = 2 * a.toNat + rw.toNat) ∧
  addrByte 0x50#7 false = 0xA0#8 ∧ addrByte 0x50#7 true = 0xA1#8

/-- R171. -/
def Obligations.OpenTxRecordsTheAddressAndEmptiesTheBuffer : Prop :=
  (∀ addr : Addr, encode (.openTx addr) = 0x20#8 ++ 0#1 ++ addr ++ 0#48) ∧
  (∀ s addr, exec (.openTx addr) s =
    .next { s with txAddr := addr, txLen := 0, results := s.results ++ [0#32], busy := false })

/-- R172: read after write, and every other entry as before. (The canonical form is an invariant of the model.) -/
def Obligations.QueueByteAppendsIfThereIsRoom : Prop :=
  (∀ v, encode (.queueByte v) = 0x21#8 ++ v ++ 0#48) ∧
  (∀ s v, s.txLen < s.params.txCapacity → s.txBuf.wf = true → ∃ buf,
    exec (.queueByte v) s =
      .next { s with txBuf := buf, txLen := s.txLen + 1, results := s.results ++ [1#32], busy := false } ∧
    buf.read s.txLen = v ∧ ∀ j, j ≠ s.txLen → buf.read j = s.txBuf.read j) ∧
  (∀ s v, s.params.txCapacity ≤ s.txLen →
    exec (.queueByte v) s = .next { s with results := s.results ++ [0#32], busy := false })

/-- R173: with its payload offered, the first min(n, room) bytes are accepted in order and all n are taken. (The
canonical form is an invariant of the model.) -/
def Obligations.QueueBytesAppendsWhatFits : Prop :=
  (∀ n, encode (.queueBytes n) = 0x22#8 ++ 0#24 ++ n) ∧
  (∀ s n, n.toNat ≤ s.payloadIn.length → s.txBuf.wf = true → ∃ buf acc,
    acc = min n.toNat (s.params.txCapacity - s.txLen) ∧
    exec (.queueBytes n) s =
      .next { s with txBuf := buf, txLen := s.txLen + acc, payloadIn := s.payloadIn.drop n.toNat, queue := none,
                     results := s.results ++ [BitVec.ofNat 32 acc], busy := false } ∧
    (∀ j, j < acc → some (buf.read (s.txLen + j)) = s.payloadIn[j]?) ∧
    (∀ j, j < s.txLen ∨ s.txLen + acc ≤ j → buf.read j = s.txBuf.read j))

/-- R49, R215: a QUEUE_BYTES that lacks payload waits, busy and without a result, and once the rest is offered it has
done just what it does with the whole payload offered at once. How a step takes part of a payload is the model's
(notes/assumptions/4.md). -/
def Obligations.WaitingQueueBytesResumesAsIfNeverInterrupted : Prop :=
  ∀ (s t : State) (n : Word) (p q : List Byte), s.fault = false → s.inFlight = none → p.length < n.toNat →
    exec (.queueBytes n) { s with payloadIn := p } = .next t →
    t.busy = true ∧ t.results = s.results ∧ t.queue.isSome = true ∧
    step { t with payloadIn := q, resetIn := [] } =
      exec (.queueBytes n) { s with payloadIn := p ++ q, resetIn := [] }

/-- R175 with the numerals of R176: start, address byte, the queued bytes up to the first not acknowledged, and the
stop if asked for; the buffer stays. -/
def Obligations.CloseTxSendsTheQueuedBytes : Prop :=
  (∀ sendStop, encode (.closeTx sendStop) = 0x23#8 ++ 0#23 ++ BitVec.ofBool sendStop ++ 0#32) ∧
  (∀ s sendStop, s.configured = false →
    exec (.closeTx sendStop) s = .next { s with fault := true, faultCode := .notConfigured, busy := false }) ∧
  (∀ s sendStop, s.configured = true → s.txLen ≤ s.params.txCapacity → ∃ b evs st r,
    exec (.closeTx sendStop) s = .next { s with bus := b, results := s.results ++ [r], busy := false } ∧
    ((st = .success ∧ r = 0#32) ∨ (st = .nackAddress ∧ r = 2#32) ∨ (st = .nackData ∧ r = 3#32)) ∧
    IsCloseTx s.timing s.txAddr s.queued sendStop st evs ∧ s.bus.Emits b evs ∧ b.sdaMode = .inputPullup ∧
    b.sclMode = (if sendStop then .inputPullup else .outputLow))

/-- R177: the clamped quantity is received into the buffer, or on an address NACK the buffer is left empty. (The
canonical form is an invariant of the model.) -/
def Obligations.RequestFillsTheReceiveBuffer : Prop :=
  (∀ (addr : Addr) qty sendStop, encode (.request addr qty sendStop) =
    0x24#8 ++ 0#1 ++ addr ++ 0#15 ++ BitVec.ofBool sendStop ++ qty) ∧
  (∀ s addr qty sendStop, s.configured = false →
    exec (.request addr qty sendStop) s =
      .next { s with fault := true, faultCode := .notConfigured, busy := false }) ∧
  (∀ s addr qty sendStop, s.configured = true → s.rxBuf.wf = true → ∃ b evs q,
    q = min qty.toNat s.params.rxCapacity ∧
    ((exec (.request addr qty sendStop) s =
        .next { s with rxLen := 0, rxCursor := 0, bus := b, results := s.results ++ [0#32], busy := false } ∧
      IsRequestNack s.timing addr sendStop evs) ∨
    (∃ bytes buf, bytes.length = q ∧
      exec (.request addr qty sendStop) s =
        .next { s with rxLen := q, rxCursor := 0, rxBuf := buf, bus := b,
                       results := s.results ++ [BitVec.ofNat 32 q], busy := false } ∧
      IsRequest s.timing addr bytes sendStop evs ∧
      (∀ j, j < q → some (buf.read j) = bytes[j]?) ∧ ∀ j, q ≤ j → buf.read j = s.rxBuf.read j)) ∧
    s.bus.Emits b evs ∧ b.sdaMode = .inputPullup ∧
    b.sclMode = (if sendStop then .inputPullup else .outputLow))

/-- R178. (rx_len <= RX_CAPACITY is R35's invariant.) -/
def Obligations.ReadReturnsTheNextByteAndAdvances : Prop :=
  encode .read = 0x2500000000000000#64 ∧
  (∀ s, s.rxCursor < s.rxLen → s.rxLen ≤ s.params.rxCapacity → exec .read s =
    .next { s with rxCursor := s.rxCursor + 1, busy := false
                   results := s.results ++ [(s.rxBuf.read s.rxCursor).zeroExtend 32] }) ∧
  (∀ s, s.rxLen ≤ s.rxCursor → exec .read s =
    .next { s with results := s.results ++ [0xFFFFFFFF#32], busy := false })

/-- R179. (rx_len <= RX_CAPACITY is R35's invariant.) -/
def Obligations.PeekReturnsTheNextByteAndStays : Prop :=
  encode .peek = 0x2600000000000000#64 ∧
  (∀ s, s.rxCursor < s.rxLen → s.rxLen ≤ s.params.rxCapacity → exec .peek s =
    .next { s with results := s.results ++ [(s.rxBuf.read s.rxCursor).zeroExtend 32], busy := false }) ∧
  (∀ s, s.rxLen ≤ s.rxCursor → exec .peek s =
    .next { s with results := s.results ++ [0xFFFFFFFF#32], busy := false })

/-- R180: a count, 0 when exhausted, one less after each READ that returns a byte. -/
def Obligations.AvailableCountsTheUnreadBytes : Prop :=
  encode .available = 0x2700000000000000#64 ∧
  (∀ s, s.rxCursor ≤ s.rxLen → exec .available s =
    .next { s with results := s.results ++ [BitVec.ofNat 32 (s.rxLen - s.rxCursor)], busy := false }) ∧
  (∀ s t, s.rxCursor < s.rxLen → exec .read s = .next t → t.rxLen - t.rxCursor + 1 = s.rxLen - s.rxCursor)

/-- R181: the stop is sent whatever the acknowledge, which is the result. -/
def Obligations.ProbeReportsTheAcknowledge : Prop :=
  (∀ addr : Addr, encode (.probe addr) = 0x28#8 ++ 0#1 ++ addr ++ 0#48) ∧
  (∀ s addr, s.configured = false →
    exec (.probe addr) s = .next { s with fault := true, faultCode := .notConfigured, busy := false }) ∧
  (∀ s addr, s.configured = true → ∃ b evs ack,
    exec (.probe addr) s =
      .next { s with bus := b, results := s.results ++ [if ack then 1#32 else 0#32], busy := false } ∧
    IsProbe s.timing addr ack evs ∧ s.bus.Emits b evs ∧ b.sdaMode = .inputPullup ∧ b.sclMode = .inputPullup)

/-! ## Bounds, and whole transactions -/

/-- 70_reset_and_hazards.md section 4 (the bounds of R243): how often a transaction command releases SCL. -/
def Obligations.TransactionsReleaseSclABoundedNumberOfTimes : Prop :=
  ∀ s : State, s.configured = true →
    (∀ sendStop, s.txLen ≤ s.params.txCapacity → ∃ t evs, exec (.closeTx sendStop) s = .next t ∧
      t.bus.trace = s.bus.trace ++ evs ∧ sclReleases evs ≤ 2 + 9 * (s.params.txCapacity + 1)) ∧
    (∀ addr qty sendStop, ∃ t evs, exec (.request addr qty sendStop) s = .next t ∧
      t.bus.trace = s.bus.trace ++ evs ∧ sclReleases evs ≤ 2 + 9 * (s.params.rxCapacity + 1)) ∧
    (∀ addr, ∃ t evs, exec (.probe addr) s = .next t ∧
      t.bus.trace = s.bus.trace ++ evs ∧ sclReleases evs = 11)

/-- 70_reset_and_hazards.md section 4 (the table of R241 and the sentence after it): the least wait of each command in
half-periods, which stretching only adds to; RELEASE and the commands that are no bus commands wait nothing. CLOSE_TX and
REQUEST without a stop wait the 4 half-periods of the stop less. -/
def Obligations.CommandsWaitAtLeastTheirHalfPeriods : Prop :=
  ∀ (s t : State) (evs : List Event), t.bus.trace = s.bus.trace ++ evs →
    (∀ sda scl, sda ≠ scl → exec (.configure sda scl) s = .next t → s.hp.toNat ≤ waitTotal evs) ∧
    (∀ i, i = .release ∨ isBusCommand i = false → exec i s = .next t → waitTotal evs = 0) ∧
    (s.configured = true →
      (exec .start s = .next t → 3 * s.hp.toNat ≤ waitTotal evs) ∧
      (exec .stop s = .next t → 4 * s.hp.toNat ≤ waitTotal evs) ∧
      (∀ bit, exec (.writeBit bit) s = .next t → 2 * s.hp.toNat ≤ waitTotal evs) ∧
      (exec .readBit s = .next t → 2 * s.hp.toNat ≤ waitTotal evs) ∧
      (∀ v, exec (.writeByte v) s = .next t → 18 * s.hp.toNat ≤ waitTotal evs) ∧
      (∀ ack, exec (.readByte ack) s = .next t → 18 * s.hp.toNat ≤ waitTotal evs) ∧
      (∀ addr, exec (.probe addr) s = .next t → 25 * s.hp.toNat ≤ waitTotal evs) ∧
      (∀ sendStop, exec (.closeTx sendStop) s = .next t → t.results = s.results ++ [0#32] →
        s.txLen ≤ s.params.txCapacity →
        ((if sendStop then 25 else 21) + 18 * s.txLen) * s.hp.toNat ≤ waitTotal evs) ∧
      (∀ addr qty sendStop, exec (.request addr qty sendStop) s = .next t →
        ((if sendStop then 25 else 21) + 18 * t.rxLen) * s.hp.toNat ≤ waitTotal evs))

/-- R62, R171, R173, R175 together: opening, queueing and closing a transmission sends the address and then the
bytes the host supplied, in their order, up to the capacity. -/
def Obligations.TransmissionSendsTheHostsBytesInOrder : Prop :=
  ∀ (s : State) (addr : Addr) (n : Word) (sendStop : Bool),
    s.configured = true → s.txBuf.wf = true → s.payloadIn.length = n.toNat →
    ∃ s₁ s₂ s₃ evs st, exec (.openTx addr) s = .next s₁ ∧ exec (.queueBytes n) s₁ = .next s₂ ∧
      exec (.closeTx sendStop) s₂ = .next s₃ ∧
      IsCloseTx s.timing addr (s.payloadIn.take s.params.txCapacity) sendStop st evs ∧
      s₃.bus.trace = s.bus.trace ++ evs ∧
      s₃.results = s.results ++ [0#32, BitVec.ofNat 32 (min n.toNat s.params.txCapacity), statusResult st]

/-- R62, R177, R178 together: the bytes a REQUEST takes off the bus are the results of the READs that follow, in the
order received; then the buffer is exhausted. -/
def Obligations.ReadsAfterARequestGiveTheBytesReceived : Prop :=
  ∀ (s t : State) (addr : Addr) (qty : Word) (sendStop : Bool),
    s.configured = true → s.rxBuf.wf = true → exec (.request addr qty sendStop) s = .next t → t.rxLen ≠ 0 →
    ∃ bytes evs u, IsRequest s.timing addr bytes sendStop evs ∧ t.bus.trace = s.bus.trace ++ evs ∧
      bytes.length = t.rxLen ∧ readTimes t.rxLen t = .next u ∧
      u.results = t.results ++ bytes.map (fun b => b.zeroExtend 32) ∧ u.rxCursor = u.rxLen

/-! ## The delay port, and a reset inside a command -/

/-- R230, R231: a reset while a command is in progress abandons it: no result, of its events those before the reset and no
more, and every element at its reset value. The reset may come in the step in which a command begins, before any of its
events or before its end (`before` and `after` may be empty); in the same way once a command has gone on after a delay;
and at the start of a step of a block in a command, while a delay or payload keeps it waiting. When the reset signal is
sampled, and that what the host still offers stays (`cmdIn`, `resetIn`), is the model's (notes/assumptions/5.md), and so
is that the results and the ended trace are kept as an observation (notes/assumptions/9.md, notes/assumptions/18.md). -/
def Obligations.ResetAbandonsTheCommandInProgress : Prop :=
  (∀ (s t : State) (w : CmdWord) (rest : List CmdWord) (i : Instr) (before after : List Event) (rs : List Bool),
    s.busy = false → s.fault = false → s.cmdIn = w :: rest → decode w = .command i →
    exec i { s with cmdIn := rest, busy := true } = .next t →
    t.bus.trace = s.bus.trace ++ (before ++ after) →
    (∀ b ∈ s.delayIn.take (delaysOf before), b = true) →
    s.resetIn = false :: (List.replicate before.length false ++ true :: rs) →
    ∃ u, step s = .next u ∧ s.AbandonedAfter before u ∧ u.cmdIn = rest ∧ u.resetIn = rs) ∧
  (∀ (s t : State) (c : InFlight) (before after : List Event) (rs : List Bool),
    s.busy = true → s.fault = false → s.inFlight = some c → exec c.instr s.boundary = .next t →
    t.bus.trace = s.bus.trace ++ (before ++ after) →
    (∀ b ∈ s.delayIn.take (1 + delaysOf before), b = true) →
    s.resetIn = false :: (List.replicate before.length false ++ true :: rs) →
    ∃ u, step s = .next u ∧ s.AbandonedAfter before u ∧ u.cmdIn = s.cmdIn ∧ u.resetIn = rs) ∧
  (∀ s : State, s.busy = true → s.resetIn.headD false = true →
    ∃ u, step s = .next u ∧ s.AbandonedAfter [] u ∧ u.cmdIn = s.cmdIn ∧ u.resetIn = s.resetIn.tail)

/-- R47: at a `Delay(n)` that is not done, the block has raised `delay_req` with `delay_us = n`, and waits: the events up
to `Wait(n)` are performed and none after it, and there is no result. While the delay is not done nothing changes. (A
delay is one of at least n microseconds whose end the delay capability says, notes/assumptions/11.md.) -/
def Obligations.DelayPortHoldsTheCommandUntilDone : Prop :=
  (∀ (s t : State) (w : CmdWord) (rest : List CmdWord) (i : Instr) (before : List Event) (n : Nat)
      (after : List Event) (ds : List Bool),
    s.busy = false → s.fault = false → s.cmdIn = w :: rest → decode w = .command i → s.noReset →
    exec i { s with cmdIn := rest, busy := true } = .next t →
    t.bus.trace = s.bus.trace ++ (before ++ .wait n :: after) →
    s.delayIn = List.replicate (delaysOf before) true ++ false :: ds →
    ∃ u us, step s = .next u ∧ u.delayReq = true ∧ u.delayUs = some us ∧ us.toNat = n ∧
      u.bus.trace = s.bus.trace ++ (before ++ [.wait n]) ∧ u.busy = true ∧ u.fault = false ∧
      u.results = s.results ∧ u.cmdIn = rest ∧ u.delayIn = ds) ∧
  (∀ (s : State) (ds : List Bool), s.busy = true → s.fault = false → s.inFlight.isSome = true →
    s.resetIn.headD false = false → s.delayIn = false :: ds →
    step s = .next { s with delayIn := ds, resetIn := s.resetIn.tail })

/-- R14, R21, R47: however often its delays keep a command waiting, without a reset it ends, after finitely many steps,
just as if they had not. -/
def Obligations.DelayedCommandEndsAsIfNeverDelayed : Prop :=
  ∀ (s : State) (w : CmdWord) (rest : List CmdWord) (i : Instr), s.Wf → s.noReset → s.busy = false →
    s.fault = false → s.cmdIn = w :: rest → decode w = .command i →
    ∃ n m k, stepTimes n s = exec i { s with
      resetIn := s.resetIn.drop m, delayIn := s.delayIn.drop k, cmdIn := rest, busy := true }
end

