-- ==== Sys2Proof/Laws/State.lean ====
section
/-! SUPPORT. One lemma per field of each named update of the state or of its bus side, so that no later proof unfolds a
record update. -/

namespace Sys2Proof.Machine

section State

variable (s : State)

/-! ### ret -/

@[simp] theorem State.ret_params (v : Word) : (s.ret v).params = s.params := rfl
@[simp] theorem State.ret_configured (v : Word) : (s.ret v).configured = s.configured := rfl
@[simp] theorem State.ret_pinsBound (v : Word) : (s.ret v).pinsBound = s.pinsBound := rfl
@[simp] theorem State.ret_sdaPin (v : Word) : (s.ret v).sdaPin = s.sdaPin := rfl
@[simp] theorem State.ret_sclPin (v : Word) : (s.ret v).sclPin = s.sclPin := rfl
@[simp] theorem State.ret_hp (v : Word) : (s.ret v).hp = s.hp := rfl
@[simp] theorem State.ret_bus (v : Word) : (s.ret v).bus = s.bus := rfl
@[simp] theorem State.ret_txAddr (v : Word) : (s.ret v).txAddr = s.txAddr := rfl
@[simp] theorem State.ret_txLen (v : Word) : (s.ret v).txLen = s.txLen := rfl
@[simp] theorem State.ret_txBuf (v : Word) : (s.ret v).txBuf = s.txBuf := rfl
@[simp] theorem State.ret_rxLen (v : Word) : (s.ret v).rxLen = s.rxLen := rfl
@[simp] theorem State.ret_rxCursor (v : Word) : (s.ret v).rxCursor = s.rxCursor := rfl
@[simp] theorem State.ret_rxBuf (v : Word) : (s.ret v).rxBuf = s.rxBuf := rfl
@[simp] theorem State.ret_fault (v : Word) : (s.ret v).fault = s.fault := rfl
@[simp] theorem State.ret_faultCode (v : Word) : (s.ret v).faultCode = s.faultCode := rfl
@[simp] theorem State.ret_busy (v : Word) : (s.ret v).busy = false := rfl
@[simp] theorem State.ret_queue (v : Word) : (s.ret v).queue = s.queue := rfl
@[simp] theorem State.ret_results (v : Word) : (s.ret v).results = s.results ++ [v] := rfl
@[simp] theorem State.ret_cmdIn (v : Word) : (s.ret v).cmdIn = s.cmdIn := rfl
@[simp] theorem State.ret_payloadIn (v : Word) : (s.ret v).payloadIn = s.payloadIn := rfl
@[simp] theorem State.ret_resetIn (v : Word) : (s.ret v).resetIn = s.resetIn := rfl
@[simp] theorem State.ret_inFlight (v : Word) : (s.ret v).inFlight = s.inFlight := rfl
@[simp] theorem State.ret_delay (v : Word) : (s.ret v).delay = s.delay := rfl
@[simp] theorem State.ret_history (v : Word) : (s.ret v).history = s.history := rfl
@[simp] theorem State.ret_delayIn (v : Word) : (s.ret v).delayIn = s.delayIn := rfl

/-! ### raise -/

@[simp] theorem State.raise_params (c : FaultCode) : (s.raise c).params = s.params := rfl
@[simp] theorem State.raise_configured (c : FaultCode) : (s.raise c).configured = s.configured := rfl
@[simp] theorem State.raise_pinsBound (c : FaultCode) : (s.raise c).pinsBound = s.pinsBound := rfl
@[simp] theorem State.raise_sdaPin (c : FaultCode) : (s.raise c).sdaPin = s.sdaPin := rfl
@[simp] theorem State.raise_sclPin (c : FaultCode) : (s.raise c).sclPin = s.sclPin := rfl
@[simp] theorem State.raise_hp (c : FaultCode) : (s.raise c).hp = s.hp := rfl
@[simp] theorem State.raise_bus (c : FaultCode) : (s.raise c).bus = s.bus := rfl
@[simp] theorem State.raise_txAddr (c : FaultCode) : (s.raise c).txAddr = s.txAddr := rfl
@[simp] theorem State.raise_txLen (c : FaultCode) : (s.raise c).txLen = s.txLen := rfl
@[simp] theorem State.raise_txBuf (c : FaultCode) : (s.raise c).txBuf = s.txBuf := rfl
@[simp] theorem State.raise_rxLen (c : FaultCode) : (s.raise c).rxLen = s.rxLen := rfl
@[simp] theorem State.raise_rxCursor (c : FaultCode) : (s.raise c).rxCursor = s.rxCursor := rfl
@[simp] theorem State.raise_rxBuf (c : FaultCode) : (s.raise c).rxBuf = s.rxBuf := rfl
@[simp] theorem State.raise_fault (c : FaultCode) : (s.raise c).fault = true := rfl
@[simp] theorem State.raise_faultCode (c : FaultCode) : (s.raise c).faultCode = c := rfl
@[simp] theorem State.raise_busy (c : FaultCode) : (s.raise c).busy = false := rfl
@[simp] theorem State.raise_queue (c : FaultCode) : (s.raise c).queue = s.queue := rfl
@[simp] theorem State.raise_results (c : FaultCode) : (s.raise c).results = s.results := rfl
@[simp] theorem State.raise_cmdIn (c : FaultCode) : (s.raise c).cmdIn = s.cmdIn := rfl
@[simp] theorem State.raise_payloadIn (c : FaultCode) : (s.raise c).payloadIn = s.payloadIn := rfl
@[simp] theorem State.raise_resetIn (c : FaultCode) : (s.raise c).resetIn = s.resetIn := rfl
@[simp] theorem State.raise_inFlight (c : FaultCode) : (s.raise c).inFlight = s.inFlight := rfl
@[simp] theorem State.raise_delay (c : FaultCode) : (s.raise c).delay = s.delay := rfl
@[simp] theorem State.raise_history (c : FaultCode) : (s.raise c).history = s.history := rfl
@[simp] theorem State.raise_delayIn (c : FaultCode) : (s.raise c).delayIn = s.delayIn := rfl

/-! ### withBus -/

@[simp] theorem State.withBus_params (b : Bus) : (s.withBus b).params = s.params := rfl
@[simp] theorem State.withBus_configured (b : Bus) : (s.withBus b).configured = s.configured := rfl
@[simp] theorem State.withBus_pinsBound (b : Bus) : (s.withBus b).pinsBound = s.pinsBound := rfl
@[simp] theorem State.withBus_sdaPin (b : Bus) : (s.withBus b).sdaPin = s.sdaPin := rfl
@[simp] theorem State.withBus_sclPin (b : Bus) : (s.withBus b).sclPin = s.sclPin := rfl
@[simp] theorem State.withBus_hp (b : Bus) : (s.withBus b).hp = s.hp := rfl
@[simp] theorem State.withBus_bus (b : Bus) : (s.withBus b).bus = b := rfl
@[simp] theorem State.withBus_txAddr (b : Bus) : (s.withBus b).txAddr = s.txAddr := rfl
@[simp] theorem State.withBus_txLen (b : Bus) : (s.withBus b).txLen = s.txLen := rfl
@[simp] theorem State.withBus_txBuf (b : Bus) : (s.withBus b).txBuf = s.txBuf := rfl
@[simp] theorem State.withBus_rxLen (b : Bus) : (s.withBus b).rxLen = s.rxLen := rfl
@[simp] theorem State.withBus_rxCursor (b : Bus) : (s.withBus b).rxCursor = s.rxCursor := rfl
@[simp] theorem State.withBus_rxBuf (b : Bus) : (s.withBus b).rxBuf = s.rxBuf := rfl
@[simp] theorem State.withBus_fault (b : Bus) : (s.withBus b).fault = s.fault := rfl
@[simp] theorem State.withBus_faultCode (b : Bus) : (s.withBus b).faultCode = s.faultCode := rfl
@[simp] theorem State.withBus_busy (b : Bus) : (s.withBus b).busy = s.busy := rfl
@[simp] theorem State.withBus_queue (b : Bus) : (s.withBus b).queue = s.queue := rfl
@[simp] theorem State.withBus_results (b : Bus) : (s.withBus b).results = s.results := rfl
@[simp] theorem State.withBus_cmdIn (b : Bus) : (s.withBus b).cmdIn = s.cmdIn := rfl
@[simp] theorem State.withBus_payloadIn (b : Bus) : (s.withBus b).payloadIn = s.payloadIn := rfl
@[simp] theorem State.withBus_resetIn (b : Bus) : (s.withBus b).resetIn = s.resetIn := rfl
@[simp] theorem State.withBus_inFlight (b : Bus) : (s.withBus b).inFlight = s.inFlight := rfl
@[simp] theorem State.withBus_delay (b : Bus) : (s.withBus b).delay = s.delay := rfl
@[simp] theorem State.withBus_history (b : Bus) : (s.withBus b).history = s.history := rfl
@[simp] theorem State.withBus_delayIn (b : Bus) : (s.withBus b).delayIn = s.delayIn := rfl

/-! ### accept -/

@[simp] theorem State.accept_params (ws : List CmdWord) : (s.accept ws).params = s.params := rfl
@[simp] theorem State.accept_configured (ws : List CmdWord) : (s.accept ws).configured = s.configured := rfl
@[simp] theorem State.accept_pinsBound (ws : List CmdWord) : (s.accept ws).pinsBound = s.pinsBound := rfl
@[simp] theorem State.accept_sdaPin (ws : List CmdWord) : (s.accept ws).sdaPin = s.sdaPin := rfl
@[simp] theorem State.accept_sclPin (ws : List CmdWord) : (s.accept ws).sclPin = s.sclPin := rfl
@[simp] theorem State.accept_hp (ws : List CmdWord) : (s.accept ws).hp = s.hp := rfl
@[simp] theorem State.accept_bus (ws : List CmdWord) : (s.accept ws).bus = s.bus := rfl
@[simp] theorem State.accept_txAddr (ws : List CmdWord) : (s.accept ws).txAddr = s.txAddr := rfl
@[simp] theorem State.accept_txLen (ws : List CmdWord) : (s.accept ws).txLen = s.txLen := rfl
@[simp] theorem State.accept_txBuf (ws : List CmdWord) : (s.accept ws).txBuf = s.txBuf := rfl
@[simp] theorem State.accept_rxLen (ws : List CmdWord) : (s.accept ws).rxLen = s.rxLen := rfl
@[simp] theorem State.accept_rxCursor (ws : List CmdWord) : (s.accept ws).rxCursor = s.rxCursor := rfl
@[simp] theorem State.accept_rxBuf (ws : List CmdWord) : (s.accept ws).rxBuf = s.rxBuf := rfl
@[simp] theorem State.accept_fault (ws : List CmdWord) : (s.accept ws).fault = s.fault := rfl
@[simp] theorem State.accept_faultCode (ws : List CmdWord) : (s.accept ws).faultCode = s.faultCode := rfl
@[simp] theorem State.accept_busy (ws : List CmdWord) : (s.accept ws).busy = true := rfl
@[simp] theorem State.accept_queue (ws : List CmdWord) : (s.accept ws).queue = s.queue := rfl
@[simp] theorem State.accept_results (ws : List CmdWord) : (s.accept ws).results = s.results := rfl
@[simp] theorem State.accept_cmdIn (ws : List CmdWord) : (s.accept ws).cmdIn = ws := rfl
@[simp] theorem State.accept_payloadIn (ws : List CmdWord) : (s.accept ws).payloadIn = s.payloadIn := rfl
@[simp] theorem State.accept_resetIn (ws : List CmdWord) : (s.accept ws).resetIn = s.resetIn := rfl
@[simp] theorem State.accept_inFlight (ws : List CmdWord) : (s.accept ws).inFlight = s.inFlight := rfl
@[simp] theorem State.accept_delay (ws : List CmdWord) : (s.accept ws).delay = s.delay := rfl
@[simp] theorem State.accept_history (ws : List CmdWord) : (s.accept ws).history = s.history := rfl
@[simp] theorem State.accept_delayIn (ws : List CmdWord) : (s.accept ws).delayIn = s.delayIn := rfl

/-! ### pastResetSignal -/

@[simp] theorem State.pastResetSignal_params : (s.pastResetSignal).params = s.params := rfl
@[simp] theorem State.pastResetSignal_configured : (s.pastResetSignal).configured = s.configured := rfl
@[simp] theorem State.pastResetSignal_pinsBound : (s.pastResetSignal).pinsBound = s.pinsBound := rfl
@[simp] theorem State.pastResetSignal_sdaPin : (s.pastResetSignal).sdaPin = s.sdaPin := rfl
@[simp] theorem State.pastResetSignal_sclPin : (s.pastResetSignal).sclPin = s.sclPin := rfl
@[simp] theorem State.pastResetSignal_hp : (s.pastResetSignal).hp = s.hp := rfl
@[simp] theorem State.pastResetSignal_bus : (s.pastResetSignal).bus = s.bus := rfl
@[simp] theorem State.pastResetSignal_txAddr : (s.pastResetSignal).txAddr = s.txAddr := rfl
@[simp] theorem State.pastResetSignal_txLen : (s.pastResetSignal).txLen = s.txLen := rfl
@[simp] theorem State.pastResetSignal_txBuf : (s.pastResetSignal).txBuf = s.txBuf := rfl
@[simp] theorem State.pastResetSignal_rxLen : (s.pastResetSignal).rxLen = s.rxLen := rfl
@[simp] theorem State.pastResetSignal_rxCursor : (s.pastResetSignal).rxCursor = s.rxCursor := rfl
@[simp] theorem State.pastResetSignal_rxBuf : (s.pastResetSignal).rxBuf = s.rxBuf := rfl
@[simp] theorem State.pastResetSignal_fault : (s.pastResetSignal).fault = s.fault := rfl
@[simp] theorem State.pastResetSignal_faultCode : (s.pastResetSignal).faultCode = s.faultCode := rfl
@[simp] theorem State.pastResetSignal_busy : (s.pastResetSignal).busy = s.busy := rfl
@[simp] theorem State.pastResetSignal_queue : (s.pastResetSignal).queue = s.queue := rfl
@[simp] theorem State.pastResetSignal_results : (s.pastResetSignal).results = s.results := rfl
@[simp] theorem State.pastResetSignal_cmdIn : (s.pastResetSignal).cmdIn = s.cmdIn := rfl
@[simp] theorem State.pastResetSignal_payloadIn : (s.pastResetSignal).payloadIn = s.payloadIn := rfl
@[simp] theorem State.pastResetSignal_resetIn : (s.pastResetSignal).resetIn = s.resetIn.tail := rfl
@[simp] theorem State.pastResetSignal_inFlight : (s.pastResetSignal).inFlight = s.inFlight := rfl
@[simp] theorem State.pastResetSignal_delay : (s.pastResetSignal).delay = s.delay := rfl
@[simp] theorem State.pastResetSignal_history : (s.pastResetSignal).history = s.history := rfl
@[simp] theorem State.pastResetSignal_delayIn : (s.pastResetSignal).delayIn = s.delayIn := rfl

/-! ### withInputs -/

@[simp] theorem State.withInputs_params (d r : List Bool) : (s.withInputs d r).params = s.params := rfl
@[simp] theorem State.withInputs_configured (d r : List Bool) : (s.withInputs d r).configured = s.configured := rfl
@[simp] theorem State.withInputs_pinsBound (d r : List Bool) : (s.withInputs d r).pinsBound = s.pinsBound := rfl
@[simp] theorem State.withInputs_sdaPin (d r : List Bool) : (s.withInputs d r).sdaPin = s.sdaPin := rfl
@[simp] theorem State.withInputs_sclPin (d r : List Bool) : (s.withInputs d r).sclPin = s.sclPin := rfl
@[simp] theorem State.withInputs_hp (d r : List Bool) : (s.withInputs d r).hp = s.hp := rfl
@[simp] theorem State.withInputs_bus (d r : List Bool) : (s.withInputs d r).bus = s.bus := rfl
@[simp] theorem State.withInputs_txAddr (d r : List Bool) : (s.withInputs d r).txAddr = s.txAddr := rfl
@[simp] theorem State.withInputs_txLen (d r : List Bool) : (s.withInputs d r).txLen = s.txLen := rfl
@[simp] theorem State.withInputs_txBuf (d r : List Bool) : (s.withInputs d r).txBuf = s.txBuf := rfl
@[simp] theorem State.withInputs_rxLen (d r : List Bool) : (s.withInputs d r).rxLen = s.rxLen := rfl
@[simp] theorem State.withInputs_rxCursor (d r : List Bool) : (s.withInputs d r).rxCursor = s.rxCursor := rfl
@[simp] theorem State.withInputs_rxBuf (d r : List Bool) : (s.withInputs d r).rxBuf = s.rxBuf := rfl
@[simp] theorem State.withInputs_fault (d r : List Bool) : (s.withInputs d r).fault = s.fault := rfl
@[simp] theorem State.withInputs_faultCode (d r : List Bool) : (s.withInputs d r).faultCode = s.faultCode := rfl
@[simp] theorem State.withInputs_busy (d r : List Bool) : (s.withInputs d r).busy = s.busy := rfl
@[simp] theorem State.withInputs_queue (d r : List Bool) : (s.withInputs d r).queue = s.queue := rfl
@[simp] theorem State.withInputs_results (d r : List Bool) : (s.withInputs d r).results = s.results := rfl
@[simp] theorem State.withInputs_cmdIn (d r : List Bool) : (s.withInputs d r).cmdIn = s.cmdIn := rfl
@[simp] theorem State.withInputs_payloadIn (d r : List Bool) : (s.withInputs d r).payloadIn = s.payloadIn := rfl
@[simp] theorem State.withInputs_resetIn (d r : List Bool) : (s.withInputs d r).resetIn = r := rfl
@[simp] theorem State.withInputs_inFlight (d r : List Bool) : (s.withInputs d r).inFlight = s.inFlight := rfl
@[simp] theorem State.withInputs_delay (d r : List Bool) : (s.withInputs d r).delay = s.delay := rfl
@[simp] theorem State.withInputs_history (d r : List Bool) : (s.withInputs d r).history = s.history := rfl
@[simp] theorem State.withInputs_delayIn (d r : List Bool) : (s.withInputs d r).delayIn = d := rfl

/-! ### resetNow and boundary -/

@[simp] theorem State.resetNow_params : s.resetNow.params = s.params := rfl
@[simp] theorem State.resetNow_configured : s.resetNow.configured = false := rfl
@[simp] theorem State.resetNow_pinsBound : s.resetNow.pinsBound = false := rfl
@[simp] theorem State.resetNow_fault : s.resetNow.fault = false := rfl
@[simp] theorem State.resetNow_faultCode : s.resetNow.faultCode = .none := rfl
@[simp] theorem State.resetNow_busy : s.resetNow.busy = false := rfl
@[simp] theorem State.resetNow_inFlight : s.resetNow.inFlight = none := rfl
@[simp] theorem State.resetNow_delay : s.resetNow.delay = none := rfl
@[simp] theorem State.resetNow_results : s.resetNow.results = s.results := rfl
@[simp] theorem State.resetNow_history : s.resetNow.history = s.history ++ [s.bus.trace] := rfl
@[simp] theorem State.resetNow_cmdIn : s.resetNow.cmdIn = s.cmdIn := rfl
@[simp] theorem State.resetNow_payloadIn : s.resetNow.payloadIn = s.payloadIn := rfl
@[simp] theorem State.resetNow_delayIn : s.resetNow.delayIn = s.delayIn := rfl
@[simp] theorem State.resetNow_resetIn : s.resetNow.resetIn = s.resetIn := rfl
@[simp] theorem State.resetNow_trace : s.resetNow.bus.trace = [] := rfl

theorem State.boundary_none {s : State} (h : s.inFlight = none) : s.boundary = s := by
  simp [State.boundary, h]

theorem State.boundary_some {s : State} {c : InFlight} (h : s.inFlight = some c) :
    s.boundary = { s with bus := c.start, inFlight := none, delay := none } := by
  simp [State.boundary, h]

/-- The timing is read of `hp` and the parameters alone. -/
@[simp] theorem State.withBus_timing (b : Bus) : (s.withBus b).timing = s.timing := rfl

@[simp] theorem State.withBus_withBus (b b' : Bus) : (s.withBus b).withBus b' = s.withBus b' := rfl

@[simp] theorem State.withBus_self : s.withBus s.bus = s := rfl

end State

section Bus

variable (b : Bus)

/-! ### emit -/

@[simp] theorem Bus.emit_sdaMode (e : Event) : (b.emit e).sdaMode = b.sdaMode := rfl
@[simp] theorem Bus.emit_sclMode (e : Event) : (b.emit e).sclMode = b.sclMode := rfl
@[simp] theorem Bus.emit_trace (e : Event) : (b.emit e).trace = b.trace ++ [e] := rfl
@[simp] theorem Bus.emit_sdaAnswers (e : Event) : (b.emit e).sdaAnswers = b.sdaAnswers := rfl
@[simp] theorem Bus.emit_sclAnswers (e : Event) : (b.emit e).sclAnswers = b.sclAnswers := rfl
@[simp] theorem Bus.emit_sdaDraws (e : Event) : (b.emit e).sdaDraws = b.sdaDraws := rfl
@[simp] theorem Bus.emit_sclDraws (e : Event) : (b.emit e).sclDraws = b.sclDraws := rfl

/-! ### setMode -/

@[simp] theorem Bus.setMode_sda_sdaMode (m : DriveMode) : (b.setMode .sda m).sdaMode = m.pinMode := rfl
@[simp] theorem Bus.setMode_sda_sclMode (m : DriveMode) : (b.setMode .sda m).sclMode = b.sclMode := rfl
@[simp] theorem Bus.setMode_scl_sdaMode (m : DriveMode) : (b.setMode .scl m).sdaMode = b.sdaMode := rfl
@[simp] theorem Bus.setMode_scl_sclMode (m : DriveMode) : (b.setMode .scl m).sclMode = m.pinMode := rfl
@[simp] theorem Bus.setMode_trace (l : Line) (m : DriveMode) :
    (b.setMode l m).trace = b.trace ++ [.mode l m] := by cases l <;> rfl
@[simp] theorem Bus.setMode_sdaAnswers (l : Line) (m : DriveMode) :
    (b.setMode l m).sdaAnswers = b.sdaAnswers := by cases l <;> rfl
@[simp] theorem Bus.setMode_sclAnswers (l : Line) (m : DriveMode) :
    (b.setMode l m).sclAnswers = b.sclAnswers := by cases l <;> rfl

/-! ### play -/

@[simp] theorem Bus.play_nil : b.play [] = b := rfl
@[simp] theorem Bus.play_cons (e : Event) (es : List Event) : b.play (e :: es) = (b.perform e).play es := rfl

theorem Bus.play_append (e₁ e₂ : List Event) : b.play (e₁ ++ e₂) = (b.play e₁).play e₂ :=
  List.foldl_append ..

end Bus

end Sys2Proof.Machine
end

