-- ==== Sys2Proof/Laws/Bus.lean ====
section
/-! SUPPORT. What each procedure of the bus side does, once: the shape of its events and that it emits exactly them
(`Bus.Emits`: trace, modes, answers). Callers cite these and unfold no procedure. -/

namespace Sys2Proof.Machine

/-! ## Lists of events -/

theorem modeAfter_append (l : Line) (m : PinMode) (e₁ e₂ : List Event) :
    modeAfter l m (e₁ ++ e₂) = modeAfter l (modeAfter l m e₁) e₂ := by
  induction e₁ generalizing m with
  | nil => rfl
  | cons e es ih => cases e <;> simp [modeAfter, ih]

theorem samplesOf_append (l : Line) (e₁ e₂ : List Event) :
    samplesOf l (e₁ ++ e₂) = samplesOf l e₁ ++ samplesOf l e₂ := by
  induction e₁ with
  | nil => rfl
  | cons e es ih =>
    cases e with
    | sample l' lvl => by_cases h : l' = l <;> simp [samplesOf, ih, h]
    | mode l' m => simp [samplesOf, ih]
    | wait n => simp [samplesOf, ih]

theorem samplesReleased_append {md mc : PinMode} {e₁ e₂ : List Event} :
    samplesReleased md mc (e₁ ++ e₂) ↔
      samplesReleased md mc e₁ ∧ samplesReleased (modeAfter .sda md e₁) (modeAfter .scl mc e₁) e₂ := by
  induction e₁ generalizing md mc with
  | nil => simp [samplesReleased, modeAfter]
  | cons e es ih =>
    cases e with
    | mode l m => cases l <;> simp [samplesReleased, modeAfter, ih]
    | wait n => simp [samplesReleased, modeAfter, ih]
    | sample l lvl => cases l <;> simp [samplesReleased, modeAfter, ih, and_assoc]

theorem waitTotal_append (e₁ e₂ : List Event) : waitTotal (e₁ ++ e₂) = waitTotal e₁ + waitTotal e₂ := by
  induction e₁ with
  | nil => simp [waitTotal]
  | cons e es ih => cases e <;> simp [waitTotal, ih, Nat.add_assoc]

theorem sclReleases_append (e₁ e₂ : List Event) :
    sclReleases (e₁ ++ e₂) = sclReleases e₁ + sclReleases e₂ := by
  induction e₁ with
  | nil => simp [sclReleases]
  | cons e es ih =>
    match e with
    | .mode .scl .inputPullup => simp [sclReleases, ih, Nat.add_assoc]
    | .mode .scl .outputLow => simp [sclReleases, ih]
    | .mode .scl .input => simp [sclReleases, ih]
    | .mode .sda _ => simp [sclReleases, ih]
    | .wait _ => simp [sclReleases, ih]
    | .sample _ _ => simp [sclReleases, ih]

theorem waitsPositive_append {e₁ e₂ : List Event} (h₁ : waitsPositive e₁) (h₂ : waitsPositive e₂) :
    waitsPositive (e₁ ++ e₂) := fun n hn => (List.mem_append.1 hn).elim (h₁ n) (h₂ n)

/-! ## Emitting -/

@[simp] theorem Answered.none (l : List Level) : Answered [] l l := ⟨[], by simp, .inr rfl⟩

theorem Answered.trans {t₁ t₂ a b c : List Level} (h₁ : Answered t₁ a b) (h₂ : Answered t₂ b c) :
    Answered (t₁ ++ t₂) a c := by
  obtain ⟨f₁, e₁, d₁⟩ := h₁
  obtain ⟨f₂, e₂, d₂⟩ := h₂
  refine ⟨f₁ ++ f₂, by rw [List.append_assoc, e₂, ← List.append_assoc, e₁, List.append_assoc], ?_⟩
  rcases d₂ with hc | rfl
  · exact .inl hc
  · rcases d₁ with rfl | rfl
    · simp only [List.append_nil, List.append_eq_nil_iff] at e₂
      exact .inl e₂.2
    · exact .inr rfl

theorem Bus.Emits.refl (b : Bus) : b.Emits b [] := ⟨by simp, rfl, rfl, .none _, .none _, rfl⟩

/-- One piece of bus activity after another. -/
theorem Bus.Emits.trans {b₁ b₂ b₃ : Bus} {e₁ e₂ : List Event} (h₁ : b₁.Emits b₂ e₁) (h₂ : b₂.Emits b₃ e₂) :
    b₁.Emits b₃ (e₁ ++ e₂) where
  trace := by rw [h₂.trace, h₁.trace, List.append_assoc]
  sdaMode := by rw [modeAfter_append, ← h₁.sdaMode, h₂.sdaMode]
  sclMode := by rw [modeAfter_append, ← h₁.sclMode, h₂.sclMode]
  sdaAnswers := by rw [samplesOf_append]; exact h₁.sdaAnswers.trans h₂.sdaAnswers
  sclAnswers := by rw [samplesOf_append]; exact h₁.sclAnswers.trans h₂.sclAnswers
  play := by rw [Bus.play_append, h₁.play, h₂.play]

theorem Bus.emits_setMode (l : Line) (m : DriveMode) (b : Bus) : b.Emits (b.setMode l m) [.mode l m] := by
  cases l <;> exact ⟨rfl, rfl, rfl, .none _, .none _, rfl⟩

theorem Bus.emits_delay (n : Nat) (b : Bus) : b.Emits (b.delay n) [.wait n] :=
  ⟨rfl, rfl, rfl, .none _, .none _, rfl⟩

theorem Bus.emits_sample (l : Line) (b : Bus) :
    b.Emits (b.sample l).2 [.sample l (b.sample l).1] := by
  cases l with
  | sda =>
    cases h : b.sdaAnswers with
    | nil =>
      refine ⟨?_, ?_, ?_, ?_, ?_, rfl⟩ <;> simp [Bus.sample, Bus.answer, h, modeAfter, samplesOf]
      exact ⟨_, rfl, .inl rfl⟩
    | cons a as =>
      refine ⟨?_, ?_, ?_, ?_, ?_, rfl⟩ <;> simp [Bus.sample, Bus.answer, h, modeAfter, samplesOf]
      exact ⟨[], by simp, .inr rfl⟩
  | scl =>
    cases h : b.sclAnswers with
    | nil =>
      refine ⟨?_, ?_, ?_, ?_, ?_, rfl⟩ <;> simp [Bus.sample, Bus.answer, h, modeAfter, samplesOf]
      exact ⟨_, rfl, .inl rfl⟩
    | cons a as =>
      refine ⟨?_, ?_, ?_, ?_, ?_, rfl⟩ <;> simp [Bus.sample, Bus.answer, h, modeAfter, samplesOf]
      exact ⟨[], by simp, .inr rfl⟩

/-- Playing events appends them. -/
@[simp] theorem Bus.play_trace (b : Bus) (evs : List Event) : (b.play evs).trace = b.trace ++ evs := by
  induction evs generalizing b with
  | nil => simp
  | cons e es ih =>
    cases e with
    | mode l m => simp [ih, Bus.perform]
    | wait n => simp [ih, Bus.perform, Bus.delay]
    | sample l lvl => cases l <;> simp [ih, Bus.perform, Bus.answer] <;> split <;> rfl

/-- Playing events leaves each line in the mode they set last. -/
theorem Bus.play_modes (b : Bus) (evs : List Event) :
    (b.play evs).sdaMode = modeAfter .sda b.sdaMode evs ∧ (b.play evs).sclMode = modeAfter .scl b.sclMode evs := by
  induction evs generalizing b with
  | nil => exact ⟨rfl, rfl⟩
  | cons e es ih =>
    cases e with
    | mode l m => cases l <;> simp [ih, Bus.perform, modeAfter]
    | wait n => simp [ih, Bus.perform, Bus.delay, modeAfter]
    | sample l lvl => cases l <;> simp [ih, Bus.perform, modeAfter, Bus.answer] <;> constructor <;> split <;> rfl

/-! ## Line control, start and stop, one bit (R121 to R136) -/

theorem lowPolls_succ (j : Nat) :
    lowPolls (j + 1) = [Event.sample .scl false, Event.wait 1] ++ lowPolls j := by
  simp [lowPolls, List.replicate_succ]

theorem stretchWait_spec (n : Nat) (b : Bus) :
    ∃ evs, IsPoll n evs ∧ b.Emits (stretchWait n b) evs := by
  induction n generalizing b with
  | zero =>
    refine ⟨[.sample .scl (b.sample .scl).1], ?_, Bus.emits_sample .scl b⟩
    cases (b.sample .scl).1
    · exact .inr rfl
    · exact .inl ⟨0, Nat.le_refl 0, rfl⟩
  | succ n ih =>
    have hs := Bus.emits_sample .scl b
    unfold stretchWait
    cases hlvl : (b.sample .scl).1 with
    | true =>
      rw [hlvl] at hs
      exact ⟨_, .inl ⟨0, Nat.zero_le _, rfl⟩, hs⟩
    | false =>
      rw [hlvl] at hs
      obtain ⟨evs, hp, he⟩ := ih ((b.sample .scl).2.delay 1)
      refine ⟨_, ?_, (hs.trans (Bus.emits_delay 1 _)).trans he⟩
      rcases hp with ⟨j, hj, rfl⟩ | rfl
      · exact .inl ⟨j + 1, by omega, by rw [lowPolls_succ]; simp⟩
      · exact .inr (by rw [lowPolls_succ]; simp)

theorem releaseScl_spec (t : Timing) (b : Bus) :
    ∃ evs, IsRelease t evs ∧ b.Emits (releaseScl t b) evs := by
  obtain ⟨evs, hp, he⟩ := stretchWait_spec t.pollLimit ((b.setMode .scl .inputPullup).delay t.hp)
  exact ⟨_, ⟨evs, hp, rfl⟩, ((Bus.emits_setMode .scl .inputPullup b).trans (Bus.emits_delay t.hp _)).trans he⟩

theorem genStart_spec (t : Timing) (b : Bus) : ∃ evs, IsStart t evs ∧ b.Emits (genStart t b) evs := by
  obtain ⟨r, hr, he⟩ := releaseScl_spec t (releaseSda b)
  have h := (((((Bus.emits_setMode .sda .inputPullup b).trans he).trans (Bus.emits_delay t.hp _)).trans
    (Bus.emits_setMode .sda .outputLow _)).trans (Bus.emits_delay t.hp _)).trans
    (Bus.emits_setMode .scl .outputLow _)
  exact ⟨_, ⟨r, hr, rfl⟩, by simpa [genStart, driveSclLow, driveSdaLow] using h⟩

theorem genStop_spec (t : Timing) (b : Bus) : ∃ evs, IsStop t evs ∧ b.Emits (genStop t b) evs := by
  obtain ⟨r, hr, he⟩ := releaseScl_spec t ((driveSdaLow b).delay t.hp)
  have h := (((((Bus.emits_setMode .sda .outputLow b).trans (Bus.emits_delay t.hp _)).trans he).trans
    (Bus.emits_delay t.hp _)).trans (Bus.emits_setMode .sda .inputPullup _)).trans (Bus.emits_delay t.hp _)
  exact ⟨_, ⟨r, hr, rfl⟩, by simpa [genStop, releaseSda] using h⟩

theorem putSda_emits (bit : Bool) (b : Bus) :
    b.Emits (putSda bit b) [.mode .sda (if bit then .inputPullup else .outputLow)] := by
  cases bit <;> simpa [putSda, releaseSda, driveSdaLow] using Bus.emits_setMode _ _ b

theorem txBit_spec (t : Timing) (bit : Bool) (b : Bus) :
    ∃ evs, IsBitOut t bit evs ∧ b.Emits (txBit t bit b) evs := by
  obtain ⟨r, hr, he⟩ := releaseScl_spec t ((putSda bit b).delay t.hp)
  have h := (((putSda_emits bit b).trans (Bus.emits_delay t.hp _)).trans he).trans
    (Bus.emits_setMode .scl .outputLow _)
  exact ⟨_, ⟨r, hr, rfl⟩, by simpa [txBit, driveSclLow] using h⟩

theorem rxBit_spec (t : Timing) (b : Bus) :
    ∃ evs, IsBitIn t (rxBit t b).1 evs ∧ b.Emits (rxBit t b).2 evs := by
  obtain ⟨r, hr, he⟩ := releaseScl_spec t ((releaseSda b).delay t.hp)
  have h := ((((Bus.emits_setMode .sda .inputPullup b).trans (Bus.emits_delay t.hp _)).trans he).trans
    (Bus.emits_sample .sda (openBit t b))).trans (Bus.emits_setMode .scl .outputLow _)
  exact ⟨_, ⟨r, hr, rfl⟩, by simpa [rxBit, driveSclLow] using h⟩

/-! ## One byte (R150, R152) -/

theorem txBits_spec (t : Timing) (bits : List Bool) (b : Bus) :
    ∃ evs, IsBitsOut t bits evs ∧ b.Emits (txBits t bits b) evs := by
  induction bits generalizing b with
  | nil => exact ⟨[], rfl, .refl b⟩
  | cons bit bits ih =>
    obtain ⟨e₁, h₁, he₁⟩ := txBit_spec t bit b
    obtain ⟨e₂, h₂, he₂⟩ := ih (txBit t bit b)
    exact ⟨_, ⟨e₁, e₂, h₁, h₂, rfl⟩, he₁.trans he₂⟩

theorem txByte_spec (t : Timing) (v : Byte) (b : Bus) :
    ∃ evs, IsByteOut t v (txByte t v b).1 evs ∧ b.Emits (txByte t v b).2 evs := by
  obtain ⟨e₁, h₁, he₁⟩ := txBits_spec t (msbFirst v) b
  obtain ⟨e₂, h₂, he₂⟩ := rxBit_spec t (txBits t (msbFirst v) b)
  exact ⟨_, ⟨e₁, e₂, h₁, by simpa [txByte] using h₂, rfl⟩, he₁.trans he₂⟩

/-- The levels `rxBits` takes, in order. -/
def rxLevels (t : Timing) : Nat → Bus → List Level
  | 0, _ => []
  | n + 1, b => (rxBit t b).1 :: rxLevels t n (rxBit t b).2

theorem rxBits_fst (t : Timing) (n : Nat) (r : Byte) (b : Bus) :
    (rxBits t n r b).1 = (rxLevels t n b).foldl shiftIn r := by
  induction n generalizing r b with
  | zero => rfl
  | succ n ih => exact ih _ _

theorem rxBits_spec (t : Timing) (n : Nat) (r : Byte) (b : Bus) :
    ∃ evs, IsBitsIn t (rxLevels t n b) evs ∧ b.Emits (rxBits t n r b).2 evs := by
  induction n generalizing r b with
  | zero => exact ⟨[], rfl, .refl b⟩
  | succ n ih =>
    obtain ⟨e₁, h₁, he₁⟩ := rxBit_spec t b
    obtain ⟨e₂, h₂, he₂⟩ := ih (shiftIn r (rxBit t b).1) (rxBit t b).2
    exact ⟨_, ⟨e₁, e₂, h₁, h₂, rfl⟩, he₁.trans he₂⟩

/-- Shifting eight levels in gives the byte whose bits, v[7] first, they are. -/
theorem msbFirst_shiftIn (b7 b6 b5 b4 b3 b2 b1 b0 : Level) (r : Byte) :
    msbFirst ([b7, b6, b5, b4, b3, b2, b1, b0].foldl shiftIn r) = [b7, b6, b5, b4, b3, b2, b1, b0] := by
  simp [msbFirst, shiftIn]

theorem msbFirst_rxBits (t : Timing) (r : Byte) (b : Bus) :
    msbFirst (rxBits t 8 r b).1 = rxLevels t 8 b := by
  rw [rxBits_fst]
  exact msbFirst_shiftIn _ _ _ _ _ _ _ _ r

theorem rxByte_spec (t : Timing) (ack : Bool) (b : Bus) :
    ∃ evs, IsByteIn t (rxByte t ack b).1 ack evs ∧ b.Emits (rxByte t ack b).2 evs := by
  obtain ⟨e₁, h₁, he₁⟩ := rxBits_spec t 8 0#8 b
  obtain ⟨e₂, h₂, he₂⟩ := txBit_spec t (!ack) (rxBits t 8 0#8 b).2
  exact ⟨_, ⟨e₁, e₂, by rw [show (rxByte t ack b).1 = (rxBits t 8 0#8 b).1 from rfl, msbFirst_rxBits]; exact h₁,
    h₂, rfl⟩, he₁.trans he₂⟩

/-- A byte is known by its bits. -/
theorem msbFirst_injective {u v : Byte} (h : msbFirst u = msbFirst v) : u = v := by
  simp only [msbFirst, List.cons.injEq] at h
  apply BitVec.eq_of_getLsbD_eq
  intro i hi
  interval_cases i <;> simp_all

end Sys2Proof.Machine
end

