-- ==== Sys2Proof/Laws/Memory.lean ====
section
/-! SUPPORT. The laws of a buffer's contents: read after write, the canonical form kept, indices kept in range. -/

namespace Sys2Proof.Machine

/-- Below the least index a list may hold, nothing is listed. -/
theorem Memory.read_below {lo i : Nat} {m : Memory} (h : m.wfFrom lo = true) (hi : i < lo) :
    m.read i = Memory.unwritten := by
  induction m generalizing lo with
  | nil => rfl
  | cons c rest ih =>
    simp only [wfFrom, Bool.and_eq_true, decide_eq_true_eq] at h
    simp only [read, if_neg (show c.1 ≠ i by omega)]
    exact ih h.2 (by omega)

theorem Memory.wfFrom_mono {lo lo' : Nat} {m : Memory} (hle : lo' ≤ lo) (h : m.wfFrom lo = true) :
    m.wfFrom lo' = true := by
  cases m with
  | nil => rfl
  | cons c rest =>
    simp only [wfFrom, Bool.and_eq_true, decide_eq_true_eq] at h ⊢
    exact ⟨⟨by omega, h.1.2⟩, h.2⟩

theorem Memory.read_write_same_from {lo i : Nat} {m : Memory} {v : Byte} (h : m.wfFrom lo = true) :
    (m.write i v).read i = v := by
  induction m generalizing lo with
  | nil => by_cases hv : v = Memory.unwritten <;> simp [write, read, hv]
  | cons c rest ih =>
    simp only [wfFrom, Bool.and_eq_true, decide_eq_true_eq] at h
    by_cases hlt : i < c.1
    · by_cases hv : v = Memory.unwritten
      · simp [write, hlt, hv, read, show c.1 ≠ i by omega, read_below h.2 (show i < c.1 + 1 by omega)]
      · simp [write, hlt, hv, read]
    · by_cases heq : i = c.1
      · by_cases hv : v = Memory.unwritten
        · simp [write, heq, hv, read_below h.2 (show c.1 < c.1 + 1 by omega)]
        · simp [write, heq, hv, read]
      · simp [write, hlt, heq, read, Ne.symm heq, ih h.2]

/-- A byte written is the byte read. -/
theorem Memory.read_write_same {m : Memory} (h : m.wf = true) (i : Nat) (v : Byte) :
    (m.write i v).read i = v := read_write_same_from h

/-- A write leaves every other byte alone. -/
theorem Memory.read_write_other {i j : Nat} (hne : j ≠ i) (m : Memory) (v : Byte) :
    (m.write i v).read j = m.read j := by
  induction m with
  | nil => by_cases hv : v = Memory.unwritten <;> simp [write, read, hv, Ne.symm hne]
  | cons c rest ih =>
    by_cases hlt : i < c.1
    · by_cases hv : v = Memory.unwritten <;> simp [write, hlt, hv, read, Ne.symm hne]
    · by_cases heq : i = c.1
      · subst heq
        by_cases hv : v = Memory.unwritten <;> simp [write, hv, read, Ne.symm hne]
      · simp [write, hlt, heq, read, ih]

theorem Memory.wfFrom_write {lo i : Nat} {m : Memory} (v : Byte) (hi : lo ≤ i) (h : m.wfFrom lo = true) :
    (m.write i v).wfFrom lo = true := by
  induction m generalizing lo with
  | nil => by_cases hv : v = Memory.unwritten <;> simp [write, wfFrom, hv, hi]
  | cons c rest ih =>
    simp only [wfFrom, Bool.and_eq_true, decide_eq_true_eq] at h
    obtain ⟨⟨hlo, hc⟩, hrest⟩ := h
    by_cases hlt : i < c.1
    · by_cases hv : v = Memory.unwritten
      · simp [write, hlt, hv, wfFrom, hlo, hc, hrest]
      · simp [write, hlt, hv, wfFrom, hi, hc, hrest, show i + 1 ≤ c.1 by omega]
    · by_cases heq : i = c.1
      · by_cases hv : v = Memory.unwritten
        · simpa [write, heq, hv] using wfFrom_mono (by omega) hrest
        · simp [write, heq, hv, wfFrom, hlo, hrest]
      · simp [write, hlt, heq, wfFrom, hlo, hc, ih (show c.1 + 1 ≤ i by omega) hrest]

/-- A write keeps the canonical form. -/
theorem Memory.wf_write {m : Memory} (i : Nat) (v : Byte) (h : m.wf = true) : (m.write i v).wf = true :=
  wfFrom_write v (Nat.zero_le i) h

/-- A write below the capacity keeps every listed index below it. -/
theorem Memory.within_write {cap i : Nat} {m : Memory} (v : Byte) (hi : i < cap) (h : m.within cap = true) :
    (m.write i v).within cap = true := by
  induction m with
  | nil => by_cases hv : v = Memory.unwritten <;> simp [write, within, hv, hi]
  | cons c rest ih =>
    simp only [within, List.all_cons, Bool.and_eq_true, decide_eq_true_eq] at h ih ⊢
    have hkept := ih h.2
    unfold write
    split_ifs <;> simp [-List.all_eq_true, hi, h.1, h.2, hkept]

theorem Memory.wf_writeAll {m : Memory} (i : Nat) (vs : List Byte) (h : m.wf = true) :
    (m.writeAll i vs).wf = true := by
  induction vs generalizing m i with
  | nil => exact h
  | cons v vs ih => exact ih (i + 1) (wf_write i v h)

theorem Memory.within_writeAll {cap i : Nat} {m : Memory} {vs : List Byte} (hi : i + vs.length ≤ cap)
    (h : m.within cap = true) : (m.writeAll i vs).within cap = true := by
  induction vs generalizing m i with
  | nil => exact h
  | cons v vs ih =>
    simp only [List.length_cons] at hi
    exact ih (by omega) (within_write v (by omega) h)

/-- Bytes written from `i` on leave every index below `i` alone. -/
theorem Memory.read_writeAll_below {i j : Nat} (hj : j < i) (m : Memory) (vs : List Byte) :
    (m.writeAll i vs).read j = m.read j := by
  induction vs generalizing m i with
  | nil => rfl
  | cons v vs ih => simp [writeAll, ih (show j < i + 1 by omega), read_write_other (show j ≠ i by omega)]

/-- Bytes written from `i` on leave every index past them alone. -/
theorem Memory.read_writeAll_above {i j : Nat} {vs : List Byte} (hj : i + vs.length ≤ j) (m : Memory) :
    (m.writeAll i vs).read j = m.read j := by
  induction vs generalizing m i with
  | nil => rfl
  | cons v vs ih =>
    simp only [List.length_cons] at hj
    simp [writeAll, ih (show i + 1 + vs.length ≤ j by omega), read_write_other (show j ≠ i by omega)]

/-- The k-th byte written from `i` on is the byte read at `i + k`. -/
theorem Memory.read_writeAll_in {m : Memory} (h : m.wf = true) {i k : Nat} {vs : List Byte}
    (hk : k < vs.length) : (m.writeAll i vs).read (i + k) = vs[k] := by
  induction vs generalizing m i k with
  | nil => simp at hk
  | cons v vs ih =>
    cases k with
    | zero => simp [writeAll, read_writeAll_below (show i < i + 1 by omega), read_write_same h]
    | succ k =>
      have := ih (wf_write i v h) (i := i + 1) (k := k) (by simpa using hk)
      simpa [writeAll, Nat.add_assoc, Nat.add_comm 1 k] using this

theorem Memory.writeAll_append (m : Memory) (i : Nat) (us vs : List Byte) :
    m.writeAll i (us ++ vs) = (m.writeAll i us).writeAll (i + us.length) vs := by
  induction us generalizing m i with
  | nil => rfl
  | cons u us ih => simp [writeAll, ih, Nat.add_assoc, Nat.add_comm 1]

end Sys2Proof.Machine
end

