-- ==== Sys2Proof/Laws/Commands.lean ====
section
/-! SUPPORT. What each operation shared by the transaction commands answers, once. -/

namespace Sys2Proof.Machine

/-- In range, a read gives the entry. -/
theorem memRead_ok {buf : Buffer} {i : Nat} {s : State} (h : i < s.capacity buf) :
    memRead buf i s = .ok ((s.mem buf).read i) := if_pos h

/-- R172: with room, the byte goes to index `tx_len`, which advances. -/
theorem appendByte_room {v : Byte} {s : State} (h : s.txLen < s.params.txCapacity) :
    appendByte v s = .ok ({ s with txBuf := s.txBuf.write s.txLen v, txLen := s.txLen + 1 }, 1) := by
  simp [appendByte, memWrite, State.capacity, h]

/-- R172: without room, nothing changes. -/
theorem appendByte_full {v : Byte} {s : State} (h : ¬s.txLen < s.params.txCapacity) :
    appendByte v s = .ok (s, 0) := by simp [appendByte, h]

/-- R173: when the payload port offers all that is still to be taken, the command ends. -/
theorem takePayload_enough {offered : List Byte} {n acc : Nat} {s : State} (h : n ≤ offered.length) :
    takePayload offered n acc s =
      .ok ({ s with txBuf := s.txBuf.writeAll s.txLen (offered.take (s.room n)), txLen := s.txLen + s.room n,
                    payloadIn := offered.drop n, queue := none }.ret
            (countResult ((acc + s.room n : Nat) : Int))) := by
  induction offered generalizing n acc s with
  | nil =>
    obtain rfl : n = 0 := by simpa using h
    simp [takePayload, State.room, Memory.writeAll]
  | cons b rest ih =>
    cases n with
    | zero => simp [takePayload, State.room, Memory.writeAll]
    | succ n =>
      simp only [List.length_cons, Nat.add_le_add_iff_right] at h
      by_cases hr : s.txLen < s.params.txCapacity
      · have hroom : s.room (n + 1) =
            State.room n { s with txBuf := s.txBuf.write s.txLen b, txLen := s.txLen + 1 } + 1 := by
          simp only [State.room]; omega
        simp only [takePayload, appendByte_room hr, ih h, hroom, List.take_succ_cons, Memory.writeAll,
          List.drop_succ_cons]
        simp only [Nat.add_assoc, Nat.add_comm 1]
      · have hroom : ∀ m, s.room m = 0 := fun m => by simp only [State.room]; omega
        simp only [takePayload, appendByte_full hr, ih h, hroom]
        simp [Memory.writeAll]

/-- R49, R215: when the payload port offers less, the block takes what there is and waits, busy. -/
theorem takePayload_short {offered : List Byte} {n acc : Nat} {s : State} (h : offered.length < n) :
    takePayload offered n acc s =
      .ok { s with txBuf := s.txBuf.writeAll s.txLen (offered.take (s.room offered.length)),
                   txLen := s.txLen + s.room offered.length, payloadIn := [],
                   queue := some { remaining := n - offered.length,
                                   accepted := acc + s.room offered.length },
                   busy := true } := by
  induction offered generalizing n acc s with
  | nil =>
    obtain ⟨n, rfl⟩ : ∃ k, n = k + 1 := ⟨n - 1, by simp at h; omega⟩
    simp [takePayload, State.room, Memory.writeAll]
  | cons b rest ih =>
    simp only [List.length_cons] at h
    obtain ⟨n, rfl⟩ : ∃ k, n = k + 1 := ⟨n - 1, by omega⟩
    have h' : rest.length < n := by omega
    by_cases hr : s.txLen < s.params.txCapacity
    · have hroom : s.room (rest.length + 1) =
          State.room rest.length { s with txBuf := s.txBuf.write s.txLen b, txLen := s.txLen + 1 } + 1 := by
        simp only [State.room]; omega
      simp only [takePayload, appendByte_room hr, ih h', List.length_cons, hroom, List.take_succ_cons,
        Memory.writeAll, Nat.add_sub_add_right]
      simp only [Nat.add_assoc, Nat.add_comm 1]
    · have hroom : ∀ m, s.room m = 0 := fun m => by simp only [State.room]; omega
      simp only [takePayload, appendByte_full hr, ih h', List.length_cons, hroom, Nat.add_sub_add_right]
      simp [Memory.writeAll]

/-- A start condition and an address byte: the bus traffic, and the acknowledge reported. -/
theorem sendAddress_spec (addr : Addr) (rw : Bool) (s : State) :
    ∃ b evs, (sendAddress addr rw s).2 = s.withBus b ∧
      IsAddressed s.timing addr rw (sendAddress addr rw s).1 evs ∧ s.bus.Emits b evs := by
  obtain ⟨e₁, h₁, he₁⟩ := genStart_spec s.timing s.bus
  obtain ⟨e₂, h₂, he₂⟩ := txByte_spec s.timing (addrByte addr rw) (genStart s.timing s.bus)
  exact ⟨_, _, rfl, ⟨e₁, e₂, h₁, h₂, rfl⟩, he₁.trans he₂⟩

theorem stopIf_spec (sendStop : Bool) (s : State) :
    ∃ b evs, stopIf sendStop s = s.withBus b ∧ IsStopIf s.timing sendStop evs ∧ s.bus.Emits b evs := by
  cases sendStop with
  | false => exact ⟨s.bus, [], rfl, rfl, .refl _⟩
  | true =>
    obtain ⟨evs, h, he⟩ := genStop_spec s.timing s.bus
    exact ⟨_, evs, rfl, h, he⟩

/-- R175's loop over indices below the capacity: the traffic of the bytes there, and whether all were acknowledged. -/
theorem sendQueued_spec (n i : Nat) (s : State) (h : i + n ≤ s.params.txCapacity) :
    ∃ ok b evs, sendQueued n i s = .ok (ok, s.withBus b) ∧
      IsDataOut s.timing ((List.range' i n).map s.txBuf.read) ok evs ∧ s.bus.Emits b evs := by
  induction n generalizing i s with
  | zero => exact ⟨true, s.bus, [], rfl, ⟨rfl, rfl⟩, .refl _⟩
  | succ n ih =>
    have hr : memRead .tx i s = .ok (s.txBuf.read i) := memRead_ok (by simp only [State.capacity]; omega)
    obtain ⟨e₁, h₁, he₁⟩ := txByte_spec s.timing (s.txBuf.read i) s.bus
    simp only [sendQueued, hr, List.range'_succ, List.map_cons]
    cases hack : (txByte s.timing (s.txBuf.read i) s.bus).1 with
    | false =>
      rw [hack] at h₁
      exact ⟨false, _, e₁, rfl, .inr ⟨rfl, h₁⟩, he₁⟩
    | true =>
      rw [hack] at h₁
      obtain ⟨ok, b, e₂, heq, h₂, he₂⟩ := ih (i + 1) (s.withBus (txByte s.timing (s.txBuf.read i) s.bus).2)
        (by simp only [State.withBus_params]; omega)
      exact ⟨ok, b, _, by simpa using heq, .inl ⟨e₁, e₂, h₁, by simpa using h₂, rfl⟩, he₁.trans he₂⟩

/-- R177's loop over indices below the capacity: the bytes received, stored from `i` on. -/
theorem receiveInto_spec (n i : Nat) (s : State) (h : i + n ≤ s.params.rxCapacity) :
    ∃ bytes b evs, bytes.length = n ∧
      receiveInto n i s = .ok { s with rxBuf := s.rxBuf.writeAll i bytes, bus := b } ∧
      IsDataIn s.timing bytes evs ∧ s.bus.Emits b evs := by
  induction n generalizing i s with
  | zero => exact ⟨[], s.bus, [], rfl, rfl, rfl, .refl _⟩
  | succ n ih =>
    obtain ⟨e₁, h₁, he₁⟩ := rxByte_spec s.timing (n != 0) s.bus
    have hi : i < s.params.rxCapacity := by omega
    obtain ⟨bytes, b, e₂, hlen, heq, h₂, he₂⟩ := ih (i + 1)
      { s with bus := (rxByte s.timing (n != 0) s.bus).2,
               rxBuf := s.rxBuf.write i (rxByte s.timing (n != 0) s.bus).1 } (by simp only; omega)
    refine ⟨(rxByte s.timing (n != 0) s.bus).1 :: bytes, b, e₁ ++ e₂, by simp [hlen], ?_,
      ⟨e₁, e₂, ?_, h₂, rfl⟩, he₁.trans he₂⟩
    · simp only [receiveInto, memWrite, State.capacity, State.withBus_params, hi, if_true]
      exact heq
    · have : (!bytes.isEmpty) = (n != 0) := by subst hlen; cases bytes <;> simp
      rwa [this]

end Sys2Proof.Machine
end

