-- ==== Sys2Proof/Laws/Decode.lean ====
section
/-! SUPPORT. The bits and fields of a packed word, and what a row's mask keeps of it. -/

namespace Sys2Proof

section Fields

variable (o : Opcode) (a b : Byte) (f : Bool) (v : Word)

/-- Every bit of a packed word, field by field (R81). -/
theorem getLsbD_packWord (i : Nat) :
    (packWord o a b f v).getLsbD i =
      if i < 32 then v.getLsbD i else if i < 33 then f
      else if i < 40 then false else if i < 48 then b.getLsbD (i - 40)
      else if i < 56 then a.getLsbD (i - 48) else o.code.getLsbD (i - 56) := by
  change BitVec.getLsbD (w := 8 + 8 + 8 + 7 + 1 + 32)
    (o.code ++ a ++ b ++ 0#7 ++ BitVec.ofBool f ++ v) i = _
  simp only [BitVec.getLsbD_append, BitVec.getLsbD_zero, BitVec.getLsbD_ofBool, Nat.sub_sub]
  repeat' split
  all_goals first | rfl | (exfalso; omega) | skip
  have : i = 32 := by omega
  subst this
  simp

@[simp] theorem fieldOP_packWord : fieldOP (packWord o a b f v) = o.code := by
  apply BitVec.eq_of_getLsbD_eq
  intro i hi
  simp only [fieldOP, BitVec.getLsbD_extractLsb', hi, decide_true, Bool.true_and, getLsbD_packWord]
  repeat' split
  all_goals first | (exfalso; omega) | (congr 1; omega)

@[simp] theorem fieldA_packWord : fieldA (packWord o a b f v) = a := by
  apply BitVec.eq_of_getLsbD_eq
  intro i hi
  simp only [fieldA, BitVec.getLsbD_extractLsb', hi, decide_true, Bool.true_and, getLsbD_packWord]
  repeat' split
  all_goals first | (exfalso; omega) | (congr 1; omega)

@[simp] theorem fieldAddr_packWord : fieldAddr (packWord o a b f v) = a.setWidth 7 := by
  apply BitVec.eq_of_getLsbD_eq
  intro i hi
  simp only [fieldAddr, BitVec.getLsbD_extractLsb', BitVec.getLsbD_setWidth, hi, decide_true, Bool.true_and,
    getLsbD_packWord]
  repeat' split
  all_goals first | (exfalso; omega) | (congr 1; omega)

@[simp] theorem fieldB_packWord : fieldB (packWord o a b f v) = b := by
  apply BitVec.eq_of_getLsbD_eq
  intro i hi
  simp only [fieldB, BitVec.getLsbD_extractLsb', hi, decide_true, Bool.true_and, getLsbD_packWord]
  repeat' split
  all_goals first | (exfalso; omega) | (congr 1; omega)

@[simp] theorem fieldF_packWord : fieldF (packWord o a b f v) = f := by
  simp only [fieldF, getLsbD_packWord]
  simp

@[simp] theorem fieldV_packWord : fieldV (packWord o a b f v) = v := by
  apply BitVec.eq_of_getLsbD_eq
  intro i hi
  simp only [fieldV, BitVec.getLsbD_extractLsb', hi, decide_true, Bool.true_and, getLsbD_packWord, Nat.zero_add,
    if_true]

/-- A mask that covers OP and RSV keeps of each other field what it covers of that field. -/
theorem packWord_and (ma mb : Byte) (mf : BitVec 1) (mv : Word) :
    packWord o a b f v &&& (0xFF#8 ++ ma ++ mb ++ 0x7F#7 ++ mf ++ mv : CmdWord) =
      o.code ++ (a &&& ma) ++ (b &&& mb) ++ 0#7 ++ (BitVec.ofBool f &&& mf) ++ (v &&& mv) := by
  change HAnd.hAnd (α := BitVec (8 + 8 + 8 + 7 + 1 + 32))
    (o.code ++ a ++ b ++ 0#7 ++ BitVec.ofBool f ++ v) (0xFF#8 ++ ma ++ mb ++ 0x7F#7 ++ mf ++ mv) = _
  have ho : o.code &&& 0xFF#8 = o.code := by cases o <;> rfl
  rw [BitVec.and_append, BitVec.and_append, BitVec.and_append, BitVec.and_append, BitVec.and_append, ho]
  rfl

end Fields

/-- A code of R86 selects its own row. -/
@[simp] theorem opcodeOf_code (o : Opcode) : opcodeOf o.code = some o := by cases o <;> rfl

/-- The row a code selects has that code. -/
theorem code_of_opcodeOf {c : Byte} {o : Opcode} (h : opcodeOf c = some o) : o.code = c := by
  have := List.find?_some h
  simpa using this

end Sys2Proof
end

