-- ==== Sys2Proof/Laws/Traffic.lean ====
section
/-! SUPPORT. What follows from the shape of a piece of bus traffic: the modes it ends in, that it samples only released
lines, its positive waits, its releases of SCL and its least wait. -/

namespace Sys2Proof.Machine

/-- Every wait is the half-period or the poll's 1 microsecond. -/
def KeepsDelays (t : Timing) (evs : List Event) : Prop := ∀ n, Event.wait n ∈ evs → n = t.hp ∨ n = 1

/-- No line is set to neutral input. -/
def NeverNeutral (evs : List Event) : Prop := ∀ l, Event.mode l .input ∉ evs

theorem KeepsDelays.append {t : Timing} {e₁ e₂ : List Event} (h₁ : KeepsDelays t e₁) (h₂ : KeepsDelays t e₂) :
    KeepsDelays t (e₁ ++ e₂) := fun n hn => (List.mem_append.1 hn).elim (h₁ n) (h₂ n)

theorem NeverNeutral.append {e₁ e₂ : List Event} (h₁ : NeverNeutral e₁) (h₂ : NeverNeutral e₂) :
    NeverNeutral (e₁ ++ e₂) := fun l hl => (List.mem_append.1 hl).elim (h₁ l) (h₂ l)

theorem KeepsDelays.positive {t : Timing} {evs : List Event} (h : KeepsDelays t evs) (hpos : 1 ≤ t.hp) :
    waitsPositive evs := fun n hn => by rcases h n hn with rfl | rfl <;> omega

/-- Facts of a piece of traffic that releases SCL `k` times and waits at least `w` half-periods. -/
structure Traffic (t : Timing) (evs : List Event) (k w : Nat) : Prop where
  released : ∀ md mc, samplesReleased md mc evs
  waits : KeepsDelays t evs
  neutral : NeverNeutral evs
  releases : sclReleases evs = k
  total : w * t.hp ≤ waitTotal evs

theorem Traffic.nil (t : Timing) : Traffic t [] 0 0 :=
  ⟨fun _ _ => trivial, fun _ h => absurd h (by simp), fun _ h => absurd h (by simp), rfl, by simp [waitTotal]⟩

theorem Traffic.append {t : Timing} {e₁ e₂ : List Event} {k₁ k₂ w₁ w₂ : Nat} (h₁ : Traffic t e₁ k₁ w₁)
    (h₂ : Traffic t e₂ k₂ w₂) : Traffic t (e₁ ++ e₂) (k₁ + k₂) (w₁ + w₂) where
  released md mc := samplesReleased_append.2 ⟨h₁.released md mc, h₂.released _ _⟩
  waits := h₁.waits.append h₂.waits
  neutral := h₁.neutral.append h₂.neutral
  releases := by rw [sclReleases_append, h₁.releases, h₂.releases]
  total := by rw [waitTotal_append, Nat.add_mul]; exact Nat.add_le_add h₁.total h₂.total

/-! ## The poll and the release of SCL -/

/-- A poll changes no mode, samples SCL only, waits 1 microsecond at a time and releases nothing. -/
structure PollFacts (evs : List Event) : Prop where
  modes : ∀ l m, modeAfter l m evs = m
  released : ∀ md, samplesReleased md .inputPullup evs
  waits : ∀ t, KeepsDelays t evs
  neutral : NeverNeutral evs
  releases : sclReleases evs = 0
  noSda : samplesOf .sda evs = []

theorem PollFacts.append {e₁ e₂ : List Event} (h₁ : PollFacts e₁) (h₂ : PollFacts e₂) :
    PollFacts (e₁ ++ e₂) where
  modes l m := by rw [modeAfter_append, h₁.modes, h₂.modes]
  released md := samplesReleased_append.2
    ⟨h₁.released md, by rw [h₁.modes, h₁.modes]; exact h₂.released md⟩
  waits t := (h₁.waits t).append (h₂.waits t)
  neutral := h₁.neutral.append h₂.neutral
  releases := by rw [sclReleases_append, h₁.releases, h₂.releases]
  noSda := by rw [samplesOf_append, h₁.noSda, h₂.noSda]; rfl

theorem pollFacts_sample (lvl : Level) : PollFacts [.sample .scl lvl] :=
  ⟨fun _ _ => rfl, fun _ => ⟨rfl, trivial⟩, by simp [KeepsDelays], by simp [NeverNeutral], rfl, rfl⟩

theorem pollFacts_lowPolls (j : Nat) : PollFacts (lowPolls j) := by
  induction j with
  | zero => exact ⟨fun _ _ => rfl, fun _ => trivial, by simp [KeepsDelays, lowPolls],
      by simp [NeverNeutral, lowPolls], rfl, rfl⟩
  | succ j ih =>
    rw [lowPolls_succ]
    exact .append ⟨fun _ _ => rfl, fun _ => ⟨rfl, trivial⟩, by simp [KeepsDelays], by simp [NeverNeutral], rfl, rfl⟩ ih

theorem IsPoll.facts {n : Nat} {evs : List Event} (h : IsPoll n evs) : PollFacts evs := by
  rcases h with ⟨j, -, rfl⟩ | rfl
  · exact (pollFacts_lowPolls j).append (pollFacts_sample true)
  · exact (pollFacts_lowPolls n).append (pollFacts_sample false)

theorem IsRelease.sdaMode {t : Timing} {evs : List Event} (h : IsRelease t evs) (m : PinMode) :
    modeAfter .sda m evs = m := by
  obtain ⟨p, hp, rfl⟩ := h
  simp [modeAfter, hp.facts.modes]

theorem IsRelease.sclMode {t : Timing} {evs : List Event} (h : IsRelease t evs) (m : PinMode) :
    modeAfter .scl m evs = .inputPullup := by
  obtain ⟨p, hp, rfl⟩ := h
  simp [modeAfter, hp.facts.modes, DriveMode.pinMode]

theorem IsRelease.noSda {t : Timing} {evs : List Event} (h : IsRelease t evs) : samplesOf .sda evs = [] := by
  obtain ⟨p, hp, rfl⟩ := h
  simp [samplesOf, hp.facts.noSda]

theorem IsRelease.traffic {t : Timing} {evs : List Event} (h : IsRelease t evs) : Traffic t evs 1 1 := by
  obtain ⟨p, hp, rfl⟩ := h
  have hf := hp.facts
  exact ⟨fun md _ => hf.released md, fun n hn => by
      simp only [List.mem_cons, reduceCtorEq, Event.wait.injEq, false_or] at hn
      exact hn.elim .inl (hf.waits t n),
    fun l hl => by
      simp only [List.mem_cons, reduceCtorEq, Event.mode.injEq, and_false, false_or] at hl
      exact hf.neutral l hl,
    by simp [sclReleases, hf.releases], by simp [waitTotal]⟩

/-! ## Single events -/

theorem traffic_mode_sda (t : Timing) {m : DriveMode} (hm : m ≠ .input) : Traffic t [.mode .sda m] 0 0 :=
  ⟨fun _ _ => trivial, by simp [KeepsDelays], by simpa [NeverNeutral] using fun h => hm h.symm, rfl,
    by simp [waitTotal]⟩

theorem traffic_scl_low (t : Timing) : Traffic t [.mode .scl .outputLow] 0 0 :=
  ⟨fun _ _ => trivial, by simp [KeepsDelays], by simp [NeverNeutral], rfl, by simp [waitTotal]⟩

theorem traffic_wait (t : Timing) : Traffic t [.wait t.hp] 0 1 :=
  ⟨fun _ _ => trivial, by simp [KeepsDelays], by simp [NeverNeutral], rfl, by simp [waitTotal]⟩

/-! ## Start, stop, bits -/

theorem IsStart.traffic {t : Timing} {evs : List Event} (h : IsStart t evs) : Traffic t evs 1 3 := by
  obtain ⟨r, hr, rfl⟩ := h
  simpa using (traffic_mode_sda t (m := .inputPullup) (by simp)).append (hr.traffic.append ((traffic_wait t).append
    ((traffic_mode_sda t (m := .outputLow) (by simp)).append ((traffic_wait t).append (traffic_scl_low t)))))

theorem IsStart.ends {t : Timing} {evs : List Event} (h : IsStart t evs) (md mc : PinMode) :
    modeAfter .sda md evs = .outputLow ∧ modeAfter .scl mc evs = .outputLow := by
  obtain ⟨r, hr, rfl⟩ := h
  simp [modeAfter, modeAfter_append, DriveMode.pinMode]

theorem IsStop.traffic {t : Timing} {evs : List Event} (h : IsStop t evs) : Traffic t evs 1 4 := by
  obtain ⟨r, hr, rfl⟩ := h
  simpa using (traffic_mode_sda t (m := .outputLow) (by simp)).append ((traffic_wait t).append (hr.traffic.append
    ((traffic_wait t).append ((traffic_mode_sda t (m := .inputPullup) (by simp)).append (traffic_wait t)))))

theorem IsStop.ends {t : Timing} {evs : List Event} (h : IsStop t evs) (md mc : PinMode) :
    modeAfter .sda md evs = .inputPullup ∧ modeAfter .scl mc evs = .inputPullup := by
  obtain ⟨r, hr, rfl⟩ := h
  simp [modeAfter, modeAfter_append, DriveMode.pinMode, hr.sclMode]

theorem IsBitOut.traffic {t : Timing} {bit : Bool} {evs : List Event} (h : IsBitOut t bit evs) :
    Traffic t evs 1 2 := by
  obtain ⟨r, hr, rfl⟩ := h
  simpa using (traffic_mode_sda t (by cases bit <;> simp)).append
    ((traffic_wait t).append (hr.traffic.append (traffic_scl_low t)))

theorem IsBitOut.ends {t : Timing} {bit : Bool} {evs : List Event} (h : IsBitOut t bit evs) (md mc : PinMode) :
    modeAfter .sda md evs = (if bit then .inputPullup else .outputLow) ∧
      modeAfter .scl mc evs = .outputLow := by
  obtain ⟨r, hr, rfl⟩ := h
  cases bit <;> simp [modeAfter, modeAfter_append, DriveMode.pinMode, hr.sdaMode]

theorem IsBitOut.noSda {t : Timing} {bit : Bool} {evs : List Event} (h : IsBitOut t bit evs) :
    samplesOf .sda evs = [] := by
  obtain ⟨r, hr, rfl⟩ := h
  simp [samplesOf, samplesOf_append, hr.noSda]

theorem IsBitIn.traffic {t : Timing} {lvl : Level} {evs : List Event} (h : IsBitIn t lvl evs) :
    Traffic t evs 1 2 := by
  obtain ⟨r, hr, rfl⟩ := h
  have hh := (traffic_mode_sda t (m := .inputPullup) (by simp)).append ((traffic_wait t).append hr.traffic)
  refine ⟨fun md mc => ?_, fun n hn => ?_, fun l hl => ?_, ?_, ?_⟩
  · have h1 := hh.released md mc
    simp only [List.cons_append, List.nil_append] at h1
    rw [← List.cons_append, ← List.cons_append, samplesReleased_append]
    exact ⟨h1, by simp [modeAfter, hr.sdaMode, DriveMode.pinMode], trivial⟩
  · have h1 := hh.waits n
    simp only [List.mem_append, List.mem_cons, List.not_mem_nil, or_false, reduceCtorEq, false_or] at hn h1
    exact h1 hn
  · have h1 := hh.neutral l
    simp only [List.mem_append, List.mem_cons, List.not_mem_nil, or_false, reduceCtorEq, false_or,
      Event.mode.injEq, and_false] at hl h1
    exact h1 hl
  · simpa [sclReleases, sclReleases_append] using hr.traffic.releases
  · have h1 := hr.traffic.total
    simp only [waitTotal, waitTotal_append]
    omega

theorem IsBitIn.ends {t : Timing} {lvl : Level} {evs : List Event} (h : IsBitIn t lvl evs) (md mc : PinMode) :
    modeAfter .sda md evs = .inputPullup ∧ modeAfter .scl mc evs = .outputLow := by
  obtain ⟨r, hr, rfl⟩ := h
  simp [modeAfter, modeAfter_append, DriveMode.pinMode, hr.sdaMode]

theorem IsBitIn.sda {t : Timing} {lvl : Level} {evs : List Event} (h : IsBitIn t lvl evs) :
    samplesOf .sda evs = [lvl] := by
  obtain ⟨r, hr, rfl⟩ := h
  simp [samplesOf, samplesOf_append, hr.noSda]

theorem IsBitsOut.traffic {t : Timing} {bits : List Bool} {evs : List Event} (h : IsBitsOut t bits evs) :
    Traffic t evs bits.length (2 * bits.length) := by
  induction bits generalizing evs with
  | nil => cases h; exact .nil t
  | cons bit bits ih =>
    obtain ⟨e₁, e₂, h₁, h₂, rfl⟩ := h
    have hh := h₁.traffic.append (ih h₂)
    rwa [show 1 + bits.length = (bit :: bits).length by simp [Nat.add_comm],
      show 2 + 2 * bits.length = 2 * (bit :: bits).length by simp; omega] at hh

theorem IsBitsOut.noSda {t : Timing} {bits : List Bool} {evs : List Event} (h : IsBitsOut t bits evs) :
    samplesOf .sda evs = [] := by
  induction bits generalizing evs with
  | nil => cases h; rfl
  | cons bit bits ih =>
    obtain ⟨e₁, e₂, h₁, h₂, rfl⟩ := h
    rw [samplesOf_append, h₁.noSda, ih h₂]; rfl

theorem IsBitsIn.traffic {t : Timing} {lvls : List Level} {evs : List Event} (h : IsBitsIn t lvls evs) :
    Traffic t evs lvls.length (2 * lvls.length) := by
  induction lvls generalizing evs with
  | nil => cases h; exact .nil t
  | cons lvl lvls ih =>
    obtain ⟨e₁, e₂, h₁, h₂, rfl⟩ := h
    have hh := h₁.traffic.append (ih h₂)
    rwa [show 1 + lvls.length = (lvl :: lvls).length by simp [Nat.add_comm],
      show 2 + 2 * lvls.length = 2 * (lvl :: lvls).length by simp; omega] at hh

theorem IsBitsIn.sda {t : Timing} {lvls : List Level} {evs : List Event} (h : IsBitsIn t lvls evs) :
    samplesOf .sda evs = lvls := by
  induction lvls generalizing evs with
  | nil => cases h; rfl
  | cons lvl lvls ih =>
    obtain ⟨e₁, e₂, h₁, h₂, rfl⟩ := h
    rw [samplesOf_append, h₁.sda, ih h₂]; rfl

/-! ## Bytes -/

theorem IsByteOut.traffic {t : Timing} {v : Byte} {ack : Bool} {evs : List Event} (h : IsByteOut t v ack evs) :
    Traffic t evs 9 18 := by
  obtain ⟨e₁, e₂, h₁, h₂, rfl⟩ := h
  exact h₁.traffic.append h₂.traffic

theorem IsByteOut.ends {t : Timing} {v : Byte} {ack : Bool} {evs : List Event} (h : IsByteOut t v ack evs)
    (md mc : PinMode) : modeAfter .sda md evs = .inputPullup ∧ modeAfter .scl mc evs = .outputLow := by
  obtain ⟨e₁, e₂, h₁, h₂, rfl⟩ := h
  rw [modeAfter_append, modeAfter_append]
  exact h₂.ends _ _

theorem IsByteOut.sda {t : Timing} {v : Byte} {ack : Bool} {evs : List Event} (h : IsByteOut t v ack evs) :
    samplesOf .sda evs = [!ack] := by
  obtain ⟨e₁, e₂, h₁, h₂, rfl⟩ := h
  rw [samplesOf_append, h₁.noSda, h₂.sda]; rfl

theorem IsByteIn.traffic {t : Timing} {v : Byte} {ack : Bool} {evs : List Event} (h : IsByteIn t v ack evs) :
    Traffic t evs 9 18 := by
  obtain ⟨e₁, e₂, h₁, h₂, rfl⟩ := h
  exact h₁.traffic.append h₂.traffic

theorem IsByteIn.ends {t : Timing} {v : Byte} {ack : Bool} {evs : List Event} (h : IsByteIn t v ack evs)
    (md mc : PinMode) :
    modeAfter .sda md evs = (if ack then .outputLow else .inputPullup) ∧ modeAfter .scl mc evs = .outputLow := by
  obtain ⟨e₁, e₂, h₁, h₂, rfl⟩ := h
  rw [modeAfter_append, modeAfter_append]
  have := h₂.ends (modeAfter .sda md e₁) (modeAfter .scl mc e₁)
  cases ack <;> simpa using this

theorem IsByteIn.sda {t : Timing} {v : Byte} {ack : Bool} {evs : List Event} (h : IsByteIn t v ack evs) :
    samplesOf .sda evs = msbFirst v := by
  obtain ⟨e₁, e₂, h₁, h₂, rfl⟩ := h
  rw [samplesOf_append, h₁.sda, h₂.noSda, List.append_nil]

/-! ## Addressing and data phases -/

theorem IsAddressed.traffic {t : Timing} {addr : Addr} {rw ack : Bool} {evs : List Event}
    (h : IsAddressed t addr rw ack evs) : Traffic t evs 10 21 := by
  obtain ⟨e₁, e₂, h₁, h₂, rfl⟩ := h
  exact h₁.traffic.append h₂.traffic

theorem IsAddressed.ends {t : Timing} {addr : Addr} {rw ack : Bool} {evs : List Event}
    (h : IsAddressed t addr rw ack evs) (md mc : PinMode) :
    modeAfter .sda md evs = .inputPullup ∧ modeAfter .scl mc evs = .outputLow := by
  obtain ⟨e₁, e₂, h₁, h₂, rfl⟩ := h
  rw [modeAfter_append, modeAfter_append]
  exact h₂.ends _ _

/-- CLOSE_TX's data phase is `k` byte groups, every queued byte's if all were acknowledged. -/
theorem IsDataOut.traffic {t : Timing} {vs : List Byte} {ok : Bool} {evs : List Event}
    (h : IsDataOut t vs ok evs) :
    ∃ k, k ≤ vs.length ∧ (ok = true → k = vs.length) ∧ Traffic t evs (9 * k) (18 * k) := by
  induction vs generalizing evs with
  | nil => obtain ⟨-, rfl⟩ := h; exact ⟨0, by simp, by simp, .nil t⟩
  | cons v vs ih =>
    rcases h with ⟨e₁, e₂, h₁, h₂, rfl⟩ | ⟨rfl, h₁⟩
    · obtain ⟨k, hk, hok, ht⟩ := ih h₂
      refine ⟨k + 1, by simpa using hk, fun h => by simp [hok h], ?_⟩
      have := h₁.traffic.append ht
      rwa [show 9 + 9 * k = 9 * (k + 1) by omega, show 18 + 18 * k = 18 * (k + 1) by omega] at this
    · exact ⟨1, by simp, by simp, h₁.traffic⟩

/-- The data phase ends with SDA released and SCL low, as the address byte left them. -/
theorem IsDataOut.ends {t : Timing} {vs : List Byte} {ok : Bool} {evs : List Event} (h : IsDataOut t vs ok evs) :
    modeAfter .sda .inputPullup evs = .inputPullup ∧ modeAfter .scl .outputLow evs = .outputLow := by
  induction vs generalizing evs with
  | nil => obtain ⟨-, rfl⟩ := h; exact ⟨rfl, rfl⟩
  | cons v vs ih =>
    rcases h with ⟨e₁, e₂, h₁, h₂, rfl⟩ | ⟨-, h₁⟩
    · rw [modeAfter_append, modeAfter_append, (h₁.ends _ .outputLow).1, (h₁.ends .inputPullup _).2]
      exact ih h₂
    · exact h₁.ends _ _

theorem IsDataIn.traffic {t : Timing} {vs : List Byte} {evs : List Event} (h : IsDataIn t vs evs) :
    Traffic t evs (9 * vs.length) (18 * vs.length) := by
  induction vs generalizing evs with
  | nil => cases h; exact .nil t
  | cons v vs ih =>
    obtain ⟨e₁, e₂, h₁, h₂, rfl⟩ := h
    have := h₁.traffic.append (ih h₂)
    rwa [show 9 + 9 * vs.length = 9 * (v :: vs).length by simp; omega,
      show 18 + 18 * vs.length = 18 * (v :: vs).length by simp; omega] at this

/-- REQUEST's data phase ends with SDA released (the last byte is not acknowledged) and SCL low. -/
theorem IsDataIn.ends {t : Timing} {vs : List Byte} {evs : List Event} (h : IsDataIn t vs evs) (hne : vs ≠ [])
    (md mc : PinMode) : modeAfter .sda md evs = .inputPullup ∧ modeAfter .scl mc evs = .outputLow := by
  induction vs generalizing evs md mc with
  | nil => exact absurd rfl hne
  | cons v vs ih =>
    obtain ⟨e₁, e₂, h₁, h₂, rfl⟩ := h
    rw [modeAfter_append, modeAfter_append]
    cases vs with
    | nil => cases h₂; simpa [modeAfter] using h₁.ends md mc
    | cons w ws => exact ih h₂ (by simp) _ _

theorem IsDataIn.sda {t : Timing} {vs : List Byte} {evs : List Event} (h : IsDataIn t vs evs) :
    samplesOf .sda evs = vs.flatMap msbFirst := by
  induction vs generalizing evs with
  | nil => cases h; rfl
  | cons v vs ih =>
    obtain ⟨e₁, e₂, h₁, h₂, rfl⟩ := h
    rw [samplesOf_append, h₁.sda, ih h₂]; rfl

end Sys2Proof.Machine
end

