-- ==== Sys2Proof/Laws/Exec.lean ====
section
/-! SUPPORT. Say once what a command can do: `exec` answers `next t` only in one of the cases of `ExecCase`, from which
every invariant and whole-machine rule follows without unfolding a meaning. -/

namespace Sys2Proof.Machine

/-! ## Bus work: what every bus procedure keeps to -/

/-- Some events were emitted that sample released lines only, wait half-periods and poll waits only, and set no line to
neutral. -/
def BusWork (t : Timing) (b b' : Bus) : Prop :=
  ∃ evs, b.Emits b' evs ∧ (∀ md mc, samplesReleased md mc evs) ∧ KeepsDelays t evs ∧ NeverNeutral evs

/-- Each line is released or driven low. -/
def Bus.Held (b : Bus) : Prop :=
  (b.sdaMode = .inputPullup ∨ b.sdaMode = .outputLow) ∧ (b.sclMode = .inputPullup ∨ b.sclMode = .outputLow)

theorem BusWork.of {t : Timing} {b b' : Bus} {evs : List Event} {k w : Nat} (he : b.Emits b' evs)
    (ht : Traffic t evs k w) : BusWork t b b' := ⟨evs, he, ht.released, ht.waits, ht.neutral⟩

theorem BusWork.refl (t : Timing) (b : Bus) : BusWork t b b := .of (.refl b) (.nil t)

theorem BusWork.trans {t : Timing} {b₁ b₂ b₃ : Bus} (h₁ : BusWork t b₁ b₂) (h₂ : BusWork t b₂ b₃) :
    BusWork t b₁ b₃ := by
  obtain ⟨e₁, he₁, hr₁, hw₁, hn₁⟩ := h₁
  obtain ⟨e₂, he₂, hr₂, hw₂, hn₂⟩ := h₂
  exact ⟨_, he₁.trans he₂, fun _ _ => samplesReleased_append.2 ⟨hr₁ _ _, hr₂ _ _⟩,
    hw₁.append hw₂, hn₁.append hn₂⟩

theorem Bus.Emits.held {b b' : Bus} {evs : List Event} {md mc : PinMode} (he : b.Emits b' evs)
    (h : modeAfter .sda b.sdaMode evs = md ∧ modeAfter .scl b.sclMode evs = mc)
    (hd : md = .inputPullup ∨ md = .outputLow) (hc : mc = .inputPullup ∨ mc = .outputLow) : b'.Held := by
  unfold Bus.Held
  rw [he.sdaMode, he.sclMode, h.1, h.2]
  exact ⟨hd, hc⟩

theorem genStart_work (t : Timing) (b : Bus) : BusWork t b (genStart t b) ∧ (genStart t b).Held := by
  obtain ⟨evs, h, he⟩ := genStart_spec t b
  exact ⟨.of he h.traffic, he.held (h.ends _ _) (.inr rfl) (.inr rfl)⟩

theorem genStop_work (t : Timing) (b : Bus) : BusWork t b (genStop t b) ∧ (genStop t b).Held := by
  obtain ⟨evs, h, he⟩ := genStop_spec t b
  exact ⟨.of he h.traffic, he.held (h.ends _ _) (.inl rfl) (.inl rfl)⟩

theorem txBit_work (t : Timing) (bit : Bool) (b : Bus) : BusWork t b (txBit t bit b) ∧ (txBit t bit b).Held := by
  obtain ⟨evs, h, he⟩ := txBit_spec t bit b
  exact ⟨.of he h.traffic, he.held (h.ends _ _) (by cases bit <;> simp) (.inr rfl)⟩

theorem rxBit_work (t : Timing) (b : Bus) : BusWork t b (rxBit t b).2 ∧ (rxBit t b).2.Held := by
  obtain ⟨evs, h, he⟩ := rxBit_spec t b
  exact ⟨.of he h.traffic, he.held (h.ends _ _) (.inl rfl) (.inr rfl)⟩

theorem txByte_work (t : Timing) (v : Byte) (b : Bus) :
    BusWork t b (txByte t v b).2 ∧ (txByte t v b).2.Held := by
  obtain ⟨evs, h, he⟩ := txByte_spec t v b
  exact ⟨.of he h.traffic, he.held (h.ends _ _) (.inl rfl) (.inr rfl)⟩

theorem rxByte_work (t : Timing) (ack : Bool) (b : Bus) :
    BusWork t b (rxByte t ack b).2 ∧ (rxByte t ack b).2.Held := by
  obtain ⟨evs, h, he⟩ := rxByte_spec t ack b
  exact ⟨.of he h.traffic, he.held (h.ends _ _) (by cases ack <;> simp) (.inr rfl)⟩

theorem sendAddress_work (addr : Addr) (rw : Bool) (s : State) :
    ∃ b, (sendAddress addr rw s).2 = s.withBus b ∧ BusWork s.timing s.bus b ∧ b.Held := by
  obtain ⟨b, evs, hb, h, he⟩ := sendAddress_spec addr rw s
  exact ⟨b, hb, .of he h.traffic, he.held (h.ends _ _) (.inl rfl) (.inr rfl)⟩

theorem stopIf_work (sendStop : Bool) (s : State) (hh : s.bus.Held) :
    ∃ b, stopIf sendStop s = s.withBus b ∧ BusWork s.timing s.bus b ∧ b.Held := by
  cases sendStop with
  | false => exact ⟨s.bus, rfl, .refl _ _, hh⟩
  | true => exact ⟨_, rfl, genStop_work _ _⟩

theorem sendQueued_work {n i : Nat} {s s' : State} {ok : Bool} (h : sendQueued n i s = .ok (ok, s'))
    (hh : s.bus.Held) : ∃ b, s' = s.withBus b ∧ BusWork s.timing s.bus b ∧ b.Held := by
  induction n generalizing i s with
  | zero =>
    simp only [sendQueued, Except.ok.injEq, Prod.mk.injEq] at h
    exact ⟨s.bus, h.2.symm, .refl _ _, hh⟩
  | succ n ih =>
    simp only [sendQueued] at h
    split at h
    · cases h
    · next v _ =>
      obtain ⟨hw, hheld⟩ := txByte_work s.timing v s.bus
      split at h
      · obtain ⟨b, rfl, hw', hb⟩ := ih h hheld
        exact ⟨b, rfl, hw.trans hw', hb⟩
      · simp only [Except.ok.injEq, Prod.mk.injEq] at h
        exact ⟨_, h.2.symm, hw, hheld⟩

/-- REQUEST's loop never faults, and leaves everything but the receive buffer and the bus. -/
theorem receiveInto_work (n i : Nat) (s : State) (h : i + n ≤ s.params.rxCapacity) (hh : s.bus.Held) :
    ∃ bytes b, bytes.length = n ∧
      receiveInto n i s = .ok { s with rxBuf := s.rxBuf.writeAll i bytes, bus := b } ∧
      BusWork s.timing s.bus b ∧ b.Held := by
  induction n generalizing i s with
  | zero => exact ⟨[], s.bus, rfl, rfl, .refl _ _, hh⟩
  | succ n ih =>
    obtain ⟨hw, hheld⟩ := rxByte_work s.timing (n != 0) s.bus
    have hi : i < s.params.rxCapacity := by omega
    obtain ⟨bytes, b, hlen, heq, hw', hb⟩ := ih (i + 1)
      { s with bus := (rxByte s.timing (n != 0) s.bus).2,
               rxBuf := s.rxBuf.write i (rxByte s.timing (n != 0) s.bus).1 } (by simp only; omega) hheld
    refine ⟨(rxByte s.timing (n != 0) s.bus).1 :: bytes, b, by simp [hlen], ?_, hw.trans hw', hb⟩
    simp only [receiveInto, memWrite, State.capacity, State.withBus_params, hi, if_true]
    exact heq

/-! ## The cases of exec -/

/-- Every way a command can answer a next state. -/
inductive ExecCase (s : State) : Instr → State → Prop where
  | configure (sda scl : PinId) (hne : sda ≠ scl) :
      ExecCase s (.configure sda scl)
        ({ s with sdaPin := sda, sclPin := scl, pinsBound := true, bus := settle s.timing s.bus,
                  configured := true }.ret 0#32)
  | pinConflict (pin : PinId) : ExecCase s (.configure pin pin) (s.raise .pinConflict)
  | release :
      ExecCase s .release
        ({ s with bus := if s.pinsBound then relinquish s.bus else s.bus, configured := false }.ret 0#32)
  | clockKept (v : Word) (h : v.toInt ≤ 0) : ExecCase s (.setClock v) (s.ret 0#32)
  | clockSet (v : Word) (h : 0 < v.toInt) :
      ExecCase s (.setClock v) ({ s with hp := halfPeriodOf v.toInt.toNat }.ret 0#32)
  | notConfigured (i : Instr) (hi : needsConfigured i = true) (hc : s.configured = false) :
      ExecCase s i (s.raise .notConfigured)
  | onBus (i : Instr) (b : Bus) (r : Word) (hi : needsConfigured i = true) (hc : s.configured = true)
      (hq : ∀ addr qty stop, i ≠ .request addr qty stop) (hw : BusWork s.timing s.bus b) (hh : b.Held) :
      ExecCase s i ((s.withBus b).ret r)
  | requestNack (addr : Addr) (qty : Word) (sendStop : Bool) (b : Bus) (hc : s.configured = true)
      (hw : BusWork s.timing s.bus b) (hh : b.Held) :
      ExecCase s (.request addr qty sendStop) ({ s with rxLen := 0, rxCursor := 0, bus := b }.ret 0#32)
  | requestAck (addr : Addr) (qty : Word) (sendStop : Bool) (b : Bus) (bytes : List Byte)
      (hc : s.configured = true) (hn : bytes.length = clampQuantity qty s) (hw : BusWork s.timing s.bus b)
      (hh : b.Held) :
      ExecCase s (.request addr qty sendStop)
        ({ s with rxLen := clampQuantity qty s, rxCursor := 0, bus := b,
                  rxBuf := s.rxBuf.writeAll 0 bytes }.ret (countResult (clampQuantity qty s)))
  | openTx (addr : Addr) : ExecCase s (.openTx addr) ({ s with txAddr := addr, txLen := 0 }.ret 0#32)
  | queued (v : Byte) (h : s.txLen < s.params.txCapacity) :
      ExecCase s (.queueByte v) ({ s with txBuf := s.txBuf.write s.txLen v, txLen := s.txLen + 1 }.ret 1#32)
  | queueFull (v : Byte) (h : s.params.txCapacity ≤ s.txLen) : ExecCase s (.queueByte v) (s.ret 0#32)
  | queueBytes (n : Word) (t : State) (h : takePayload s.payloadIn n.toNat 0 s = .ok t) :
      ExecCase s (.queueBytes n) t
  | read (v : Byte) (h : s.rxCursor < s.rxLen) (hv : memRead .rx s.rxCursor s = .ok v) :
      ExecCase s .read ({ s with rxCursor := s.rxCursor + 1 }.ret (byteResult v))
  | readEmpty (h : s.rxLen ≤ s.rxCursor) : ExecCase s .read (s.ret sentinel)
  | peek (v : Byte) (h : s.rxCursor < s.rxLen) (hv : memRead .rx s.rxCursor s = .ok v) :
      ExecCase s .peek (s.ret (byteResult v))
  | peekEmpty (h : s.rxLen ≤ s.rxCursor) : ExecCase s .peek (s.ret sentinel)
  | available : ExecCase s .available (s.ret (countResult ((s.rxLen : Int) - (s.rxCursor : Int))))

/-- A meaning behind R202's check answers either the fault entry or its own. -/
theorem whenConfigured_next {s t : State} {body : Host.Outcome State Fault Refusal}
    (h : whenConfigured s body = .next t) :
    (s.configured = false ∧ t = s.raise .notConfigured) ∨ (s.configured = true ∧ body = .next t) := by
  unfold whenConfigured at h
  cases hc : s.configured with
  | false =>
    rw [hc] at h
    cases h
    exact .inl ⟨rfl, rfl⟩
  | true =>
    rw [hc] at h
    exact .inr ⟨rfl, h⟩

theorem execCloseTx_case {sendStop : Bool} {s t : State} (h : execCloseTx sendStop s = .next t) :
    ExecCase s (.closeTx sendStop) t := by
  obtain ⟨hc, rfl⟩ | ⟨hc, h⟩ := whenConfigured_next h
  · exact .notConfigured _ rfl hc
  · obtain ⟨b, hb, hw, hh⟩ := sendAddress_work s.txAddr false s
    have finish : ∀ (b' : Bus) (st : Status), BusWork s.timing s.bus b' → b'.Held →
        ExecCase s (.closeTx sendStop) ((stopIf sendStop (s.withBus b')).ret (statusResult st)) := by
      intro b' st hw' hh'
      obtain ⟨b₂, hb₂, hw₂, hh₂⟩ := stopIf_work sendStop (s.withBus b') hh'
      rw [hb₂]
      exact .onBus _ b₂ _ rfl hc (by simp) (hw'.trans hw₂) hh₂
    cases hsent : sendAddress s.txAddr false s with
    | mk ack s₁ =>
      obtain rfl : s₁ = s.withBus b := by rw [← hb, hsent]
      rw [hsent] at h
      cases ack with
      | false => cases h; exact finish b _ hw hh
      | true =>
        simp only at h
        split at h
        · cases h
        · next s₂ hq =>
          obtain ⟨b', rfl, hw', hh'⟩ := sendQueued_work hq hh
          cases h; exact finish b' _ (hw.trans hw') hh'
        · next s₂ hq =>
          obtain ⟨b', rfl, hw', hh'⟩ := sendQueued_work hq hh
          cases h; exact finish b' _ (hw.trans hw') hh'

theorem execRequest_case {addr : Addr} {qty : Word} {sendStop : Bool} {s t : State}
    (h : execRequest addr qty sendStop s = .next t) : ExecCase s (.request addr qty sendStop) t := by
  obtain ⟨hc, rfl⟩ | ⟨hc, h⟩ := whenConfigured_next h
  · exact .notConfigured _ rfl hc
  · generalize hs₀ : ({ s with rxLen := 0, rxCursor := 0 } : State) = s₀ at h
    obtain ⟨b, hb, hw, hh⟩ := sendAddress_work addr true s₀
    cases hsent : sendAddress addr true s₀ with
    | mk ack s₁ =>
      obtain rfl : s₁ = s₀.withBus b := by rw [← hb, hsent]
      rw [hsent] at h
      cases ack with
      | false =>
        obtain ⟨b', hb', hw', hh'⟩ := stopIf_work sendStop (s₀.withBus b) hh
        simp only [hb'] at h
        cases h; subst hs₀
        exact .requestNack _ _ _ b' hc (hw.trans hw') hh'
      | true =>
        obtain ⟨bytes, b₂, hlen, hok, hw₂, hh₂⟩ := receiveInto_work (clampQuantity qty s) 0 (s₀.withBus b)
          (by subst hs₀; simp [clampQuantity]) hh
        obtain ⟨b', hb', hw', hh'⟩ := stopIf_work sendStop
          { s₀ with rxBuf := s₀.rxBuf.writeAll 0 bytes, bus := b₂, rxLen := clampQuantity qty s } hh₂
        simp only [hok] at h
        replace h : Host.Outcome.next (State.ret (countResult (clampQuantity qty s)) (stopIf sendStop
            { s₀ with rxBuf := s₀.rxBuf.writeAll 0 bytes, bus := b₂, rxLen := clampQuantity qty s })) = .next t := h
        rw [hb'] at h
        cases h; subst hs₀
        exact .requestAck _ _ _ b' bytes hc hlen ((hw.trans hw₂).trans hw') hh'

/-- What a command can do. -/
theorem exec_cases {i : Instr} {s t : State} (h : exec i s = .next t) : ExecCase s i t := by
  have onBus : ∀ (j : Instr) (b : Bus) (r : Word), needsConfigured j = true →
      (∀ addr qty stop, j ≠ .request addr qty stop) → BusWork s.timing s.bus b ∧ b.Held →
      whenConfigured s (.next ((s.withBus b).ret r)) = .next t → ExecCase s j t := by
    intro j b r hj hq hb h
    obtain ⟨hc, rfl⟩ | ⟨hc, h⟩ := whenConfigured_next h
    · exact .notConfigured _ hj hc
    · cases h; exact .onBus _ _ _ hj hc hq hb.1 hb.2
  cases i with
  | configure sda scl =>
    simp only [exec, execConfigure] at h
    split at h
    · next heq => subst heq; cases h; exact .pinConflict _
    · next hne => cases h; exact .configure _ _ hne
  | release => cases h; exact .release
  | setClock v =>
    by_cases hle : v.toInt ≤ 0
    · simp only [exec, execSetClock, frequency, hle, if_true] at h; cases h; exact .clockKept v hle
    · simp only [exec, execSetClock, frequency, hle, if_false] at h; cases h; exact .clockSet v (by omega)
  | start => exact onBus _ _ _ rfl (by simp) (genStart_work _ _) h
  | stop => exact onBus _ _ _ rfl (by simp) (genStop_work _ _) h
  | writeBit bit => exact onBus _ _ _ rfl (by simp) (txBit_work _ _ _) h
  | readBit => exact onBus _ _ _ rfl (by simp) (rxBit_work _ _) h
  | writeByte v => exact onBus _ _ _ rfl (by simp) (txByte_work _ _ _) h
  | readByte ack => exact onBus _ _ _ rfl (by simp) (rxByte_work _ _ _) h
  | openTx addr => cases h; exact .openTx addr
  | queueByte v =>
    simp only [exec, execQueueByte] at h
    by_cases hr : s.txLen < s.params.txCapacity
    · rw [appendByte_room hr] at h; cases h; exact .queued v hr
    · rw [appendByte_full hr] at h; cases h; exact .queueFull v (by omega)
  | queueBytes n =>
    simp only [exec, execQueueBytes, quantity] at h
    cases ht : takePayload s.payloadIn n.toNat 0 s with
    | error f => rw [ht] at h; cases h
    | ok t' => rw [ht] at h; cases h; exact .queueBytes n _ ht
  | closeTx sendStop => exact execCloseTx_case h
  | request addr qty sendStop => exact execRequest_case h
  | read =>
    simp only [exec, execRead] at h
    split at h
    · next hlt =>
      split at h
      · next v hv => cases h; exact .read v hlt hv
      · cases h
    · next hge => cases h; exact .readEmpty (by omega)
  | peek =>
    simp only [exec, execPeek] at h
    split at h
    · next hlt =>
      split at h
      · next v hv => cases h; exact .peek v hlt hv
      · cases h
    · next hge => cases h; exact .peekEmpty (by omega)
  | available => cases h; exact .available
  | probe addr =>
    simp only [exec, execProbe] at h
    obtain ⟨b, hb, hw, hh⟩ := sendAddress_work addr false s
    obtain ⟨b', hb', hw', hh'⟩ := stopIf_work true (s.withBus b) hh
    rw [hb, hb'] at h
    exact onBus _ b' _ rfl (by simp) ⟨hw.trans hw', hh'⟩ h

/-! ## What every case does to the bus side, and where a command may have begun -/

theorem settle_emits (t : Timing) (b : Bus) :
    b.Emits (settle t b) [.mode .sda .inputPullup, .mode .scl .inputPullup, .wait t.hp] :=
  ((Bus.emits_setMode .sda .inputPullup b).trans (Bus.emits_setMode .scl .inputPullup _)).trans
    (Bus.emits_delay t.hp _)

theorem relinquish_emits (b : Bus) : b.Emits (relinquish b) [.mode .sda .input, .mode .scl .input] :=
  (Bus.emits_setMode .sda .input b).trans (Bus.emits_setMode .scl .input _)

/-- Taking payload leaves the bus side. -/
theorem takePayload_bus {offered : List Byte} {n acc : Nat} {s t : State}
    (h : takePayload offered n acc s = .ok t) : t.bus = s.bus := by
  rcases Nat.lt_or_ge offered.length n with hlt | hge
  · rw [takePayload_short hlt] at h; cases h; rfl
  · rw [takePayload_enough hge] at h; cases h; rfl

/-- What a command does to the bus side: events that wait half-periods and poll waits only, sample released lines only,
and, RELEASE's apart, set no line to neutral. -/
theorem ExecCase.work {s t : State} {i : Instr} (h : ExecCase s i t) :
    ∃ evs, s.bus.Emits t.bus evs ∧ KeepsDelays s.timing evs ∧ (∀ md mc, samplesReleased md mc evs) ∧
      (i ≠ .release → NeverNeutral evs) := by
  have none : ∃ evs, s.bus.Emits s.bus evs ∧ KeepsDelays s.timing evs ∧
      (∀ md mc, samplesReleased md mc evs) ∧ (i ≠ .release → NeverNeutral evs) :=
    ⟨[], .refl _, by simp [KeepsDelays], fun _ _ => trivial, by simp [NeverNeutral]⟩
  cases h with
  | configure sda scl hne =>
    exact ⟨_, settle_emits _ _, by simp [KeepsDelays], fun _ _ => trivial, by simp [NeverNeutral]⟩
  | release =>
    cases hp : s.pinsBound with
    | true =>
      simp only [if_true, State.ret_bus]
      exact ⟨_, relinquish_emits _, by simp [KeepsDelays], fun _ _ => trivial, fun h => absurd rfl h⟩
    | false => exact none
  | onBus _ b r hi hc hq hw hh =>
    obtain ⟨evs, he, hr, hd, hn⟩ := hw
    exact ⟨evs, he, hd, hr, fun _ => hn⟩
  | requestNack addr qty sendStop b hc hw hh =>
    obtain ⟨evs, he, hr, hd, hn⟩ := hw
    exact ⟨evs, he, hd, hr, fun _ => hn⟩
  | requestAck addr qty sendStop b bytes hc hn hw hh =>
    obtain ⟨evs, he, hr, hd, hn⟩ := hw
    exact ⟨evs, he, hd, hr, fun _ => hn⟩
  | queueBytes n _ h => rw [takePayload_bus h]; exact none
  | _ => exact none

/-- A command that has an event may have begun: its meaning is the same from what it has written by then. -/
theorem exec_begun {i : Instr} {s t : State} (h : exec i s = .next t) (hev : t.bus.trace ≠ s.bus.trace) :
    exec i (begun i s) = .next t := by
  cases i with
  | configure sda scl =>
    simp only [exec, execConfigure] at h ⊢
    split at h
    · cases h; exact absurd rfl hev
    · next hne => rw [if_neg hne, ← h]; rfl
  | request addr qty sendStop =>
    simp only [exec, execRequest, whenConfigured] at h ⊢
    cases hc : s.configured with
    | false => rw [hc] at h; cases h; exact absurd rfl hev
    | true =>
      rw [hc] at h
      rw [show (begun (.request addr qty sendStop) s).configured = true from hc]
      exact h
  | _ => exact h

end Sys2Proof.Machine
end

