-- ==== Sys2Proof/Laws/Inputs.lean ====
section
/-! SUPPORT. No command looks at the delay port or at the reset signal: its meaning from a state with other such inputs
is its meaning, with those inputs. -/

namespace Sys2Proof.Machine

/-- An outcome with its next state changed. -/
def onNext (f : State → State) : Host.Outcome State Fault Refusal → Host.Outcome State Fault Refusal
  | .next t => .next (f t)
  | .fault e => .fault e
  | .refused r => .refused r

variable (d r : List Bool)

theorem whenConfigured_withInputs {s : State} {body body' : Host.Outcome State Fault Refusal}
    (h : body' = onNext (State.withInputs d r) body) :
    whenConfigured (s.withInputs d r) body' = onNext (State.withInputs d r) (whenConfigured s body) := by
  subst h
  unfold whenConfigured
  rw [State.withInputs_configured]
  cases s.configured <;> rfl

theorem appendByte_withInputs (v : Byte) (s : State) :
    appendByte v (s.withInputs d r) = (appendByte v s).map fun p => (p.1.withInputs d r, p.2) := by
  by_cases hr : s.txLen < s.params.txCapacity
  · rw [appendByte_room hr, appendByte_room (s := s.withInputs d r) hr]; rfl
  · rw [appendByte_full hr, appendByte_full (s := s.withInputs d r) hr]; rfl

theorem takePayload_withInputs (offered : List Byte) (n acc : Nat) (s : State) :
    takePayload offered n acc (s.withInputs d r) = (takePayload offered n acc s).map (State.withInputs d r) := by
  induction offered generalizing n acc s with
  | nil => cases n <;> rfl
  | cons b rest ih =>
    cases n with
    | zero => rfl
    | succ n =>
      simp only [takePayload, appendByte_withInputs]
      cases appendByte b s with
      | error f => rfl
      | ok p => exact ih _ _ _

theorem sendQueued_withInputs (n i : Nat) (s : State) :
    sendQueued n i (s.withInputs d r) = (sendQueued n i s).map fun p => (p.1, p.2.withInputs d r) := by
  induction n generalizing i s with
  | zero => rfl
  | succ n ih =>
    simp only [sendQueued]
    change (match memRead .tx i s with
      | .error f => _
      | .ok v => if (txByte s.timing v s.bus).1 then sendQueued n (i + 1) ((s.withBus _).withInputs d r) else _) = _
    cases memRead .tx i s with
    | error f => rfl
    | ok v =>
      simp only
      split
      · exact ih _ _
      · rfl

theorem memWrite_withInputs (buf : Buffer) (i : Nat) (v : Byte) (s : State) :
    memWrite buf i v (s.withInputs d r) = (memWrite buf i v s).map (State.withInputs d r) := by
  unfold memWrite
  rw [show (s.withInputs d r).capacity buf = s.capacity buf by cases buf <;> rfl]
  split
  · cases buf <;> rfl
  · rfl

theorem receiveInto_withInputs (n i : Nat) (s : State) :
    receiveInto n i (s.withInputs d r) = (receiveInto n i s).map (State.withInputs d r) := by
  induction n generalizing i s with
  | zero => rfl
  | succ n ih =>
    simp only [receiveInto]
    have := memWrite_withInputs d r .rx i (rxByte s.timing (n != 0) s.bus).1
      (s.withBus (rxByte s.timing (n != 0) s.bus).2)
    change (match memWrite .rx i _ ((s.withBus (rxByte s.timing (n != 0) s.bus).2).withInputs d r) with
      | .error f => _ | .ok s' => _) = _
    rw [show (memWrite .rx i (rxByte (s.withInputs d r).timing (n != 0) (s.withInputs d r).bus).1 _) = _ from this]
    cases memWrite .rx i (rxByte s.timing (n != 0) s.bus).1 (s.withBus (rxByte s.timing (n != 0) s.bus).2) with
    | error f => rfl
    | ok s' => exact ih _ _

theorem stopIf_withInputs (b : Bool) (s : State) :
    stopIf b (s.withInputs d r) = (stopIf b s).withInputs d r := by cases b <;> rfl

/-- No command looks at the delay or the reset signal: only the ports do. -/
theorem exec_withInputs (i : Instr) (s : State) :
    exec i (s.withInputs d r) = onNext (State.withInputs d r) (exec i s) := by
  cases i with
  | configure sda scl => simp only [exec, execConfigure]; split <;> rfl
  | release => rfl
  | setClock v => simp only [exec, execSetClock]; split <;> rfl
  | start => exact whenConfigured_withInputs d r rfl
  | stop => exact whenConfigured_withInputs d r rfl
  | writeBit bit => exact whenConfigured_withInputs d r rfl
  | readBit => exact whenConfigured_withInputs d r rfl
  | writeByte v => exact whenConfigured_withInputs d r rfl
  | readByte ack => exact whenConfigured_withInputs d r rfl
  | openTx addr => rfl
  | queueByte v =>
    simp only [exec, execQueueByte, appendByte_withInputs]
    cases appendByte v s <;> rfl
  | queueBytes n =>
    simp only [exec, execQueueBytes]
    rw [show (s.withInputs d r).payloadIn = s.payloadIn from rfl, takePayload_withInputs]
    cases takePayload s.payloadIn (quantity n) 0 s <;> rfl
  | closeTx sendStop =>
    refine whenConfigured_withInputs d r ?_
    change (match ((sendAddress s.txAddr false s).1, (sendAddress s.txAddr false s).2.withInputs d r) with
      | (false, s1) => _ | (true, s1) => _) = _
    cases sendAddress s.txAddr false s with
    | mk ack s₁ =>
      cases ack with
      | false => simp only [stopIf_withInputs]; rfl
      | true =>
        simp only [sendQueued_withInputs, show (s.withInputs d r).txLen = s.txLen from rfl]
        cases sendQueued s.txLen 0 s₁ with
        | error f => rfl
        | ok p => obtain ⟨ok, s₂⟩ := p; cases ok <;> simp only [Except.map, stopIf_withInputs] <;> rfl
  | request addr qty sendStop =>
    refine whenConfigured_withInputs d r ?_
    change (match ((sendAddress addr true { s with rxLen := 0, rxCursor := 0 }).1,
        (sendAddress addr true { s with rxLen := 0, rxCursor := 0 }).2.withInputs d r) with
      | (false, s1) => _ | (true, s1) => _) = _
    cases sendAddress addr true { s with rxLen := 0, rxCursor := 0 } with
    | mk ack s₁ =>
      cases ack with
      | false => simp only [stopIf_withInputs]; rfl
      | true =>
        simp only [receiveInto_withInputs, show clampQuantity qty (s.withInputs d r) = clampQuantity qty s from rfl]
        cases receiveInto (clampQuantity qty s) 0 s₁ with
        | error f => rfl
        | ok s₂ =>
          exact congrArg _ (congrArg _ (stopIf_withInputs d r sendStop { s₂ with rxLen := clampQuantity qty s }))
  | read =>
    simp only [exec, execRead]
    change (if s.rxCursor < s.rxLen then (match memRead .rx s.rxCursor s with | .ok v => _ | .error f => _) else _) = _
    split
    · cases memRead .rx s.rxCursor s <;> rfl
    · rfl
  | peek =>
    simp only [exec, execPeek]
    change (if s.rxCursor < s.rxLen then (match memRead .rx s.rxCursor s with | .ok v => _ | .error f => _) else _) = _
    split
    · cases memRead .rx s.rxCursor s <;> rfl
    · rfl
  | available => rfl
  | probe addr => exact whenConfigured_withInputs d r rfl

end Sys2Proof.Machine
end

