-- ==== Sys2Proof/Laws/PerInstr.lean ====
section
/-! SUPPORT. A family of one lemma per constructor of Instr: the word a command encodes to is of its row in
spec/opcode_table.json, `(w & mask) == match` (R87). -/

namespace Sys2Proof.Laws

/-- The command's word matches its row. -/
def TableRow.Statement (i : Instr) : Prop :=
  encode i &&& (opcodeOfInstr i).mask = (opcodeOfInstr i).matchWord

/-- A row all of whose bits outside OP are fixed. -/
theorem TableRow.of_masks {o : Opcode} {a b ma mb : Byte} {f : Bool} {mf : BitVec 1} {v mv : Word}
    (hm : o.mask = (0xFF#8 ++ ma ++ mb ++ 0x7F#7 ++ mf ++ mv : CmdWord)) (ha : a &&& ma = 0#8)
    (hb : b &&& mb = 0#8) (hf : BitVec.ofBool f &&& mf = 0#1) (hv : v &&& mv = 0#32) :
    packWord o a b f v &&& o.mask = o.matchWord := by
  rw [hm, packWord_and, ha, hb, hf, hv]
  cases o <;> rfl

/-- A 7-bit address has no bit where A[7] stands (R83). -/
theorem addr_high_zero (addr : Addr) : addr.zeroExtend 8 &&& 0x80#8 = 0#8 := by
  apply BitVec.eq_of_getLsbD_eq
  intro i hi
  interval_cases i <;> simp

theorem TableRow.configure (sda scl : PinId) : TableRow.Statement (.configure sda scl) :=
  of_masks (ma := 0#8) (mb := 0#8) (mf := 1#1) (mv := 0xFFFFFFFF#32) rfl (by simp) (by simp) rfl rfl
theorem TableRow.release : TableRow.Statement .release := rfl
theorem TableRow.setClock (v : Word) : TableRow.Statement (.setClock v) :=
  of_masks (ma := 0xFF#8) (mb := 0xFF#8) (mf := 1#1) (mv := 0#32) rfl rfl rfl rfl (by simp)
theorem TableRow.start : TableRow.Statement .start := rfl
theorem TableRow.stop : TableRow.Statement .stop := rfl
theorem TableRow.writeBit (b : Bool) : TableRow.Statement (.writeBit b) := by cases b <;> rfl
theorem TableRow.readBit : TableRow.Statement .readBit := rfl
theorem TableRow.writeByte (v : Byte) : TableRow.Statement (.writeByte v) :=
  of_masks (ma := 0#8) (mb := 0xFF#8) (mf := 1#1) (mv := 0xFFFFFFFF#32) rfl (by simp) rfl rfl rfl
theorem TableRow.readByte (ack : Bool) : TableRow.Statement (.readByte ack) := by cases ack <;> rfl
theorem TableRow.openTx (addr : Addr) : TableRow.Statement (.openTx addr) :=
  of_masks (ma := 0x80#8) (mb := 0xFF#8) (mf := 1#1) (mv := 0xFFFFFFFF#32) rfl (addr_high_zero addr) rfl rfl rfl
theorem TableRow.queueByte (v : Byte) : TableRow.Statement (.queueByte v) :=
  of_masks (ma := 0#8) (mb := 0xFF#8) (mf := 1#1) (mv := 0xFFFFFFFF#32) rfl (by simp) rfl rfl rfl
theorem TableRow.queueBytes (n : Word) : TableRow.Statement (.queueBytes n) :=
  of_masks (ma := 0xFF#8) (mb := 0xFF#8) (mf := 1#1) (mv := 0#32) rfl rfl rfl rfl (by simp)
theorem TableRow.closeTx (sendStop : Bool) : TableRow.Statement (.closeTx sendStop) := by
  cases sendStop <;> rfl
theorem TableRow.request (addr : Addr) (qty : Word) (sendStop : Bool) :
    TableRow.Statement (.request addr qty sendStop) :=
  of_masks (ma := 0x80#8) (mb := 0xFF#8) (mf := 0#1) (mv := 0#32) rfl (addr_high_zero addr) rfl (by simp) (by simp)
theorem TableRow.read : TableRow.Statement .read := rfl
theorem TableRow.peek : TableRow.Statement .peek := rfl
theorem TableRow.available : TableRow.Statement .available := rfl
theorem TableRow.probe (addr : Addr) : TableRow.Statement (.probe addr) :=
  of_masks (ma := 0x80#8) (mb := 0xFF#8) (mf := 1#1) (mv := 0xFFFFFFFF#32) rfl (addr_high_zero addr) rfl rfl rfl

end Sys2Proof.Laws
end

