-- ==== Sys2Proof/Laws/Step.lean ====
section
/-! SUPPORT. Say once how far a command's events can get (`drive_cases`) and what a step can do (`step_cases`). -/

namespace Sys2Proof.Machine

/-! ## The events of a command -/

/-- What one event does, `delay_done` counted. -/
theorem State.perform_eq (e : Event) (s : State) :
    s.perform e = { s with bus := s.bus.perform e, resetIn := s.resetIn.drop 1,
                           delayIn := s.delayIn.drop (delaysOf [e]) } := by
  cases e <;> simp [State.perform, State.pastResetSignal, delaysOf]

theorem delaysOf_cons (e : Event) (es : List Event) : delaysOf (e :: es) = delaysOf [e] + delaysOf es := by
  cases e <;> simp [delaysOf]

theorem headD_of_take {α : Type} {l : List α} {n : Nat} {v : α} (hn : 1 ≤ n) (h : ∀ b ∈ l.take n, b = v) :
    l.headD v = v := by
  cases l with
  | nil => rfl
  | cons a as =>
    obtain ⟨n, rfl⟩ : ∃ k, n = k + 1 := ⟨n - 1, by omega⟩
    exact h a (by simp)

theorem forall_take_drop {α : Type} {l : List α} {m n : Nat} {v : α} (h : ∀ b ∈ l.take (m + n), b = v) :
    ∀ b ∈ (l.drop m).take n, b = v := fun b hb => h b (by
  rw [List.take_add]; exact List.mem_append_right _ hb)

theorem State.outstanding_none {e : Event} {s : State} (hd : ∀ b ∈ s.delayIn.take (delaysOf [e]), b = true) :
    s.outstanding e = none := by
  cases e with
  | wait n => exact if_pos (headD_of_take (Nat.le_refl 1) hd)
  | mode l m => rfl
  | sample l lvl => rfl

/-- Events that neither a reset nor a delay keeps waiting are performed, and what follows them goes on. -/
theorem drive_through (before after : List Event) (s : State)
    (hr : ∀ b ∈ s.resetIn.take before.length, b = false)
    (hd : ∀ b ∈ s.delayIn.take (delaysOf before), b = true) :
    drive (before ++ after) s =
      drive after { s with bus := s.bus.play before, resetIn := s.resetIn.drop before.length,
                           delayIn := s.delayIn.drop (delaysOf before) } := by
  induction before generalizing s with
  | nil => rfl
  | cons e es ih =>
    rw [List.length_cons, Nat.add_comm] at hr
    rw [delaysOf_cons] at hd
    have hr0 : s.resetAsserted = false := headD_of_take (Nat.le_add_right 1 _) hr
    have hd0 : s.outstanding e = none :=
      State.outstanding_none fun b hb => hd b (by rw [List.take_add]; exact List.mem_append_left _ hb)
    rw [List.cons_append, drive, if_neg (by simp [hr0]), hd0]
    simp only
    rw [State.perform_eq, ih _ (forall_take_drop hr) (forall_take_drop hd), delaysOf_cons e es, List.length_cons,
      Nat.add_comm _ 1, List.drop_drop, List.drop_drop, Bus.play_cons]

theorem forall_take_add {α : Type} {l : List α} {m n : Nat} {v : α} (h₁ : ∀ b ∈ l.take m, b = v)
    (h₂ : ∀ b ∈ (l.drop m).take n, b = v) : ∀ b ∈ l.take (m + n), b = v := fun b hb => by
  rw [List.take_add] at hb
  exact (List.mem_append.1 hb).elim (h₁ b) (h₂ b)

theorem State.resetAsserted_take {s : State} (h : s.resetAsserted = false) : ∀ b ∈ s.resetIn.take 1, b = false := by
  intro b hb
  cases hin : s.resetIn with
  | nil => simp [hin] at hb
  | cons c cs => simpa [hin, State.resetAsserted, show b = c by simpa [hin] using hb] using h

/-- How far a command's events can get from `s`, and why: a reset or a delay that is not done is the first there is. -/
inductive DriveCase (evs : List Event) (s : State) : Drive → Prop where
  | ended (hr : ∀ b ∈ s.resetIn.take (evs.length + 1), b = false)
      (hd : ∀ b ∈ s.delayIn.take (delaysOf evs), b = true) :
      DriveCase evs s (.ended { s with
        bus := s.bus.play evs, resetIn := s.resetIn.drop (evs.length + 1),
        delayIn := s.delayIn.drop (delaysOf evs) })
  | waiting (before : List Event) (n : Nat) (after : List Event) (hev : evs = before ++ .wait n :: after)
      (hr : ∀ b ∈ s.resetIn.take (before.length + 1), b = false)
      (hd : ∀ b ∈ s.delayIn.take (delaysOf before), b = true)
      (hw : (s.delayIn.drop (delaysOf before)).headD true = false) :
      DriveCase evs s (.waiting { s with
        bus := s.bus.play (before ++ [.wait n]), resetIn := s.resetIn.drop (before.length + 1),
        delayIn := s.delayIn.drop (delaysOf before + 1), delay := some (BitVec.ofNat 32 n) })
  | reset (before after : List Event) (hev : evs = before ++ after)
      (hr : ∀ b ∈ s.resetIn.take before.length, b = false)
      (hd : ∀ b ∈ s.delayIn.take (delaysOf before), b = true)
      (ha : (s.resetIn.drop before.length).headD false = true) :
      DriveCase evs s (.reset { s with
        bus := s.bus.play before, resetIn := s.resetIn.drop (before.length + 1),
        delayIn := s.delayIn.drop (delaysOf before) })

/-- One event more before what happens after it. -/
theorem DriveCase.cons {e : Event} {evs : List Event} {s : State} {d : Drive} (hr : s.resetAsserted = false)
    (hd : ∀ b ∈ s.delayIn.take (delaysOf [e]), b = true) (h : DriveCase evs (s.perform e) d) :
    DriveCase (e :: evs) s d := by
  rw [State.perform_eq] at h
  have hr₁ := State.resetAsserted_take hr
  have hk := delaysOf_cons e
  generalize delaysOf [e] = k at h hk hd
  cases h with
  | ended hr' hd' =>
    have := DriveCase.ended (evs := e :: evs) (s := s)
      (by rw [List.length_cons, Nat.add_comm evs.length, Nat.add_assoc]; exact forall_take_add hr₁ hr')
      (hk _ ▸ forall_take_add hd hd')
    simpa [List.drop_drop, hk, Nat.add_comm] using this
  | waiting before n after hev hr' hd' hw =>
    have := DriveCase.waiting (evs := e :: evs) (s := s) (e :: before) n after (by simp [hev])
      (by rw [List.length_cons, Nat.add_comm before.length, Nat.add_assoc]; exact forall_take_add hr₁ hr')
      (hk _ ▸ forall_take_add hd hd') (by rw [hk, ← List.drop_drop]; exact hw)
    simpa [List.drop_drop, hk, Nat.add_comm, Nat.add_left_comm] using this
  | reset before after hev hr' hd' ha =>
    have := DriveCase.reset (evs := e :: evs) (s := s) (e :: before) after (by simp [hev])
      (by rw [List.length_cons, Nat.add_comm]; exact forall_take_add hr₁ hr')
      (hk _ ▸ forall_take_add hd hd') (by rw [List.length_cons, Nat.add_comm, ← List.drop_drop]; exact ha)
    simpa [List.drop_drop, hk, Nat.add_comm] using this

/-- What `drive` can answer. -/
theorem drive_cases (evs : List Event) (s : State) : DriveCase evs s (drive evs s) := by
  have reset : ∀ (evs : List Event) (s : State), s.resetAsserted = true →
      DriveCase evs s (.reset s.pastResetSignal) := fun evs s h => by
    simpa [State.pastResetSignal, delaysOf] using
      DriveCase.reset (s := s) [] evs rfl (by simp) (by simp [delaysOf]) h
  induction evs generalizing s with
  | nil =>
    rw [drive]
    split
    · next h => exact reset _ _ h
    · next h =>
      simpa [State.pastResetSignal, delaysOf] using
        DriveCase.ended (evs := []) (s := s) (State.resetAsserted_take (by simpa using h)) (by simp [delaysOf])
  | cons e es ih =>
    rw [drive]
    split
    · next h => exact reset _ _ h
    · next h =>
      have hr : s.resetAsserted = false := by simpa using h
      split
      · next hn =>
        refine .cons hr ?_ (ih _)
        cases e with
        | wait k =>
          intro b hb
          cases hin : s.delayIn with
          | nil => simp [hin] at hb
          | cons c cs =>
            rw [hin] at hb
            obtain rfl : b = c := by simpa [delaysOf] using hb
            simpa [State.outstanding, State.delayDone, hin] using hn
        | mode l m => simp [delaysOf]
        | sample l lvl => simp [delaysOf]
      · next n hn =>
        cases e with
        | wait k =>
          simp only [State.outstanding] at hn
          split at hn
          · cases hn
          · next hdn =>
            cases hn
            simpa [State.perform_eq, delaysOf] using
              DriveCase.waiting (s := s) [] k es rfl (State.resetAsserted_take hr) (by simp [delaysOf])
                (Bool.eq_false_iff.2 hdn)
        | mode l m => cases hn
        | sample l lvl => cases hn

/-! ## Steps -/

/-- A command in progress, by the events it still has. -/
theorem follow_eq {i : Instr} {a s t : State} {evs : List Event} (h : exec i a = .next t)
    (hev : t.bus.trace = s.bus.trace ++ evs) :
    follow i a s = .next (conclude i a.bus t (drive evs s)) := by
  rw [follow, h]
  simp only [hev, List.drop_left]

/-- What `follow` can answer: with `DriveCase`, everything a command in progress can come to. -/
theorem follow_cases {i : Instr} {a s t : State} (h : follow i a s = .next t) :
    ∃ t₀ d, exec i a = .next t₀ ∧ DriveCase (t₀.bus.trace.drop s.bus.trace.length) s d ∧
      t = conclude i a.bus t₀ d := by
  unfold follow at h
  cases he : exec i a with
  | fault f => rw [he] at h; cases h
  | refused r => rw [he] at h; cases h
  | next t₀ => rw [he] at h; cases h; exact ⟨t₀, _, rfl, drive_cases _ _, rfl⟩

/-- Every way a step can answer a next state. -/
inductive StepCase (s t : State) : Prop where
  /-- The reset signal is asserted. -/
  | reset (hr : s.resetIn.headD false = true) (ht : t = s.pastResetSignal.resetNow)
  /-- A block in fault, a ready block that is offered nothing, or a busy block in no command. -/
  | wait (hr : s.resetIn.headD false = false)
      (hw : s.fault = true ∨ (s.fault = false ∧ s.busy = false ∧ s.cmdIn = []) ∨
        (s.fault = false ∧ s.busy = true ∧ s.queue = none ∧ s.inFlight = none))
      (ht : t = s.pastResetSignal)
  /-- A QUEUE_BYTES goes on. -/
  | resumeQueue (q : QueueProgress) (hr : s.resetIn.headD false = false) (hf : s.fault = false)
      (hb : s.busy = true) (hi : s.inFlight = none) (hq : s.queue = some q)
      (ht : takePayload s.payloadIn q.remaining q.accepted s.pastResetSignal = .ok t)
  /-- A bus command's delay is still outstanding. -/
  | delayed (c : InFlight) (hr : s.resetIn.headD false = false) (hf : s.fault = false) (hb : s.busy = true)
      (hi : s.inFlight = some c) (hd : s.delayDone = false)
      (ht : t = s.withInputs s.delayIn.tail s.resetIn.tail)
  /-- A bus command goes on after its delay. -/
  | resumeCommand (c : InFlight) (t₀ : State) (d : Drive) (hr : s.resetIn.headD false = false) (hf : s.fault = false)
      (hb : s.busy = true) (hi : s.inFlight = some c) (hdn : s.delayDone = true)
      (he : exec c.instr (s.boundary.withInputs s.delayIn.tail s.resetIn.tail) = .next t₀)
      (hdr : DriveCase (t₀.bus.trace.drop s.bus.trace.length)
        { s.withInputs s.delayIn.tail s.resetIn.tail with inFlight := none, delay := none } d)
      (ht : t = conclude c.instr c.start t₀ d)
  /-- A word is accepted that the decoder rejects. -/
  | reject (w : CmdWord) (rest : List CmdWord) (r : Reject) (hr : s.resetIn.headD false = false)
      (hf : s.fault = false) (hb : s.busy = false) (hc : s.cmdIn = w :: rest) (hd : decode w = .reject r)
      (ht : t = (s.pastResetSignal.accept rest).raise (rejectCode r))
  /-- A command is accepted and begins. -/
  | run (w : CmdWord) (rest : List CmdWord) (i : Instr) (t₀ : State) (d : Drive) (hr : s.resetIn.headD false = false)
      (hf : s.fault = false) (hb : s.busy = false) (hc : s.cmdIn = w :: rest) (hd : decode w = .command i)
      (he : exec i (s.pastResetSignal.accept rest) = .next t₀)
      (hdr : DriveCase (t₀.bus.trace.drop s.bus.trace.length) (s.pastResetSignal.accept rest) d)
      (ht : t = conclude i s.bus t₀ d)

/-- What a step can do. -/
theorem step_cases {s t : State} (h : step s = .next t) : StepCase s t := by
  simp only [step, stepBlock] at h
  cases hr : s.resetAsserted with
  | true =>
    simp only [hr, if_true] at h
    cases h
    exact .reset hr rfl
  | false =>
    simp only [hr, Bool.false_eq_true, if_false, stepCommand, State.pastResetSignal_fault,
      State.pastResetSignal_busy, State.pastResetSignal_cmdIn] at h
    cases hf : s.fault with
    | true =>
      simp only [hf, if_true] at h
      cases h
      exact .wait hr (.inl hf) rfl
    | false =>
      simp only [hf, Bool.false_eq_true, if_false] at h
      cases hb : s.busy with
      | true =>
        simp only [hb, if_true, resume, State.pastResetSignal_inFlight] at h
        cases hi : s.inFlight with
        | some c =>
          rw [hi] at h
          simp only [resumeCommand] at h
          cases hd : s.delayDone with
          | false =>
            rw [show s.pastResetSignal.delayDone = false from hd] at h
            cases h
            exact .delayed c hr hf hb hi hd rfl
          | true =>
            rw [show s.pastResetSignal.delayDone = true from hd] at h
            have hbd : ({ s.pastResetSignal.boundary with delayIn := s.pastResetSignal.delayIn.tail } : State) =
                s.boundary.withInputs s.delayIn.tail s.resetIn.tail := by
              rw [State.boundary_some hi, State.boundary_some (s := s.pastResetSignal) hi]; rfl
            rw [if_pos rfl, hbd] at h
            obtain ⟨t₀, d, he, hdr, ht⟩ := follow_cases h
            exact .resumeCommand c t₀ d hr hf hb hi hd he hdr (by rw [ht, State.boundary_some hi]; rfl)
        | none =>
          rw [hi] at h
          simp only [Machine.resumeQueue, State.pastResetSignal_queue, State.pastResetSignal_payloadIn] at h
          cases hq : s.queue with
          | none =>
            rw [hq] at h
            cases h
            exact .wait hr (.inr (.inr ⟨hf, hb, hq, hi⟩)) rfl
          | some q =>
            rw [hq] at h
            simp only at h
            cases ht : takePayload s.payloadIn q.remaining q.accepted s.pastResetSignal with
            | error f => rw [ht] at h; cases h
            | ok t' => rw [ht] at h; cases h; exact .resumeQueue q hr hf hb hi hq ht
      | false =>
        simp only [hb, Bool.false_eq_true, if_false] at h
        cases hc : s.cmdIn with
        | nil =>
          rw [hc] at h
          cases h
          exact .wait hr (.inr (.inl ⟨hf, hb, hc⟩)) rfl
        | cons w rest =>
          rw [hc] at h
          simp only [runWord] at h
          cases hd : decode w with
          | reject r => rw [hd] at h; cases h; exact .reject w rest r hr hf hb hc hd rfl
          | command i =>
            rw [hd] at h
            obtain ⟨t₀, d, he, hdr, ht⟩ := follow_cases h
            exact .run w rest i t₀ d hr hf hb hc hd he hdr ht

end Sys2Proof.Machine
end

