-- ==== Sys2Proof/Laws/Running.lean ====
section
/-! SUPPORT. What a step of a well-formed state can do: there a command that goes on after a delay runs as its meaning
says, from where it began. -/

namespace Sys2Proof.Machine

/-- A command `i` in progress in `s`: it began on the bus side `start`, its meaning answers `t`, it has performed `done`
and has `rest` to perform. -/
structure Running (i : Instr) (start : Bus) (s t : State) (done rest : List Event) : Prop where
  exec : exec i (s.withBus start) = .next t
  emits : start.Emits t.bus (done ++ rest)
  delays : KeepsDelays s.timing (done ++ rest)
  released : ∀ md mc, samplesReleased md mc (done ++ rest)
  neutral : i ≠ .release → NeverNeutral (done ++ rest)
  bus : s.bus = start.play done
  queue : s.queue = none
  inFlight : s.inFlight = none
  delay : s.delay = none
  fault : s.fault = false

/-- Every command in progress runs as its meaning says. -/
theorem Running.of {i : Instr} {start : Bus} {s t : State} {done rest : List Event}
    (he : Machine.exec i (s.withBus start) = .next t) (ht : t.bus.trace = start.trace ++ (done ++ rest))
    (hb : s.bus = start.play done) (hq : s.queue = none) (hi : s.inFlight = none) (hd : s.delay = none)
    (hf : s.fault = false) : Running i start s t done rest := by
  obtain ⟨evs, hem, hk, hr, hn⟩ := (exec_cases he).work
  obtain rfl : evs = done ++ rest := List.append_cancel_left (hem.trace.symm.trans ht)
  exact ⟨he, hem, hk, hr, hn, hb, hq, hi, hd, hf⟩

/-- The events a running command still has. -/
theorem Running.drop {i : Instr} {start : Bus} {s t : State} {done rest : List Event}
    (h : Running i start s t done rest) : t.bus.trace.drop s.bus.trace.length = rest := by
  rw [h.bus, Bus.play_trace, h.emits.trace, ← List.append_assoc, List.drop_left]

/-- In a ready well-formed state nothing waits. -/
theorem State.Wf.ready {s : State} (h : s.Wf) (hb : s.busy = false) :
    s.queue = none ∧ s.inFlight = none ∧ s.delay = none := by
  have h₁ := h.busy_waiting
  have h₂ := h.delay_inFlight
  rw [hb] at h₁
  cases hq : s.queue <;> cases hi : s.inFlight <;> cases hd : s.delay <;> simp [hq, hi, hd] at h₁ h₂ ⊢

/-- Every way a step of a well-formed state can answer a next state: as `StepCase` has it, with a command that begins or
goes on as a `Running` one. -/
inductive WfStepCase (s t : State) : Prop where
  /-- The reset signal is asserted. -/
  | reset (hr : s.resetIn.headD false = true) (ht : t = s.pastResetSignal.resetNow)
  /-- A block in fault, or a ready block that is offered nothing. -/
  | wait (hr : s.resetIn.headD false = false)
      (hw : s.fault = true ∨ (s.fault = false ∧ s.busy = false ∧ s.cmdIn = [])) (ht : t = s.pastResetSignal)
  /-- A bus command's delay is still outstanding. -/
  | delayed (c : InFlight) (hr : s.resetIn.headD false = false) (hf : s.fault = false) (hb : s.busy = true)
      (hi : s.inFlight = some c) (hd : s.delayDone = false) (ht : t = s.withInputs s.delayIn.tail s.resetIn.tail)
  /-- A QUEUE_BYTES goes on. -/
  | resumeQueue (q : QueueProgress) (hr : s.resetIn.headD false = false) (hf : s.fault = false)
      (hb : s.busy = true) (hi : s.inFlight = none) (hq : s.queue = some q)
      (ht : takePayload s.payloadIn q.remaining q.accepted s.pastResetSignal = .ok t)
  /-- A word is accepted that the decoder rejects. -/
  | reject (w : CmdWord) (rest : List CmdWord) (r : Reject) (hr : s.resetIn.headD false = false)
      (hf : s.fault = false) (hb : s.busy = false) (hc : s.cmdIn = w :: rest) (hd : decode w = .reject r)
      (ht : t = (s.pastResetSignal.accept rest).raise (rejectCode r))
  /-- A command begins. -/
  | run (w : CmdWord) (rest : List CmdWord) (i : Instr) (t₀ : State) (d : Drive) (evs : List Event)
      (hr : s.resetIn.headD false = false) (hb : s.busy = false) (hc : s.cmdIn = w :: rest)
      (hd : decode w = .command i) (hrun : Running i s.bus (s.pastResetSignal.accept rest) t₀ [] evs)
      (hdr : DriveCase evs (s.pastResetSignal.accept rest) d) (ht : t = conclude i s.bus t₀ d)
  /-- A command goes on after its delay. -/
  | resume (c : InFlight) (t₀ : State) (d : Drive) (done evs : List Event)
      (hr : s.resetIn.headD false = false) (hb : s.busy = true) (hi : s.inFlight = some c)
      (hne : done ≠ [])
      (hrun : Running c.instr c.start
        { s.withInputs s.delayIn.tail s.resetIn.tail with inFlight := none, delay := none } t₀ done evs)
      (hdr : DriveCase evs
        { s.withInputs s.delayIn.tail s.resetIn.tail with inFlight := none, delay := none } d)
      (ht : t = conclude c.instr c.start t₀ d)

theorem State.Wf.step_cases {s t : State} (w : s.Wf) (h : step s = .next t) : WfStepCase s t := by
  cases Machine.step_cases h with
  | reset hr ht => exact .reset hr ht
  | wait hr hw ht =>
    refine .wait hr ?_ ht
    rcases hw with hf | hw | ⟨-, hb, hq, hi⟩
    · exact .inl hf
    · exact .inr hw
    · have := w.busy_waiting; simp [hb, hq, hi] at this
  | resumeQueue q hr hf hb hi hq ht => exact .resumeQueue q hr hf hb hi hq ht
  | delayed c hr hf hb hi hd ht => exact .delayed c hr hf hb hi hd ht
  | reject w' rest r hr hf hb hc hd ht => exact .reject w' rest r hr hf hb hc hd ht
  | run w' rest i t₀ d hr hf hb hc hd he hdr ht =>
    obtain ⟨hq, hi, hdl⟩ := w.ready hb
    obtain ⟨evs, hem, -⟩ := (exec_cases he).work
    have hrun : Running i s.bus (s.pastResetSignal.accept rest) t₀ [] evs :=
      .of he hem.trace rfl hq hi hdl hf
    exact .run w' rest i t₀ d evs hr hb hc hd hrun (hrun.drop ▸ hdr) ht
  | resumeCommand c t₀ d hr hf hb hi hdn he hdr ht =>
    obtain ⟨t, n, before, after, he', -, htr, hbus⟩ := w.mid_command c hi
    rw [exec_withInputs, he'] at he
    obtain rfl := Host.Outcome.next.inj he
    have hq : s.queue = none := w.one_command.resolve_right (by simp [hi])
    have hrun : Running c.instr c.start
        { s.withInputs s.delayIn.tail s.resetIn.tail with inFlight := none, delay := none }
        (t.withInputs s.delayIn.tail s.resetIn.tail) (before ++ [.wait n.toNat]) after :=
      .of (by
        have h := exec_withInputs s.delayIn.tail s.resetIn.tail c.instr s.boundary
        rw [he', State.boundary_some hi] at h
        exact h) (by simpa using htr) hbus hq rfl rfl hf
    exact .resume c _ d _ after hr hb hi (by simp) hrun (hrun.drop ▸ hdr) ht

/-- Where a waiting command keeps its place. -/
theorem conclude_waiting_boundary (i : Instr) (start : Bus) (t u : State) :
    (conclude i start t (.waiting u)).boundary =
      begun i { u with bus := start, inFlight := none, delay := none } := by cases i <;> rfl

/-- From where a waiting command keeps its place, its meaning is what it was. -/
theorem Running.exec_boundary {i : Instr} {start : Bus} {s t : State} {done rest : List Event} {u : State}
    (h : Running i start s t done rest) (hne : done ++ rest ≠ []) (b : Bus) (us : BitVec 32) (ds rs : List Bool)
    (hu : u = { s with bus := b, resetIn := rs, delayIn := ds, delay := some us }) :
    Machine.exec i (conclude i start t (.waiting u)).boundary = .next (t.withInputs ds rs) := by
  subst hu
  rw [conclude_waiting_boundary]
  refine exec_begun ?_ ?_
  · have he := exec_withInputs ds rs i (s.withBus start)
    rw [h.exec] at he
    simpa [State.withInputs, State.withBus, ← h.inFlight, ← h.delay, onNext] using he
  · simpa [h.emits.trace] using hne

/-- A running command that comes to a delay is in the middle of itself there. -/
theorem Running.mid {i : Instr} {start : Bus} {s t : State} {done before after : List Event} {n : Nat}
    (h : Running i start s t done (before ++ .wait n :: after)) (ds rs : List Bool) :
    (conclude i start t (.waiting { s with
      bus := s.bus.play (before ++ [.wait n]), resetIn := rs, delayIn := ds,
      delay := some (BitVec.ofNat 32 n) })).MidCommand { instr := i, start := start } := by
  have hn : (BitVec.ofNat 32 n).toNat = n := by
    have hlt : n < 2 ^ 32 := by
      rcases h.delays n (by simp) with rfl | rfl
      · exact s.hp.isLt
      · decide
    simpa using Nat.mod_eq_of_lt hlt
  refine ⟨t.withInputs ds rs, BitVec.ofNat 32 n, done ++ before, after,
    h.exec_boundary (by simp) _ _ _ _ rfl, by cases i <;> rfl, ?_, ?_⟩
  · rw [hn]; simpa using h.emits.trace
  · rw [hn]
    have : (conclude i start t (.waiting { s with
      bus := s.bus.play (before ++ [.wait n]), resetIn := rs, delayIn := ds,
      delay := some (BitVec.ofNat 32 n) })).bus = s.bus.play (before ++ [.wait n]) := by cases i <;> rfl
    rw [this, h.bus, List.append_assoc, ← Bus.play_append]

end Sys2Proof.Machine
end

