-- ==== Sys2Proof/WellFormed.lean ====
section
/-! DEFINITION. Well-formed assembler lines (spec/30_encoding.md R93, R94): the operand ranges, the defaults, and the
command (with its payload) a line stands for. A term of `Instr` is well formed by its type; an assembler line is
not: "An operand out of its range ... is an assembly error, not an encoding" (R93). -/

namespace Sys2Proof

/-- A line of R93, its operands as the numbers written. An operand `none` is one left out (R94). -/
inductive AsmLine where
  | configure (sda scl : Nat)
  | release
  | setClock (f : Int)
  | start
  | stop
  | writeBit (b : Nat)
  | readBit
  | writeByte (v : Nat)
  | readByte (ack : Option Bool)
  | openTx (addr : Nat)
  | queueByte (v : Nat)
  | queueBytes (bytes : List Nat)
  | closeTx (sendStop : Option Bool)
  | request (addr qty : Nat) (sendStop : Option Bool)
  | read
  | peek
  | available
  | probe (addr : Nat)
  deriving DecidableEq, Repr

/-- Every operand of the line is in its range (R83, R85, R93), and READ_BYTE has its operand (R94). -/
def AsmLine.wellFormed : AsmLine → Bool
  | .configure sda scl => decide (sda ≤ 255) && decide (scl ≤ 255)
  | .setClock f => decide (-2147483648 ≤ f) && decide (f ≤ 2147483647)
  | .writeBit b => decide (b ≤ 1)
  | .writeByte v => decide (v ≤ 255)
  | .readByte ack => ack.isSome
  | .openTx addr => decide (addr ≤ 127)
  | .queueByte v => decide (v ≤ 255)
  | .queueBytes bytes => decide (bytes.length ≤ 4294967295) && bytes.all fun b => decide (b ≤ 255)
  | .request addr qty _ => decide (addr ≤ 127) && decide (qty ≤ 4294967295)
  | .probe addr => decide (addr ≤ 127)
  | .release | .start | .stop | .readBit | .closeTx _ | .read | .peek | .available => true

/-- The command a line stands for, with the defaults of R94 (`send_stop` left out is `stop`). -/
def AsmLine.instr : AsmLine → Instr
  | .configure sda scl => .configure (BitVec.ofNat 8 sda) (BitVec.ofNat 8 scl)
  | .release => .release
  | .setClock f => .setClock (BitVec.ofInt 32 f)
  | .start => .start
  | .stop => .stop
  | .writeBit b => .writeBit (b == 1)
  | .readBit => .readBit
  | .writeByte v => .writeByte (BitVec.ofNat 8 v)
  | .readByte ack => .readByte (ack.getD false)
  | .openTx addr => .openTx (BitVec.ofNat 7 addr)
  | .queueByte v => .queueByte (BitVec.ofNat 8 v)
  | .queueBytes bytes => .queueBytes (BitVec.ofNat 32 bytes.length)
  | .closeTx sendStop => .closeTx (sendStop.getD true)
  | .request addr qty sendStop =>
      .request (BitVec.ofNat 7 addr) (BitVec.ofNat 32 qty) (sendStop.getD true)
  | .read => .read
  | .peek => .peek
  | .available => .available
  | .probe addr => .probe (BitVec.ofNat 7 addr)

/-- The payload bytes a line puts on the payload port: those QUEUE_BYTES lists, in order (R92, R93). -/
def AsmLine.payload : AsmLine → List Byte
  | .queueBytes bytes => bytes.map (BitVec.ofNat 8)
  | _ => []

/-- Assembling a line: its command and payload, or `none` for an assembly error (R93). -/
def AsmLine.assemble (a : AsmLine) : Option (Instr × List Byte) :=
  if a.wellFormed then some (a.instr, a.payload) else none

end Sys2Proof
end

