-- ==== Sys2Proof/Tests/Slice0.lean ====
section
/-! SUPPORT. Tests and witnesses. Expected results come from spec/95_test_vectors.md (the vector is named in each
docstring) or from the rule cited; a witness shows that a statement's hypotheses can be met. -/

namespace Sys2Proof.Tests

open Sys2Proof.Machine

/-! ## Helpers -/

/-- The state after reset and `CONFIGURE 4, 5` (95_test_vectors.md section 0), its trace emptied. -/
def configured : State :=
  { State.reset with
    configured := true, pinsBound := true, sdaPin := 4#8, sclPin := 5#8
    bus := { State.reset.bus with sdaMode := .inputPullup, sclMode := .inputPullup } }

/-- A state whose bus environment answers the samples of SDA as listed, and `n` samples of SCL with 1. -/
def answering (sda : List Level) (n : Nat) (s : State) : State :=
  { s with bus := { s.bus with sdaAnswers := sda, sclAnswers := List.replicate n true } }

/-- The next state of an outcome. -/
def nextOf : Host.Outcome State Fault Refusal → Option State
  | .next t => some t
  | .fault _ => none
  | .refused _ => none

/-- What a run shows: the results and the trace (R8). -/
def shown (o : Host.Outcome State Fault Refusal) : Option (List Word × List Event) :=
  (nextOf o).map State.observation

/-- `SDA=m` and `SCL=m` of 95_test_vectors.md. -/
def sdaR : Event := Event.mode .sda .inputPullup
def sdaL : Event := Event.mode .sda .outputLow
def sdaN : Event := Event.mode .sda .input
def sclR : Event := Event.mode .scl .inputPullup
def sclL : Event := Event.mode .scl .outputLow
def sclN : Event := Event.mode .scl .input

/-- The groups GS, GP, T1, T0, Rv, TB and RB of 95_test_vectors.md section 0. -/
def gs (h : Nat) : List Event :=
  [sdaR, sclR, Event.wait h, Event.sample .scl true, Event.wait h, sdaL, Event.wait h, sclL]
def gp (h : Nat) : List Event :=
  [sdaL, Event.wait h, sclR, Event.wait h, Event.sample .scl true, Event.wait h, sdaR, Event.wait h]
def tBit (h : Nat) (b : Bool) : List Event :=
  [if b then sdaR else sdaL, Event.wait h, sclR, Event.wait h, Event.sample .scl true, sclL]
def rBit (h : Nat) (v : Level) : List Event :=
  [sdaR, Event.wait h, sclR, Event.wait h, Event.sample .scl true, Event.sample .sda v, sclL]
def tb (h : Nat) (bits : List Bool) (a : Level) : List Event := (bits.map (tBit h)).flatten ++ rBit h a
def rb (h : Nat) (bits : List Bool) (k : Bool) : List Event := (bits.map (rBit h)).flatten ++ tBit h (!k)

/-- The bits of 0xA0, 0xD1 and 0xCA, most significant first, written out. -/
def bitsA0 : List Bool := [true, false, true, false, false, false, false, false]
def bitsD1 : List Bool := [true, true, false, true, false, false, false, true]
def bitsCA : List Bool := [true, true, false, false, true, false, true, false]

/-! ## WellFormed (R93, R94): each check refuses an ill-formed line -/

theorem test_wellformed_lines : AsmLine.wellFormed (.configure 255 0) = true ∧
    AsmLine.wellFormed (.setClock (-2147483648)) = true ∧ AsmLine.wellFormed (.setClock 2147483647) = true ∧
    AsmLine.wellFormed (.openTx 127) = true ∧ AsmLine.wellFormed (.request 127 4294967295 none) = true ∧
    AsmLine.wellFormed (.queueBytes [0, 255]) = true := by decide

theorem test_wellformed_pin_above_255 :
    AsmLine.wellFormed (.configure 256 0) = false ∧ AsmLine.wellFormed (.configure 0 256) = false := by decide

theorem test_wellformed_frequency_outside_32_bits :
    AsmLine.wellFormed (.setClock 2147483648) = false ∧
    AsmLine.wellFormed (.setClock (-2147483649)) = false := by decide

theorem test_wellformed_bit_two : AsmLine.wellFormed (.writeBit 2) = false := by decide

theorem test_wellformed_byte_256 : AsmLine.wellFormed (.writeByte 256) = false ∧
    AsmLine.wellFormed (.queueByte 256) = false ∧ AsmLine.wellFormed (.queueBytes [1, 256]) = false := by decide

theorem test_wellformed_address_128 : AsmLine.wellFormed (.openTx 128) = false ∧
    AsmLine.wellFormed (.request 128 1 none) = false ∧ AsmLine.wellFormed (.probe 128) = false := by decide

theorem test_wellformed_quantity_2_32 :
    AsmLine.wellFormed (.request 0 4294967296 none) = false := by decide

theorem test_wellformed_read_byte_without_operand : AsmLine.wellFormed (.readByte none) = false ∧
    AsmLine.assemble (.readByte none) = none := by decide

/-- R94's defaults and R92's payload. -/
theorem test_assemble_defaults :
    AsmLine.assemble (.closeTx none) = some (.closeTx true, []) ∧
    AsmLine.assemble (.request 0x68 3 none) = some (.request 0x68#7 3#32 true, []) ∧
    AsmLine.assemble (.queueBytes [0x10, 0x20]) = some (.queueBytes 2#32, [0x10#8, 0x20#8]) := by decide

/-! ## Decode: a word of every row, and the words that are none -/

/-- One word of each family put together field by field from R81 and R86: OP, A, B, RSV, F, V. -/
theorem test_decode_field_by_field :
    decode (0b00000001#8 ++ 0b00000100#8 ++ 0b00000101#8 ++ 0b0000000#7 ++ 0b0#1 ++ 0#32) =
      .command (.configure 4#8 5#8) ∧
    decode (0b00010010#8 ++ 0b00000000#8 ++ 0b00000000#8 ++ 0b0000000#7 ++ 0b1#1 ++ 0#32) =
      .command (.writeBit true) ∧
    decode (0b00010100#8 ++ 0b10100101#8 ++ 0b00000000#8 ++ 0b0000000#7 ++ 0b0#1 ++ 0#32) =
      .command (.writeByte 0xA5#8) ∧
    decode (0b00100100#8 ++ 0b01101000#8 ++ 0b00000000#8 ++ 0b0000000#7 ++ 0b1#1 ++ 3#32) =
      .command (.request 0x68#7 3#32 true) := by decide

/-- Words of 95_test_vectors.md sections 2.2 to 2.5. -/
theorem test_decode_lifecycle : decode 0x0107070000000000#64 = .command (.configure 7#8 7#8) ∧
    decode 0x0200000000000000#64 = .command .release ∧
    decode 0x0300000080000000#64 = .command (.setClock 0x80000000#32) := by decide

theorem test_decode_bit_level : decode 0x1000000000000000#64 = .command .start ∧
    decode 0x1100000000000000#64 = .command .stop ∧
    decode 0x1200000000000000#64 = .command (.writeBit false) ∧
    decode 0x1300000000000000#64 = .command .readBit := by decide

theorem test_decode_byte_level : decode 0x14FF000000000000#64 = .command (.writeByte 0xFF#8) ∧
    decode 0x1500000000000000#64 = .command (.readByte false) := by decide

theorem test_decode_transmit : decode 0x2068000000000000#64 = .command (.openTx 0x68#7) ∧
    decode 0x2175000000000000#64 = .command (.queueByte 0x75#8) ∧
    decode 0x2200000000000028#64 = .command (.queueBytes 40#32) ∧
    decode 0x2300000000000000#64 = .command (.closeTx false) := by decide

theorem test_decode_receive : decode 0x24680001FFFFFFFF#64 = .command (.request 0x68#7 0xFFFFFFFF#32 true) ∧
    decode 0x2500000000000000#64 = .command .read ∧ decode 0x2600000000000000#64 = .command .peek ∧
    decode 0x2700000000000000#64 = .command .available ∧
    decode 0x2850000000000000#64 = .command (.probe 0x50#7) := by decide

/-- Vectors E4 and E5. -/
theorem test_decode_illegal : decode 0x0000000000000000#64 = .reject .illegalOpcode ∧
    decode 0x0400000000000000#64 = .reject .illegalOpcode ∧
    decode 0x1600000000000000#64 = .reject .illegalOpcode ∧
    decode 0x2900000000000000#64 = .reject .illegalOpcode ∧
    decode 0xFF00000000000000#64 = .reject .illegalOpcode := by decide

/-- Vectors E6 to E10, and the word of R204's example. -/
theorem test_decode_reserved : decode 0x1000000200000000#64 = .reject .reservedBits ∧
    decode 0x20D0000000000000#64 = .reject .reservedBits ∧
    decode 0x1200000000000002#64 = .reject .reservedBits ∧
    decode 0x0104050100000000#64 = .reject .reservedBits ∧
    decode 0x2468010100000003#64 = .reject .reservedBits ∧
    decode 0x2380000000000000#64 = .reject .reservedBits := by decide

/-- R95's words, from the encoder, and the order of R63. -/
theorem test_encode : encode (.request 0x68#7 3#32 true) = 0x2468000100000003#64 ∧
    encode (.setClock (BitVec.ofInt 32 (-5))) = 0x03000000FFFFFFFB#64 ∧
    bytesOfWord 0x2468000100000003#64 = [0x24#8, 0x68#8, 0#8, 1#8, 0#8, 0#8, 0#8, 3#8] := by decide

theorem test_decode_table_word : decodeTableWord 64 0x2850000000000000 = some (.probe 0x50#7) ∧
    decodeTableWord 64 0 = none ∧ decodeTableWord 64 (2 ^ 64) = none := by decide

/-! ## One step of each command -/

/-- Vector L1. -/
theorem test_configure : shown (exec (.configure 4#8 5#8) State.reset) =
    some ([0#32], [sdaR, sclR, Event.wait 5]) := by decide

/-- Vector F4: nothing but the fault. -/
theorem test_configure_conflict : nextOf (exec (.configure 9#8 9#8) configured) =
    some { configured with fault := true, faultCode := .pinConflict } := by decide

/-- Vectors L5 and L6. -/
theorem test_release : shown (exec .release configured) = some ([0#32], [sdaN, sclN]) ∧
    shown (exec .release State.reset) = some ([0#32], []) := by decide

/-- The table of 95_test_vectors.md section 2.2, its boundary rows. -/
theorem test_set_clock :
    [1, 3, 7, 166666, 166667, 250001, 500001, 2147483647].map (fun f =>
      (nextOf (exec (.setClock (BitVec.ofNat 32 f)) State.reset)).map fun t => t.hp.toNat) =
    [some 500000, some 166666, some 71428, some 3, some 2, some 1, some 1, some 1] := by decide

theorem test_set_clock_not_positive : nextOf (exec (.setClock 0xFFFFFFFF#32) configured) =
    some { configured with results := [0#32] } := by decide

/-- Vector B1. -/
theorem test_start : shown (exec .start (answering [] 1 configured)) = some ([0#32], gs 5) := by decide

/-- Vector B7: two low samples of SCL. -/
theorem test_start_stretched :
    shown (exec .start { configured with bus := { configured.bus with sclAnswers := [false, false, true] } }) =
    some ([0#32], [sdaR, sclR, Event.wait 5, Event.sample .scl false, Event.wait 1, Event.sample .scl false,
      Event.wait 1, Event.sample .scl true, Event.wait 5, sdaL, Event.wait 5, sclL]) := by decide

/-- Vector B2. -/
theorem test_stop : shown (exec .stop (answering [] 1 configured)) = some ([0#32], gp 5) := by decide

/-- Vectors B3 and B4. -/
theorem test_write_bit : shown (exec (.writeBit true) (answering [] 1 configured)) =
      some ([0#32], [sdaR, Event.wait 5, sclR, Event.wait 5, Event.sample .scl true, sclL]) ∧
    shown (exec (.writeBit false) (answering [] 1 configured)) =
      some ([0#32], [sdaL, Event.wait 5, sclR, Event.wait 5, Event.sample .scl true, sclL]) := by decide

/-- R126 at a poll limit of 2: three low samples, two waits, and on as if it had read high. -/
theorem test_write_bit_stuck :
    shown (exec (.writeBit false)
      { configured with
        params := { Params.spec with stretchPollLimit := 2 }
        bus := { configured.bus with sclAnswers := [false, false, false, true] } }) =
    some ([0#32], [sdaL, Event.wait 5, sclR, Event.wait 5, Event.sample .scl false, Event.wait 1,
      Event.sample .scl false, Event.wait 1, Event.sample .scl false, sclL]) := by decide

/-- Vectors B5 and B6. -/
theorem test_read_bit : shown (exec .readBit (answering [false] 1 configured)) = some ([0#32], rBit 5 false) ∧
    shown (exec .readBit (answering [true] 1 configured)) = some ([1#32], rBit 5 true) := by decide

/-- Vectors Y1 and Y2: 0xA5 is sent as R, L, R, L, L, R, L, R. -/
theorem test_write_byte :
    shown (exec (.writeByte 0xA5#8) (answering [false] 9 configured)) =
      some ([1#32], tb 5 [true, false, true, false, false, true, false, true] false) ∧
    (nextOf (exec (.writeByte 0xA5#8) (answering [true] 9 configured))).map State.results =
      some [0#32] := by decide

/-- Vectors Y5 and Y6. -/
theorem test_read_byte :
    shown (exec (.readByte false) (answering bitsCA 9 configured)) = some ([202#32], rb 5 bitsCA false) ∧
    shown (exec (.readByte true) (answering bitsCA 9 configured)) = some ([202#32], rb 5 bitsCA true) := by decide

/-- Vector X1. -/
theorem test_open_tx : nextOf (exec (.openTx 0x50#7) { State.reset with txLen := 2 }) =
    some { State.reset with txAddr := 0x50#7, txLen := 0, results := [0#32] } := by decide

/-- Vectors X2 and X4. -/
theorem test_queue_byte : nextOf (exec (.queueByte 0x10#8) State.reset) =
      some { State.reset with txBuf := [(0, 0x10#8)], txLen := 1, results := [1#32] } ∧
    nextOf (exec (.queueByte 0x77#8) { State.reset with txLen := 32 }) =
      some { State.reset with txLen := 32, results := [0#32] } := by decide

/-- Vector X3: two bytes fit, four are taken. -/
theorem test_queue_bytes :
    nextOf (exec (.queueBytes 4#32) { State.reset with txLen := 30, payloadIn := [1#8, 2#8, 3#8, 4#8, 9#8] }) =
    some { State.reset with
      txBuf := [(30, 1#8), (31, 2#8)], txLen := 32, payloadIn := [9#8], results := [2#32] } := by decide

/-- R49, R215: the payload lacks, so the block waits in the command. -/
theorem test_queue_bytes_waits :
    nextOf (exec (.queueBytes 2#32) { State.reset with payloadIn := [7#8] }) =
    some { State.reset with
      txBuf := [(0, 7#8)], txLen := 1, busy := true
      queue := some { remaining := 1, accepted := 1 } } := by decide

/-- A transmission of 0x11 and 0x22 to 0x50, as in vector S3. -/
def queuedTwo : State := { configured with txAddr := 0x50#7, txLen := 2, txBuf := [(0, 0x11#8), (1, 0x22#8)] }

/-- Vector S3: the address is not acknowledged. -/
theorem test_close_tx_address_nack :
    shown (exec (.closeTx true) (answering [true] 11 queuedTwo)) =
    some ([2#32], gs 5 ++ tb 5 bitsA0 true ++ gp 5) := by decide +kernel

/-- R175: the second data byte is not acknowledged, and without a stop the bus is held. -/
theorem test_close_tx_data_nack :
    (nextOf (exec (.closeTx false) (answering [false, false, true] 28 queuedTwo))).map (fun t =>
      (t.results, t.bus.trace.length, t.txLen, t.bus.sdaMode, t.bus.sclMode)) =
    some ([3#32], 173, 2, .inputPullup, .outputLow) := by decide +kernel

/-- A slave at 0x68 that acknowledges and sends 0x12 and 0xCA (R177's shape). -/
def sendsTwo : State :=
  answering (false :: [false, false, false, true, false, false, true, false] ++ bitsCA) 29 configured

/-- R177: the first byte is acknowledged, the last is not. -/
theorem test_request :
    shown (exec (.request 0x68#7 2#32 true) sendsTwo) =
      some ([2#32], gs 5 ++ tb 5 bitsD1 false ++
        rb 5 [false, false, false, true, false, false, true, false] true ++ rb 5 bitsCA false ++ gp 5) ∧
    (nextOf (exec (.request 0x68#7 2#32 true) sendsTwo)).map (fun t =>
      (t.rxLen, t.rxCursor, t.rxBuf.read 0, t.rxBuf.read 1)) = some (2, 0, 0x12#8, 0xCA#8) := by decide +kernel

/-- Vector X15: an address that is not acknowledged empties the receive buffer. -/
theorem test_request_nack :
    (nextOf (exec (.request 0x51#7 2#32 true)
        (answering [true] 11 { configured with rxLen := 3, rxCursor := 1 }))).map (fun t =>
      (t.results, t.rxLen, t.rxCursor, t.bus.trace.length)) = some ([0#32], 0, 0, 71) := by decide +kernel

/-- The receive buffer of vector X16. -/
def received : State := { State.reset with rxBuf := [(0, 0x12#8), (1, 0x34#8)], rxLen := 2, rxCursor := 1 }

/-- Vector X16. -/
theorem test_read : nextOf (exec .read received) = some { received with rxCursor := 2, results := [0x34#32] } ∧
    nextOf (exec .read { received with rxCursor := 2 }) =
      some { received with rxCursor := 2, results := [0xFFFFFFFF#32] } := by decide

/-- Vectors X17 and X18. -/
theorem test_peek : nextOf (exec .peek received) = some { received with results := [0x34#32] } ∧
    nextOf (exec .peek State.reset) = some { State.reset with results := [0xFFFFFFFF#32] } := by decide

/-- Vectors X17 and X18. -/
theorem test_available : nextOf (exec .available received) = some { received with results := [1#32] } ∧
    nextOf (exec .available State.reset) = some { State.reset with results := [0#32] } := by decide

/-- Vector S7, both instances. -/
theorem test_probe :
    shown (exec (.probe 0x50#7) (answering [false] 11 configured)) =
      some ([1#32], gs 5 ++ tb 5 bitsA0 false ++ gp 5) ∧
    (nextOf (exec (.probe 0x3C#7) (answering [true] 11 configured))).map State.results = some [0#32] := by
  decide +kernel

/-! ## Steps at the ports -/

/-- Vector F1: the fault, and nothing else. -/
theorem test_step_not_configured : nextOf (step (State.reset.offer 0x1000000000000000#64)) =
    some { State.reset with fault := true, faultCode := .notConfigured } := by decide

/-- Vector F3: RESERVED_BITS comes before NOT_CONFIGURED. -/
theorem test_step_priority : nextOf (step (State.reset.offer 0x1100000100000000#64)) =
    some { State.reset with fault := true, faultCode := .reservedBits } := by decide

/-- Vector F1: in fault the host's word is held, and a reset clears the fault; the trace it ends is kept. -/
theorem test_step_in_fault :
    nextOf (step { State.reset with fault := true, faultCode := .notConfigured, cmdIn := [0x0104050000000000#64] }) =
      some { State.reset with fault := true, faultCode := .notConfigured, cmdIn := [0x0104050000000000#64] } ∧
    nextOf (step { State.reset with fault := true, faultCode := .notConfigured, resetIn := [true] }) =
      some { State.reset with history := [[]] } := by decide

/-! ## Delays and resets inside a command (R47, R230) -/

/-- R130's trace and R47: at START's second delay, which is not done, what has been performed and what the delay port
says; the block is busy and not done. -/
theorem test_start_delayed :
    (nextOf (step { answering [] 1 configured with cmdIn := [0x1000000000000000#64], delayIn := [true, false] })).map
      (fun t => (t.bus.trace, t.delayReq, t.delayUs, t.results, t.cmdReady)) =
    some ([sdaR, sclR, Event.wait 5, Event.sample .scl true, Event.wait 5], true, some 5#32, [], false) := by decide

/-- R47: the same START once its delays are done: the events and the result of vector B1, over three steps. -/
theorem test_start_goes_on :
    (nextOf (stepTimes 3 { answering [] 1 configured with
        cmdIn := [0x1000000000000000#64], delayIn := [true, false, false, true] })).map
      (fun t => (t.results, t.bus.trace, t.delayReq, t.cmdReady)) =
    some ([0#32], gs 5, false, true) := by decide

/-- R101: at CONFIGURE's delay the pins are bound and the block is not yet configured. -/
theorem test_configure_delayed :
    (nextOf (step { State.reset with cmdIn := [0x0104050000000000#64], delayIn := [false] })).map (fun t =>
      (t.sdaPin, t.sclPin, t.pinsBound, t.configured, t.bus.trace)) =
    some (4#8, 5#8, true, false, [sdaR, sclR, Event.wait 5]) := by decide

/-- R230: START is reset after two events: no result, no event more, and what the bus has seen is what it is left with. -/
theorem test_reset_inside_start :
    (nextOf (step { answering [] 1 configured with
        cmdIn := [0x1000000000000000#64], resetIn := [false, false, false, true] })).map (fun t =>
      (t.results, t.history, t.bus.trace, t.configured, t.cmdReady)) =
    some ([], [[sdaR, sclR]], [], false, true) := by decide

/-- R230: READ_BIT is reset after its last event, before its result. -/
theorem test_reset_before_the_result :
    (nextOf (step { answering [true] 1 configured with
        cmdIn := [0x1300000000000000#64], resetIn := List.replicate 8 false ++ [true] })).map (fun t =>
      (t.results, t.history)) = some ([], [rBit 5 true]) := by decide

/-! ## Witnesses: the hypotheses of each statement can be met -/

/-- A machine that has been offered START while it is not configured. -/
def offeredStart : State := State.reset.offer 0x1000000000000000#64

/-- A machine that has been offered CONFIGURE 4, 5. -/
def offeredConfigure : State := State.reset.offer 0x0104050000000000#64

theorem witness_LegalWordIsTheWordOfItsCommand :
    decode 0x2468000100000003#64 = .command (.request 0x68#7 3#32 true) := by decide

/-- Both sides of the equivalence: bit 33 set, and no reserved bit set. -/
theorem witness_ReservedBitsAreRejected :
    (0x1000000200000000#64).extractLsb' 56 8 = Opcode.start.code ∧
    (Opcode.start.mask.getLsbD 33 = true ∧ (0x1000000200000000#64).getLsbD 33 = true) ∧
    (0x1000000000000000#64).extractLsb' 56 8 = Opcode.start.code ∧
    decode 0x1000000000000000#64 = .command .start := by decide

/-- With the input lists empty, and with some of both listed. -/
theorem witness_StepRunsTheOfferedCommand : ∃ s : State,
    offeredStart.resetIn = [] ∧ offeredStart.delayIn = [] ∧ offeredStart.busy = false ∧ offeredStart.fault = false ∧
    offeredStart.cmdIn = [0x1000000000000000#64] ∧ decode 0x1000000000000000#64 = .command .start ∧
    (∀ b ∈ s.resetIn, b = false) ∧ (∀ b ∈ s.delayIn, b = true) ∧ s.busy = false ∧ s.fault = false ∧
    s.cmdIn = [0x1000000000000000#64] :=
  ⟨{ offeredStart with resetIn := [false, false], delayIn := [true] }, by decide⟩

theorem witness_OfferedTableWordIsRunNext :
    State.reset.busy = false ∧ State.reset.fault = false ∧ 64 ≤ 64 ∧
    decodeTableWord 64 0x2850000000000000 = some (.probe 0x50#7) := by decide

/-- The ends of each range of unassigned OPs, and the lowest and the highest reserved bit of a row. -/
theorem witness_RejectedWordFaultsAndDoesNothingElse :
    (State.reset.offer 0#64).resetIn.headD false = false ∧ (State.reset.offer 0#64).busy = false ∧
    (State.reset.offer 0#64).fault = false ∧ (State.reset.offer 0#64).cmdIn = [0#64] ∧
    [0x00, 0x04, 0x0F, 0x16, 0x1F, 0x29, 0xFF].map (fun op =>
      (nextOf (step (State.reset.offer (BitVec.ofNat 64 (op * 2 ^ 56))))).map State.faultCode) =
      List.replicate 7 (some .illegalOpcode) ∧
    (0x1000000000000001#64).extractLsb' 56 8 = Opcode.start.code ∧
    (Opcode.start.mask.getLsbD 0 = true ∧ (0x1000000000000001#64).getLsbD 0 = true) ∧
    (Opcode.start.mask.getLsbD 55 = true ∧ (0x1080000000000000#64).getLsbD 55 = true) := by decide

/-- Each of the four causes ends a step in its code. -/
theorem witness_FaultCausesAreThoseOfTheTable :
    (∀ b ∈ offeredStart.resetIn, b = false) ∧ offeredStart.busy = false ∧ offeredStart.fault = false ∧
    offeredStart.faultCode = .none ∧ offeredStart.cmdIn = [0x1000000000000000#64] ∧
    [0#64, 0x1100000100000000#64, 0x1000000000000000#64, 0x0107070000000000#64].map (fun w =>
      (nextOf (step (State.reset.offer w))).map State.faultCode) =
    [some .illegalOpcode, some .reservedBits, some .notConfigured, some .pinConflict] := by decide

theorem witness_FaultIsLeftOnlyByReset : ∃ s r : State,
    s.fault = true ∧ s.resetIn.headD false = false ∧ r.fault = true ∧ r.resetIn.headD false = true :=
  ⟨{ State.reset with fault := true }, { State.reset with fault := true, resetIn := [true] }, by decide⟩

theorem witness_ResetGivesEveryElementItsResetValue : ∃ s : State, s.resetIn.headD false = true :=
  ⟨{ queuedTwo with resetIn := [true] }, by decide⟩

theorem witness_ReadyBlockWaitsForAWord : configured.resetIn.headD false = false ∧ configured.busy = false ∧
    configured.fault = false ∧ configured.cmdIn = [] := by decide

theorem offeredStart_wf : offeredStart.Wf where
  params_valid := by decide
  hp_pos := by decide
  configured_bound := by decide
  pins_differ := by decide
  txLen_le := by decide
  rxCursor_le := by decide
  rxLen_le := by decide
  txBuf_wf := by decide
  txBuf_within := by decide
  rxBuf_wf := by decide
  rxBuf_within := by decide
  fault_code := by decide
  fault_idle := by decide
  busy_waiting := by decide
  one_command := by decide
  delay_inFlight := by decide
  mid_command := by intro c h; cases h
  queue_counts := by intro q h; cases h

theorem witness_FaultEntryIsPrecise : offeredStart.Wf ∧
    nextOf (step offeredStart) = some { State.reset with fault := true, faultCode := .notConfigured } ∧
    offeredStart.fault = false := ⟨offeredStart_wf, by decide⟩

/-- A configured machine that has been offered OPEN_TX 0x50. -/
def offeredOpenTx : State := { configured with cmdIn := [0x2050000000000000#64] }

theorem offeredOpenTx_wf : offeredOpenTx.Wf where
  params_valid := by decide
  hp_pos := by decide
  configured_bound := by decide
  pins_differ := by decide
  txLen_le := by decide
  rxCursor_le := by decide
  rxLen_le := by decide
  txBuf_wf := by decide
  txBuf_within := by decide
  rxBuf_wf := by decide
  rxBuf_within := by decide
  fault_code := by decide
  fault_idle := by decide
  busy_waiting := by decide
  one_command := by decide
  delay_inFlight := by decide
  mid_command := by intro c h; cases h
  queue_counts := by intro q h; cases h

/-- START of a configured machine whose first delay is not done: what has been performed is on the bus side. -/
def startWaiting : State :=
  { answering [] 1 configured with
    bus := (answering [] 1 configured).bus.play [sdaR, sclR, Event.wait 5]
    busy := true, delay := some 5#32
    inFlight := some { instr := .start, start := (answering [] 1 configured).bus } }

theorem startWaiting_wf : startWaiting.Wf where
  params_valid := by decide
  hp_pos := by decide
  configured_bound := by decide
  pins_differ := by decide
  txLen_le := by decide
  rxCursor_le := by decide
  rxLen_le := by decide
  txBuf_wf := by decide
  txBuf_within := by decide
  rxBuf_wf := by decide
  rxBuf_within := by decide
  fault_code := by decide
  fault_idle := by decide
  busy_waiting := by decide
  one_command := by decide
  delay_inFlight := by decide
  mid_command := by
    intro c h
    cases h
    exact ⟨_, 5#32, [sdaR, sclR], [Event.sample .scl true, Event.wait 5, sdaL, Event.wait 5, sclL], rfl, rfl,
      by decide, rfl⟩
  queue_counts := by intro q h; cases h

/-- The hypotheses of StepKeepsTheStateWellFormed, WellFormedStateAlwaysSteps and StepOnlyAppendsToTheObservation, at a
command boundary and inside a command. -/
theorem witness_StepKeepsTheStateWellFormed :
    offeredOpenTx.Wf ∧ nextOf (step offeredOpenTx) = some { configured with txAddr := 0x50#7, results := [0#32] } ∧
    startWaiting.Wf ∧ (nextOf (step startWaiting)).map State.observation = some ([0#32], gs 5) ∧
    (∀ b ∈ startWaiting.resetIn, b = false) :=
  ⟨offeredOpenTx_wf, by decide, startWaiting_wf, by decide, by decide⟩

/-- The hypotheses of StepKeepsTheModesThoseLastSet and StepKeepsTheLinesLegal. -/
theorem witness_StepKeepsTheBusInvariants :
    offeredConfigure.Throughout Bus.Mirrors ∧ offeredConfigure.LinesLegal ∧ offeredConfigure.boundary.LinesLegal ∧
    (nextOf (step offeredConfigure)).map (fun t => t.bus.trace) = some [sdaR, sclR, Event.wait 5] :=
  ⟨⟨⟨rfl, rfl⟩, ⟨rfl, rfl⟩⟩, ⟨by decide, by decide, by decide, by decide⟩,
    ⟨by decide, by decide, by decide, by decide⟩, by decide⟩

/-- The hypotheses of StepSamplesOnlyReleasedLines, of StepKeepsWaitsPositive and of StepKeepsTheLinesLegal, inside a
command. -/
theorem witness_StepSamplesOnlyReleasedLines :
    startWaiting.Wf ∧ startWaiting.Throughout Bus.SamplesReleased ∧
    startWaiting.Throughout (fun b => waitsPositive b.trace) ∧ startWaiting.LinesLegal ∧
    startWaiting.boundary.LinesLegal ∧ (nextOf (step startWaiting)).isSome = true :=
  ⟨startWaiting_wf, ⟨trivial, trivial⟩, ⟨by
      intro n h
      have : n = 5 := by
        simpa [startWaiting, sdaR, sclR, answering, configured, State.reset, State.resetWith, Bus.perform,
          Bus.delay] using h
      omega,
    by intro n h; simp_all [startWaiting, State.boundary, answering, configured, State.reset, State.resetWith]⟩,
    ⟨by decide, by decide, by decide, by decide⟩, ⟨by decide, by decide, by decide, by decide⟩, by decide⟩

/-- One command for each of the three ways a command can end. -/
theorem witness_EachCommandGivesOneResultOrFaults : State.reset.fault = false ∧
    (nextOf (exec .release State.reset)).isSome = true ∧ (nextOf (exec .start State.reset)).isSome = true ∧
    (nextOf (exec (.queueBytes 1#32) State.reset)).map State.busy = some true := by decide

/-- For EachElementIsWrittenOnlyByItsCommands: commands that change what their list allows. -/
theorem witness_EachElementIsWrittenOnlyByItsCommands :
    (nextOf (exec (.configure 4#8 5#8) State.reset)).map (fun t => (t.configured, t.pinsBound, t.sdaPin)) =
      some (true, true, 4#8) ∧
    (nextOf (exec (.setClock 1#32) State.reset)).map State.hp = some 500000#32 ∧
    (nextOf (exec .read received)).map State.rxCursor = some 2 := by decide

theorem witness_BufferCommandsLeaveTheBusAlone : isBusCommand .read = false ∧
    (nextOf (exec .read received)).isSome = true ∧ isBusCommand (.setClock 1#32) = false := by decide

theorem witness_BusCommandsFaultUnlessConfigured :
    needsConfigured .start = true ∧ State.reset.configured = false := by decide

/-- Two runs of START, one stretched. -/
theorem witness_ClockStretchingChangesNoResult :
    (nextOf (exec .start (answering [] 1 configured))).map State.results = some [0#32] ∧
    (nextOf (exec .start { configured with
      bus := { configured.bus with sclAnswers := [false, true], sclDraws := 0 } })).map State.results =
      some [0#32] := by decide

theorem witness_ConfigureBindsThePinsAndReleasesTheLines : (4#8 : PinId) ≠ 5#8 := by decide

theorem witness_ReleaseRelinquishesTheBus :
    configured.pinsBound = true ∧ State.reset.pinsBound = false := by decide

/-- The ends of both ranges, and two frequencies in order. -/
theorem witness_SetClockDerivesTheHalfPeriod :
    (0x80000000#32 : Word).toInt ≤ 0 ∧ (0#32 : Word).toInt ≤ 0 ∧ 0 < (1#32 : Word).toInt ∧
    (1#32 : Word).toInt ≤ (0x7FFFFFFF#32 : Word).toInt ∧
    (nextOf (exec (.setClock 1#32) State.reset)).map State.hp = some 500000#32 ∧
    (nextOf (exec (.setClock 0x7FFFFFFF#32) State.reset)).map State.hp = some 1#32 := by decide

/-- j = 0, j = limit, and a poll that times out, at a limit of 2; no answers fall under both clauses. -/
theorem witness_StretchPollTakesTheAnswersItNeeds : ∃ b₀ b₂ b₃ : Bus,
    b₀.sclAnswers = List.replicate 0 false ++ true :: [false] ∧
    b₂.sclAnswers = List.replicate 2 false ++ true :: [] ∧
    b₃.sclAnswers = List.replicate (2 + 1) false ++ [true] :=
  ⟨{ configured.bus with sclAnswers := [true, false] }, { configured.bus with sclAnswers := [false, false, true] },
    { configured.bus with sclAnswers := [false, false, false, true] }, by decide⟩

theorem witness_ProceduresAppendBoundedEvents :
    (answering [] 9 configured).bus.sclAnswers.head? = some true ∧
    (answering [] 9 configured).bus.sclAnswers.take 9 = List.replicate 9 true := by decide

/-- For StartEmitsAStartCondition, StopEmitsAStopCondition, WriteBitSendsOneBit, ReadBitReturnsTheSample,
WriteByteSendsTheByteAndReturnsTheAcknowledge, ReadByteReturnsTheBitsSampled, ProbeReportsTheAcknowledge and
TransactionsReleaseSclABoundedNumberOfTimes (with `witness_CloseTxSendsTheQueuedBytes`). -/
theorem witness_BusCommands : State.reset.configured = false ∧ configured.configured = true := by decide

/-- WRITE_BYTE 0x3C, and the environment echoes its bits (vector S8). -/
theorem witness_LoopbackReturnsTheByteSent :
    (nextOf (exec (.writeByte 0x3C#8)
      (answering [false, false, false, true, true, true, true, false, false] 18 configured))).map (fun t =>
        (t.bus.sdaAnswers, t.results)) =
    some ([false, false, true, true, true, true, false, false], [1#32]) ∧
    configured.configured = true ∧
    [(0x3C#8).getLsbD 7, (0x3C#8).getLsbD 6, (0x3C#8).getLsbD 5, (0x3C#8).getLsbD 4, (0x3C#8).getLsbD 3,
      (0x3C#8).getLsbD 2, (0x3C#8).getLsbD 1, (0x3C#8).getLsbD 0] =
    [false, false, true, true, true, true, false, false] := by decide +kernel

/-- The last free entry, and a full buffer. -/
theorem witness_QueueByteAppendsIfThereIsRoom : ∃ s u : State,
    s.txLen < s.params.txCapacity ∧ s.txLen + 1 = s.params.txCapacity ∧ s.txBuf.wf = true ∧
    u.params.txCapacity ≤ u.txLen :=
  ⟨{ State.reset with txLen := 31 }, { State.reset with txLen := 32 }, by decide⟩

/-- A payload offered whole, and none asked for. -/
theorem witness_QueueBytesAppendsWhatFits : ∃ s : State,
    (2#32 : Word).toNat ≤ s.payloadIn.length ∧ (0#32 : Word).toNat ≤ s.payloadIn.length ∧ s.txBuf.wf = true :=
  ⟨{ queuedTwo with payloadIn := [1#8, 2#8] }, by decide⟩

theorem witness_WaitingQueueBytesResumesAsIfNeverInterrupted :
    State.reset.fault = false ∧ State.reset.inFlight = none ∧ ([7#8] : List Byte).length < (2#32 : Word).toNat ∧
    (nextOf (exec (.queueBytes 2#32) { State.reset with payloadIn := [7#8] })).isSome = true := by decide

/-- A full transmit buffer, and an empty one. -/
theorem witness_CloseTxSendsTheQueuedBytes : ∃ s : State,
    s.configured = true ∧ s.txLen ≤ s.params.txCapacity ∧ s.txLen = s.params.txCapacity ∧
    configured.txLen ≤ configured.params.txCapacity ∧ State.reset.configured = false :=
  ⟨{ configured with txLen := 32 }, by decide⟩

/-- Both outcomes occur: `test_request` and `test_request_nack`. -/
theorem witness_RequestFillsTheReceiveBuffer :
    sendsTwo.configured = true ∧ sendsTwo.rxBuf.wf = true ∧ State.reset.configured = false := by decide

/-- For ReadReturnsTheNextByteAndAdvances, PeekReturnsTheNextByteAndStays and AvailableCountsTheUnreadBytes: a byte to
read at the last index, and none. -/
theorem witness_ReadReturnsTheNextByteAndAdvances : received.rxCursor < received.rxLen ∧
    received.rxCursor + 1 = received.rxLen ∧ received.rxLen ≤ received.params.rxCapacity ∧
    State.reset.rxLen ≤ State.reset.rxCursor ∧ received.rxCursor ≤ received.rxLen ∧
    (nextOf (exec .read received)).isSome = true := by decide

/-- The waits of one run of each command the statement names, in half-periods of 5: with a stop, without one, and of
the commands that wait nothing. -/
theorem witness_CommandsWaitAtLeastTheirHalfPeriods :
    configured.configured = true ∧ (4#8 : PinId) ≠ 5#8 ∧ isBusCommand (.openTx 0x50#7) = false ∧
    ([exec (.configure 4#8 5#8) State.reset, exec .start (answering [] 1 configured),
      exec .stop (answering [] 1 configured),
      exec (.writeBit true) (answering [] 1 configured), exec .readBit (answering [true] 1 configured),
      exec (.writeByte 0#8) (answering [true] 9 configured), exec (.readByte true) (answering bitsCA 9 configured),
      exec (.probe 0x50#7) (answering [false] 11 configured),
      exec (.closeTx true) (answering [false, false, false] 29 queuedTwo),
      exec (.request 0x68#7 2#32 true) sendsTwo].map fun o => (nextOf o).map fun t => waitTotal t.bus.trace) =
    [some 5, some 15, some 20, some 10, some 10, some 90, some 90, some 125, some 305, some 305] ∧
    ([exec (.closeTx false) (answering [false, false, false] 29 queuedTwo), exec (.request 0x68#7 2#32 false) sendsTwo,
      exec .release configured, exec (.openTx 0x50#7) configured].map fun o =>
        (nextOf o).map fun t => waitTotal t.bus.trace) = [some 285, some 285, some 0, some 0] ∧
    ([exec (.closeTx true) (answering [false, false, false] 29 queuedTwo),
      exec (.closeTx false) (answering [false, false, false] 29 queuedTwo)].map fun o =>
        (nextOf o).map State.results) = [some [0#32], some [0#32]] := by decide +kernel

theorem witness_TransmissionSendsTheHostsBytesInOrder : ∃ s : State,
    s.configured = true ∧ s.txBuf.wf = true ∧ s.payloadIn.length = (2#32 : Word).toNat :=
  ⟨{ queuedTwo with payloadIn := [1#8, 2#8] }, by decide⟩

theorem witness_ReadsAfterARequestGiveTheBytesReceived :
    sendsTwo.configured = true ∧ sendsTwo.rxBuf.wf = true ∧
    (nextOf (exec (.request 0x68#7 2#32 true) sendsTwo)).map State.rxLen = some 2 := by decide +kernel

/-- A configured machine that has been offered START and is reset at the sampling after `k` of its eight events. -/
def startReset (k : Nat) : State :=
  { answering [] 1 configured with
    cmdIn := [0x1000000000000000#64], resetIn := false :: (List.replicate k false ++ [true]) }

/-- The START of `startWaiting` goes on, and the reset comes at the sampling after `k` of its five other events. -/
def waitingReset (k : Nat) : State :=
  { startWaiting with delayIn := [true], resetIn := false :: (List.replicate k false ++ [true]) }

/-- For both ends: before any event (`before` empty), and after all (`after` empty). -/
theorem witness_ResetAbandonsTheCommandInProgress :
    decode 0x1000000000000000#64 = .command .start ∧
    [startReset 0, startReset 8].map (fun s => (s.busy, s.fault, s.cmdIn, s.delayIn)) =
      List.replicate 2 (false, false, [0x1000000000000000#64], []) ∧
    [startReset 0, startReset 8].map (fun s => (nextOf (exec .start { s with cmdIn := [], busy := true })).map
      fun t => t.bus.trace) = [some ([] ++ gs 5), some (gs 5 ++ [])] ∧
    (startReset 0).resetIn = false :: (List.replicate ([] : List Event).length false ++ true :: []) ∧
    (startReset 8).resetIn = false :: (List.replicate (gs 5).length false ++ true :: []) ∧
    [startReset 0, startReset 8].map (fun s => (nextOf (step s)).map fun t => (t.results, t.history)) =
      [some ([], [[]]), some ([], [gs 5])] := by decide

/-- The same for a command that has gone on after its first delay, and for one that still waits. -/
theorem witness_ResetAbandonsTheCommandInProgress_resumed :
    [waitingReset 0, waitingReset 5].map (fun s => (s.busy, s.fault, s.inFlight.map (·.instr), s.delayIn)) =
      List.replicate 2 (true, false, some .start, [true]) ∧
    [waitingReset 0, waitingReset 5].map (fun s => (nextOf (exec .start s.boundary)).map fun t => t.bus.trace) =
      List.replicate 2 (some (startWaiting.bus.trace ++ ([] ++ (gs 5).drop 3))) ∧
    (waitingReset 0).resetIn = false :: (List.replicate ([] : List Event).length false ++ true :: []) ∧
    (waitingReset 5).resetIn = false :: (List.replicate ((gs 5).drop 3).length false ++ true :: []) ∧
    [waitingReset 0, waitingReset 5].map (fun s => (nextOf (step s)).map fun t => (t.results, t.history, t.busy)) =
      [some ([], [(gs 5).take 3], false), some ([], [gs 5], false)] ∧
    ∃ s : State, s.busy = true ∧ s.resetIn.headD false = true :=
  ⟨by decide, by decide, by decide, by decide, by decide, { startWaiting with resetIn := [true] }, by decide⟩

/-- START's first delay and its last, and a waiting command whose delay is not done. -/
theorem witness_DelayPortHoldsTheCommandUntilDone :
    decode 0x1000000000000000#64 = .command .start ∧
    (nextOf (exec .start { answering [] 1 configured with busy := true })).map (fun t => t.bus.trace) = some (gs 5) ∧
    gs 5 = [sdaR, sclR] ++ Event.wait 5 :: [Event.sample .scl true, Event.wait 5, sdaL, Event.wait 5, sclL] ∧
    delaysOf [sdaR, sclR] = 0 ∧
    gs 5 = [sdaR, sclR, Event.wait 5, Event.sample .scl true, Event.wait 5, sdaL] ++ Event.wait 5 :: [sclL] ∧
    delaysOf [sdaR, sclR, Event.wait 5, Event.sample .scl true, Event.wait 5, sdaL] = 2 ∧
    (∃ s : State, s.busy = false ∧ s.fault = false ∧ s.cmdIn = [0x1000000000000000#64] ∧ s.bus.trace = [] ∧
      (∀ b ∈ s.resetIn, b = false) ∧ s.delayIn = List.replicate 2 true ++ false :: []) ∧
    ∃ s : State, s.busy = true ∧ s.fault = false ∧ s.inFlight.isSome = true ∧ s.resetIn.headD false = false ∧
      s.delayIn = false :: [true] :=
  ⟨by decide, by decide, by decide, by decide, by decide, by decide,
    ⟨{ answering [] 1 configured with cmdIn := [0x1000000000000000#64], delayIn := [true, true, false] }, by decide⟩,
    ⟨{ startWaiting with delayIn := [false, true] }, by decide⟩⟩

/-- The hypotheses of DelayedCommandEndsAsIfNeverDelayed (`test_start_goes_on` is such a run). -/
theorem witness_DelayedCommandEndsAsIfNeverDelayed :
    offeredOpenTx.Wf ∧ (∀ b ∈ offeredOpenTx.resetIn, b = false) ∧ offeredOpenTx.busy = false ∧
    offeredOpenTx.fault = false ∧ offeredOpenTx.cmdIn = [0x2050000000000000#64] ∧
    decode 0x2050000000000000#64 = .command (.openTx 0x50#7) := ⟨offeredOpenTx_wf, by decide⟩

end Sys2Proof.Tests
end

section
/-! SUPPORT. Which words the decoder rejects: one equivalence for each rejection (spec/30_encoding.md R86 to R89). -/

namespace Sys2Proof

/-! ## The row OP selects -/

/-- `opcodes` lists every row of R86. -/
theorem mem_opcodes (o : Opcode) : o ∈ opcodes := by cases o <;> decide

/-- A byte selects no row exactly when it is the code of none. -/
theorem opcodeOf_eq_none_iff {c : Byte} : opcodeOf c = none ↔ ∀ o : Opcode, o.code ≠ c := by
  simp [opcodeOf, mem_opcodes]

/-- R88: the complement of R86's OP column, as ranges of numbers. -/
def UnassignedCode (n : Nat) : Prop :=
  n = 0x00 ∨ (0x04 ≤ n ∧ n ≤ 0x0F) ∨ (0x16 ≤ n ∧ n ≤ 0x1F) ∨ 0x29 ≤ n

/-- No row has a code in R88's ranges. -/
theorem Opcode.not_unassignedCode (o : Opcode) : ¬ UnassignedCode o.code.toNat := by
  cases o <;> simp [UnassignedCode, Opcode.code]

/-- R86's OP column has no gap but R88's ranges. -/
theorem unassignedCode_of_forall_ne {c : Byte} (h : ∀ o : Opcode, o.code ≠ c) : UnassignedCode c.toNat := by
  have hall : ∀ n ∈ opcodes.map (·.code.toNat), n ≠ c.toNat :=
    List.forall_mem_map.2 fun o _ he => h o (BitVec.eq_of_toNat_eq he)
  simp only [opcodes, Opcode.code, List.map_cons, List.map_nil, List.forall_mem_cons, BitVec.toNat_ofNat] at hall
  unfold UnassignedCode
  omega

/-- R88: the bytes that select no row are those of its ranges. -/
theorem opcodeOf_eq_none_iff_unassignedCode {c : Byte} : opcodeOf c = none ↔ UnassignedCode c.toNat := by
  rw [opcodeOf_eq_none_iff]
  refine ⟨unassignedCode_of_forall_ne, ?_⟩
  rintro hu o rfl
  exact o.not_unassignedCode hu

/-- OP is the word's number divided by 2 ^ 56 (R9, R81). -/
theorem toNat_fieldOP (w : CmdWord) : (fieldOP w).toNat = w.toNat / 2 ^ 56 := by
  have := w.isLt
  rw [fieldOP, BitVec.extractLsb'_toNat, Nat.shiftRight_eq_div_pow]
  omega

/-! ## What a row's mask and match say of a word -/

/-- A mask covers all of OP (R87). -/
theorem Opcode.getLsbD_mask_op (o : Opcode) {k : Nat} (hk : 56 ≤ k) (hk' : k < 64) : o.mask.getLsbD k = true := by
  interval_cases k <;> cases o <;> rfl

/-- A match is OP and, below it, zeros (R87). -/
theorem Opcode.getLsbD_matchWord (o : Opcode) (k : Nat) :
    o.matchWord.getLsbD k = if k < 56 then false else o.code.getLsbD (k - 56) := by
  refine (BitVec.getLsbD_append (x := o.code) (y := 0#56)).trans ?_
  rw [BitVec.getLsbD_zero]

/-- The bits of OP are the word's from 56 up (R81). -/
theorem getLsbD_fieldOP (w : CmdWord) {k : Nat} (hk : 56 ≤ k) (hk' : k < 64) :
    (fieldOP w).getLsbD (k - 56) = w.getLsbD k := by
  rw [fieldOP, BitVec.getLsbD_extractLsb', decide_eq_true (by omega), Bool.true_and, Nat.add_sub_cancel' hk]

/-- R87, R89: under a row's OP, the word meets the row exactly when each bit outside OP that the mask covers is 0. -/
theorem and_mask_eq_matchWord_iff {o : Opcode} {w : CmdWord} (hop : fieldOP w = o.code) :
    w &&& o.mask = o.matchWord ↔ ∀ k < 56, o.mask.getLsbD k = true → w.getLsbD k = false := by
  constructor
  · intro h k hk hm
    have hbit := congrArg (BitVec.getLsbD · k) h
    simpa [o.getLsbD_matchWord, hk, hm] using hbit
  · intro h
    apply BitVec.eq_of_getLsbD_eq
    intro k hk
    rw [BitVec.getLsbD_and, o.getLsbD_matchWord]
    by_cases hlow : k < 56
    · cases hm : o.mask.getLsbD k <;> simp [hlow, h k hlow, hm]
    · rw [o.getLsbD_mask_op (by omega) hk, ← hop, getLsbD_fieldOP w (by omega) hk, if_neg hlow, Bool.and_true]

/-! ## The two rejections -/

theorem decode_of_opcodeOf_none {w : CmdWord} (h : opcodeOf (fieldOP w) = none) :
    decode w = .reject .illegalOpcode := by
  simp only [decode, h]

theorem decode_of_fieldOP {o : Opcode} {w : CmdWord} (hop : fieldOP w = o.code) :
    decode w = if w &&& o.mask = o.matchWord then .command (commandOf o w) else .reject .reservedBits := by
  simp only [decode, hop, opcodeOf_code]

/-- R88: the decoder answers ILLEGAL_OPCODE exactly for the unassigned OPs. -/
theorem decode_eq_illegalOpcode_iff {w : CmdWord} :
    decode w = .reject .illegalOpcode ↔ UnassignedCode (w.toNat / 2 ^ 56) := by
  rw [← toNat_fieldOP, ← opcodeOf_eq_none_iff_unassignedCode]
  refine ⟨fun h => ?_, decode_of_opcodeOf_none⟩
  cases ho : opcodeOf (fieldOP w) with
  | none => rfl
  | some o =>
    rw [decode_of_fieldOP (code_of_opcodeOf ho).symm] at h
    split at h <;> cases h

/-- R89: under an assigned OP the decoder answers RESERVED_BITS exactly when a covered bit outside OP is 1. -/
theorem decode_eq_reservedBits_iff {o : Opcode} {w : CmdWord} (hop : fieldOP w = o.code) :
    decode w = .reject .reservedBits ↔ ∃ k, k < 56 ∧ o.mask.getLsbD k = true ∧ w.getLsbD k = true := by
  calc decode w = .reject .reservedBits
      ↔ ¬ w &&& o.mask = o.matchWord := by rw [decode_of_fieldOP hop]; split <;> simp [*]
    _ ↔ ∃ k, k < 56 ∧ o.mask.getLsbD k = true ∧ w.getLsbD k = true := by
        rw [and_mask_eq_matchWord_iff hop]; simp

end Sys2Proof
end

section
/-! The statements about the encoding that speak of R95's examples and of the step that takes a rejected word. -/

namespace Sys2Proof.Machine

/-- A ready block that takes a word the decoder rejects enters the fault and changes nothing else (R88, R89, R203). -/
theorem step_of_decode_reject {s : State} {w : CmdWord} {rest : List CmdWord} {r : Reject}
    (hr : s.resetIn.headD false = false) (hb : s.busy = false) (hf : s.fault = false) (hc : s.cmdIn = w :: rest)
    (hd : decode w = .reject r) :
    step s = .next { s with resetIn := s.resetIn.tail, cmdIn := rest, fault := true, faultCode := rejectCode r } := by
  have hstep : step s = .next ((s.pastResetSignal.accept rest).raise (rejectCode r)) := by
    have hra : s.resetAsserted = false := hr
    simp [step, stepBlock, stepCommand, runWord, hra, hf, hb, hc, hd]
  simp [hstep, State.raise, State.accept, State.pastResetSignal, hb]

/-- Settles O9: each of the two kinds of word is one the decoder rejects, and a rejected word only enters the fault. -/
theorem rejectedWordFaultsAndDoesNothingElse : Obligations.RejectedWordFaultsAndDoesNothingElse := by
  intro s w rest hr hb hf hc
  constructor
  · intro hop
    exact step_of_decode_reject hr hb hf hc (decode_eq_illegalOpcode_iff.2 hop)
  · intro o hop hbit
    exact step_of_decode_reject hr hb hf hc ((decode_eq_reservedBits_iff hop).2 hbit)

/-- Settles O5: nine closed words, each encoded and decoded by evaluation. -/
theorem encodingExamplesDecode : Obligations.EncodingExamplesDecode := by
  unfold Obligations.EncodingExamplesDecode
  decide

end Sys2Proof.Machine
end

section
/-! The statements about the lifecycle commands (spec/40_lifecycle.md), each from its word's fields, an equation for
its bus events, and an equation for each of its answers. -/

namespace Sys2Proof.Machine

/-! ## Words with one end zero (R81) -/

/-- A word with F and V zero is OP, A and B above forty zeros. -/
theorem packWord_zero_fv (o : Opcode) (a b : Byte) :
    packWord o a b false 0#32 = o.code ++ a ++ b ++ 0#40 :=
  (BitVec.append_assoc (x₁ := o.code ++ a ++ b ++ 0#7) (x₂ := 0#1) (x₃ := 0#32)).trans
    (BitVec.append_assoc (x₁ := o.code ++ a ++ b) (x₂ := 0#7) (x₃ := 0#33))

/-- A word with A, B and F zero is OP, twenty-four zeros and V. -/
theorem packWord_zero_abf (o : Opcode) (v : Word) : packWord o 0#8 0#8 false v = o.code ++ 0#24 ++ v := by
  have hzeros : (o.code ++ 0#8 ++ 0#8 ++ 0#7 ++ 0#1 : BitVec 32) = o.code ++ 0#24 := by cases o <;> rfl
  exact congrArg (· ++ v) hzeros

/-! ## SET_CLOCK (R103) -/

/-- The half-period fits its 32 bits. -/
theorem toNat_halfPeriodOf (f : Nat) : (halfPeriodOf f).toNat = max 1 (500000 / f) := by
  have hq : 500000 / f ≤ 500000 := Nat.div_le_self ..
  exact Nat.mod_eq_of_lt (by omega)

theorem one_le_halfPeriodOf (f : Nat) : 1 ≤ (halfPeriodOf f).toNat := by
  rw [toNat_halfPeriodOf]
  exact Nat.le_max_left ..

theorem halfPeriodOf_le (f : Nat) : (halfPeriodOf f).toNat ≤ 500000 := by
  rw [toNat_halfPeriodOf]
  exact max_le (by decide) (Nat.div_le_self ..)

/-- A higher frequency has no longer half-period. -/
theorem halfPeriodOf_antitone {f g : Nat} (hf : 0 < f) (hfg : f ≤ g) :
    (halfPeriodOf g).toNat ≤ (halfPeriodOf f).toNat := by
  rw [toNat_halfPeriodOf, toNat_halfPeriodOf]
  exact max_le_max_left 1 (Nat.div_le_div_left hfg hf)

theorem exec_setClock_of_nonpos {v : Word} (hv : v.toInt ≤ 0) (s : State) :
    exec (.setClock v) s = .next (s.ret 0#32) := if_pos hv

theorem exec_setClock_of_pos {v : Word} (hv : 0 < v.toInt) (s : State) :
    exec (.setClock v) s = .next ({ s with hp := halfPeriodOf v.toInt.toNat }.ret 0#32) :=
  if_neg (Int.not_le.2 hv)

theorem hp_of_exec_setClock {v : Word} {s t : State} (hv : 0 < v.toInt) (h : exec (.setClock v) s = .next t) :
    t.hp = halfPeriodOf v.toInt.toNat := by
  rw [exec_setClock_of_pos hv] at h
  cases h
  rfl

/-- Settles O32: the half-period of a positive frequency does not overflow, and division is antitone in its divisor. -/
theorem setClockDerivesTheHalfPeriod : Obligations.SetClockDerivesTheHalfPeriod := by
  refine ⟨packWord_zero_abf .setClock, fun s v hv => exec_setClock_of_nonpos hv s, ?_, ?_⟩
  · intro s v hv
    exact ⟨halfPeriodOf v.toInt.toNat, toNat_halfPeriodOf _, exec_setClock_of_pos hv s⟩
  · intro s u v t t' hu huv ht ht'
    rw [hp_of_exec_setClock hu ht, hp_of_exec_setClock (hu.trans_le huv) ht']
    exact ⟨one_le_halfPeriodOf _, halfPeriodOf_antitone (by omega) (Int.toNat_le_toNat huv), halfPeriodOf_le _⟩

/-! ## CONFIGURE (R101) -/

/-- CONFIGURE's bus side, written out. -/
theorem settle_eq (t : Timing) (b : Bus) :
    settle t b = { b with
      sdaMode := .inputPullup, sclMode := .inputPullup
      trace := b.trace ++ [.mode .sda .inputPullup, .mode .scl .inputPullup, .wait t.hp] } := by
  simp [settle, Bus.setMode, Bus.delay, Bus.emit, DriveMode.pinMode]

theorem exec_configure_same (pin : PinId) (s : State) :
    exec (.configure pin pin) s = .next (s.raise .pinConflict) := if_pos rfl

theorem exec_configure_of_ne {sda scl : PinId} (h : sda ≠ scl) (s : State) :
    exec (.configure sda scl) s =
      .next ({ s with sdaPin := sda, sclPin := scl, pinsBound := true, bus := settle s.timing s.bus,
                      configured := true }.ret 0#32) := if_neg h

/-- Settles O30: equal pins raise PIN_CONFLICT, and different ones are bound on the settled bus. -/
theorem configureBindsThePinsAndReleasesTheLines : Obligations.ConfigureBindsThePinsAndReleasesTheLines := by
  refine ⟨packWord_zero_fv .configure, fun s pin => exec_configure_same pin s, ?_⟩
  intro s sda scl hne
  rw [exec_configure_of_ne hne, settle_eq]
  rfl

/-! ## RELEASE (R102) -/

/-- RELEASE's bus side with pins bound, written out. -/
theorem relinquish_eq (b : Bus) :
    relinquish b = { b with
      sdaMode := .input, sclMode := .input
      trace := b.trace ++ [.mode .sda .input, .mode .scl .input] } := by
  simp [relinquish, Bus.setMode, Bus.emit, DriveMode.pinMode]

theorem exec_release (s : State) :
    exec .release s =
      .next ({ s with bus := if s.pinsBound then relinquish s.bus else s.bus, configured := false }.ret 0#32) := rfl

/-- Settles O31: only bound pins are set to neutral, and `configured` is cleared in both cases. -/
theorem releaseRelinquishesTheBus : Obligations.ReleaseRelinquishesTheBus := by
  refine ⟨rfl, ?_, ?_⟩
  · intro s hp
    rw [exec_release, if_pos hp, relinquish_eq]
    rfl
  · intro s hp
    rw [exec_release, if_neg (by simp [hp])]
    rfl

end Sys2Proof.Machine
end

section
/-! The statements about the bit level (spec/41_bit_level.md). Line control and the clock-stretch poll come first, then
how many events each procedure appends, then the four commands. -/

namespace Sys2Proof.Machine

/-! ## Line control (R121, R122, R125) -/

/-- Settles O33: each procedure is one `SetMode`, which has no look at the mode before it. -/
theorem lineControlAppendsOneEvent : Obligations.LineControlAppendsOneEvent :=
  fun _ => ⟨rfl, rfl, rfl⟩

/-! ## The clock-stretch poll against listed answers (R124) -/

/-- A sample of SCL takes the next listed answer. -/
theorem Bus.sample_scl_of_answers {b : Bus} {lvl : Level} {rest : List Level} (h : b.sclAnswers = lvl :: rest) :
    b.sample .scl = (lvl, { b with sclAnswers := rest, trace := b.trace ++ [.sample .scl lvl] }) := by
  simp [Bus.sample, Bus.answer, h, Bus.emit]

/-- The poll ends at a high answer, however many waits it has left. -/
theorem stretchWait_of_high {b : Bus} {rest : List Level} (n : Nat) (h : b.sclAnswers = true :: rest) :
    stretchWait n b = { b with sclAnswers := rest, trace := b.trace ++ [.sample .scl true] } := by
  cases n <;> simp [stretchWait, Bus.sample_scl_of_answers h]

/-- With no wait left, the poll ends at a low answer too (R126). -/
theorem stretchWait_zero_of_low {b : Bus} {rest : List Level} (h : b.sclAnswers = false :: rest) :
    stretchWait 0 b = { b with sclAnswers := rest, trace := b.trace ++ [.sample .scl false] } := by
  simp [stretchWait, Bus.sample_scl_of_answers h]

/-- With a wait left, a low answer costs it and the poll goes on. -/
theorem stretchWait_succ_of_low {b : Bus} {rest : List Level} (n : Nat) (h : b.sclAnswers = false :: rest) :
    stretchWait (n + 1) b = stretchWait n { b with
      sclAnswers := rest, trace := b.trace ++ [.sample .scl false, .wait 1] } := by
  simp [stretchWait, Bus.sample_scl_of_answers h, Bus.delay, Bus.emit]

/-- `j` low answers take `j` of the poll's waits. -/
theorem stretchWait_of_lows {b : Bus} {rest : List Level} (n j : Nat)
    (h : b.sclAnswers = List.replicate j false ++ rest) :
    stretchWait (n + j) b = stretchWait n { b with sclAnswers := rest, trace := b.trace ++ lowPolls j } := by
  induction j generalizing b with
  | zero =>
    obtain rfl : b.sclAnswers = rest := h
    simp [lowPolls]
  | succ j ih =>
    rw [← Nat.add_assoc, stretchWait_succ_of_low (n + j) h, ih rfl, lowPolls_succ, List.append_assoc]

/-- Settles O34: the lows take their waits (`stretchWait_of_lows`), and the poll ends at the high answer or with no wait
left. -/
theorem stretchPollTakesTheAnswersItNeeds : Obligations.StretchPollTakesTheAnswersItNeeds := by
  intro limit b rest
  constructor
  · intro j hj h
    obtain ⟨n, rfl⟩ := Nat.exists_eq_add_of_le' hj
    rw [stretchWait_of_lows n j h, stretchWait_of_high n rfl]
    rfl
  · intro h
    have hlows : b.sclAnswers = List.replicate limit false ++ false :: rest := by
      rw [h, List.replicate_succ', List.append_assoc]; rfl
    have hpoll := stretchWait_of_lows 0 limit hlows
    rw [Nat.zero_add, stretchWait_zero_of_low rfl] at hpoll
    exact hpoll

/-! ## How many events (R138) -/

theorem Bus.Emits.appendsTo {b b' : Bus} {evs : List Event} (h : b.Emits b' evs) :
    b.AppendsTo b' evs.length evs.length := ⟨evs, h.trace, Nat.le_refl _, Nat.le_refl _⟩

theorem Bus.AppendsTo.trans {b₁ b₂ b₃ : Bus} {lo₁ hi₁ lo₂ hi₂ : Nat} (h₁ : b₁.AppendsTo b₂ lo₁ hi₁)
    (h₂ : b₂.AppendsTo b₃ lo₂ hi₂) : b₁.AppendsTo b₃ (lo₁ + lo₂) (hi₁ + hi₂) := by
  obtain ⟨e₁, ht₁, hlo₁, hhi₁⟩ := h₁
  obtain ⟨e₂, ht₂, hlo₂, hhi₂⟩ := h₂
  refine ⟨e₁ ++ e₂, by rw [ht₂, ht₁, List.append_assoc], ?_, ?_⟩
  all_goals rw [List.length_append]; omega

/-- The same bounds, written otherwise or widened. -/
theorem Bus.AppendsTo.mono {b b' : Bus} {lo hi lo' hi' : Nat} (h : b.AppendsTo b' lo hi) (hlo : lo' ≤ lo)
    (hhi : hi ≤ hi') : b.AppendsTo b' lo' hi' := by
  obtain ⟨evs, ht, hl, hh⟩ := h
  exact ⟨evs, ht, hlo.trans hl, hh.trans hhi⟩

/-! ### The release of SCL -/

theorem length_lowPolls (j : Nat) : (lowPolls j).length = 2 * j := by
  simp [lowPolls, Nat.mul_comm]

theorem IsPoll.length_bounds {limit : Nat} {evs : List Event} (h : IsPoll limit evs) :
    1 ≤ evs.length ∧ evs.length ≤ 2 * limit + 1 := by
  rcases h with ⟨j, hj, rfl⟩ | rfl
  all_goals
    rw [List.length_append, length_lowPolls, List.length_singleton]
    omega

/-- Whatever the bus answers. -/
theorem releaseScl_appendsTo (t : Timing) (b : Bus) :
    b.AppendsTo (releaseScl t b) 3 (2 * t.pollLimit + 3) := by
  obtain ⟨evs, ⟨p, hp, rfl⟩, he⟩ := releaseScl_spec t b
  obtain ⟨hlo, hhi⟩ := hp.length_bounds
  exact he.appendsTo.mono (by simpa using hlo) (by simpa using hhi)

/-- With no stretching. -/
theorem releaseScl_of_high (t : Timing) {b : Bus} {rest : List Level} (h : b.sclAnswers = true :: rest) :
    releaseScl t b = { b with
      sclMode := .inputPullup, sclAnswers := rest
      trace := b.trace ++ [.mode .scl .inputPullup, .wait t.hp, .sample .scl true] } := by
  have hb : ((b.setMode .scl .inputPullup).delay t.hp).sclAnswers = true :: rest := h
  rw [releaseScl, stretchWait_of_high _ hb]
  simp [Bus.setMode, Bus.delay, Bus.emit, DriveMode.pinMode]

theorem releaseScl_appendsTo_of_high (t : Timing) {b : Bus} {rest : List Level} (h : b.sclAnswers = true :: rest) :
    b.AppendsTo (releaseScl t b) 3 3 := by
  rw [releaseScl_of_high t h]
  exact ⟨_, rfl, Nat.le_refl _, Nat.le_refl _⟩

/-! ### Each procedure: the events of its one release of SCL, and a fixed number around them -/

section Around

variable {t : Timing} {b : Bus} {lo hi : Nat}

theorem genStart_appendsTo (h : (releaseSda b).AppendsTo (releaseScl t (releaseSda b)) lo hi) :
    b.AppendsTo (genStart t b) (lo + 5) (hi + 5) := by
  have hpre : b.AppendsTo (releaseSda b) 1 1 := (Bus.emits_setMode .sda .inputPullup b).appendsTo
  have hpost : (releaseScl t (releaseSda b)).AppendsTo (genStart t b) 4 4 :=
    ((((Bus.emits_delay t.hp _).trans (Bus.emits_setMode .sda .outputLow _)).trans
      (Bus.emits_delay t.hp _)).trans (Bus.emits_setMode .scl .outputLow _)).appendsTo
  exact ((hpre.trans h).trans hpost).mono (by omega) (by omega)

theorem genStop_appendsTo
    (h : ((driveSdaLow b).delay t.hp).AppendsTo (releaseScl t ((driveSdaLow b).delay t.hp)) lo hi) :
    b.AppendsTo (genStop t b) (lo + 5) (hi + 5) := by
  have hpre : b.AppendsTo ((driveSdaLow b).delay t.hp) 2 2 :=
    ((Bus.emits_setMode .sda .outputLow b).trans (Bus.emits_delay t.hp _)).appendsTo
  have hpost : (releaseScl t ((driveSdaLow b).delay t.hp)).AppendsTo (genStop t b) 3 3 :=
    (((Bus.emits_delay t.hp _).trans (Bus.emits_setMode .sda .inputPullup _)).trans
      (Bus.emits_delay t.hp _)).appendsTo
  exact ((hpre.trans h).trans hpost).mono (by omega) (by omega)

theorem txBit_appendsTo {bit : Bool}
    (h : ((putSda bit b).delay t.hp).AppendsTo (releaseScl t ((putSda bit b).delay t.hp)) lo hi) :
    b.AppendsTo (txBit t bit b) (lo + 3) (hi + 3) := by
  have hpre : b.AppendsTo ((putSda bit b).delay t.hp) 2 2 :=
    ((putSda_emits bit b).trans (Bus.emits_delay t.hp _)).appendsTo
  have hpost : (releaseScl t ((putSda bit b).delay t.hp)).AppendsTo (txBit t bit b) 1 1 :=
    (Bus.emits_setMode .scl .outputLow _).appendsTo
  exact ((hpre.trans h).trans hpost).mono (by omega) (by omega)

theorem rxBit_appendsTo
    (h : ((releaseSda b).delay t.hp).AppendsTo (releaseScl t ((releaseSda b).delay t.hp)) lo hi) :
    b.AppendsTo (rxBit t b).2 (lo + 4) (hi + 4) := by
  have hpre : b.AppendsTo ((releaseSda b).delay t.hp) 2 2 :=
    ((Bus.emits_setMode .sda .inputPullup b).trans (Bus.emits_delay t.hp _)).appendsTo
  have hpost : (releaseScl t ((releaseSda b).delay t.hp)).AppendsTo (rxBit t b).2 2 2 :=
    ((Bus.emits_sample .sda _).trans (Bus.emits_setMode .scl .outputLow _)).appendsTo
  exact ((hpre.trans h).trans hpost).mono (by omega) (by omega)

end Around

/-! ### Bits and bytes with no stretching -/

section Unstretched

variable (t : Timing) {b : Bus} {rest : List Level}

/-- Putting a bit on SDA leaves the answers of SCL. -/
@[simp] theorem putSda_sclAnswers (bit : Bool) (b : Bus) : (putSda bit b).sclAnswers = b.sclAnswers := by
  cases bit <;> rfl

/-- A sample of SDA leaves the answers of SCL. -/
@[simp] theorem Bus.sample_sda_sclAnswers (b : Bus) : (b.sample .sda).2.sclAnswers = b.sclAnswers := by
  cases h : b.sdaAnswers <;> simp [Bus.sample, Bus.answer, h]

/-- A bit sent takes one answer of SCL. -/
theorem txBit_of_high (bit : Bool) (h : b.sclAnswers = true :: rest) :
    b.AppendsTo (txBit t bit b) 6 6 ∧ (txBit t bit b).sclAnswers = rest := by
  have hput : ((putSda bit b).delay t.hp).sclAnswers = true :: rest := (putSda_sclAnswers bit b).trans h
  refine ⟨txBit_appendsTo (releaseScl_appendsTo_of_high t hput), ?_⟩
  rw [txBit, releaseScl_of_high t hput]
  rfl

/-- A bit received takes one answer of SCL. -/
theorem rxBit_of_high (h : b.sclAnswers = true :: rest) :
    b.AppendsTo (rxBit t b).2 7 7 ∧ (rxBit t b).2.sclAnswers = rest := by
  have hput : ((releaseSda b).delay t.hp).sclAnswers = true :: rest := h
  refine ⟨rxBit_appendsTo (releaseScl_appendsTo_of_high t hput), ?_⟩
  rw [rxBit, openBit, releaseScl_of_high t hput]
  exact Bus.sample_sda_sclAnswers _

theorem txBits_of_highs (bits : List Bool) (h : b.sclAnswers = List.replicate bits.length true ++ rest) :
    b.AppendsTo (txBits t bits b) (6 * bits.length) (6 * bits.length) ∧ (txBits t bits b).sclAnswers = rest := by
  induction bits generalizing b with
  | nil => exact ⟨(Bus.Emits.refl b).appendsTo, h⟩
  | cons bit bits ih =>
    obtain ⟨hbit, hleft⟩ := txBit_of_high t bit h
    obtain ⟨hbits, hrest⟩ := ih hleft
    refine ⟨(hbit.trans hbits).mono ?_ ?_, hrest⟩
    all_goals rw [List.length_cons]; omega

theorem rxBits_of_highs (n : Nat) (r : Byte) (h : b.sclAnswers = List.replicate n true ++ rest) :
    b.AppendsTo (rxBits t n r b).2 (7 * n) (7 * n) ∧ (rxBits t n r b).2.sclAnswers = rest := by
  induction n generalizing r b with
  | zero => exact ⟨(Bus.Emits.refl b).appendsTo, h⟩
  | succ n ih =>
    obtain ⟨hbit, hleft⟩ := rxBit_of_high t h
    obtain ⟨hbits, hrest⟩ := ih (shiftIn r (rxBit t b).1) hleft
    exact ⟨(hbit.trans hbits).mono (by omega) (by omega), hrest⟩

/-- Eight bits out and one in. -/
theorem txByte_of_highs (v : Byte) (h : b.sclAnswers = List.replicate 8 true ++ true :: rest) :
    b.AppendsTo (txByte t v b).2 55 55 := by
  obtain ⟨hbits, hleft⟩ := txBits_of_highs t (msbFirst v) h
  exact hbits.trans (rxBit_of_high t hleft).1

/-- Eight bits in and one out. -/
theorem rxByte_of_highs (ack : Bool) (h : b.sclAnswers = List.replicate 8 true ++ true :: rest) :
    b.AppendsTo (rxByte t ack b).2 62 62 := by
  obtain ⟨hbits, hleft⟩ := rxBits_of_highs t 8 0#8 h
  exact hbits.trans (txBit_of_high t (!ack) hleft).1

end Unstretched

/-- Settles O35: each procedure's bounds are those of its release of SCL, with and without stretching, and the events
around it; a byte is nine bits, each of which takes one answer of SCL. -/
theorem proceduresAppendBoundedEvents : Obligations.ProceduresAppendBoundedEvents := by
  intro t b
  refine ⟨?_, ?_, ?_⟩
  · exact ⟨releaseScl_appendsTo t b, genStart_appendsTo (releaseScl_appendsTo t _),
      genStop_appendsTo (releaseScl_appendsTo t _), fun bit => txBit_appendsTo (releaseScl_appendsTo t _),
      rxBit_appendsTo (releaseScl_appendsTo t _)⟩
  · intro h
    obtain ⟨rest, h⟩ := List.head?_eq_some_iff.1 h
    have hsda (m : DriveMode) : (b.setMode .sda m).sclAnswers = true :: rest := h
    exact ⟨releaseScl_appendsTo_of_high t h, genStart_appendsTo (releaseScl_appendsTo_of_high t (hsda .inputPullup)),
      genStop_appendsTo (releaseScl_appendsTo_of_high t (hsda .outputLow)), fun bit => (txBit_of_high t bit h).1,
      (rxBit_of_high t h).1⟩
  · intro h
    have hnine : b.sclAnswers = List.replicate 8 true ++ true :: b.sclAnswers.drop 9 := by
      conv_lhs => rw [← List.take_append_drop 9 b.sclAnswers, h]
      rfl
    exact ⟨fun v => txByte_of_highs t v hnine, fun ack => rxByte_of_highs t ack hnine⟩

/-! ## The commands -/

/-- R202: a command that needs a configured block traps on one that is not. -/
theorem exec_of_not_configured {i : Instr} {s : State} (hi : needsConfigured i = true) (hc : s.configured = false) :
    exec i s = .next (s.raise .notConfigured) := by
  have htrap (body : Host.Outcome State Fault Refusal) : whenConfigured s body = .next (s.raise .notConfigured) :=
    if_neg (by simp [hc])
  cases i with
  | start | stop | writeBit | readBit | writeByte | readByte | closeTx | request | probe => exact htrap _
  | configure | release | setClock | openTx | queueByte | queueBytes | read | peek | available => cases hi

theorem exec_start_of_configured {s : State} (hc : s.configured = true) :
    exec .start s = .next ((s.withBus (genStart s.timing s.bus)).ret 0#32) := if_pos hc

theorem exec_stop_of_configured {s : State} (hc : s.configured = true) :
    exec .stop s = .next ((s.withBus (genStop s.timing s.bus)).ret 0#32) := if_pos hc

theorem exec_writeBit_of_configured {s : State} (hc : s.configured = true) (bit : Bool) :
    exec (.writeBit bit) s = .next ((s.withBus (txBit s.timing bit s.bus)).ret 0#32) := if_pos hc

theorem exec_readBit_of_configured {s : State} (hc : s.configured = true) :
    exec .readBit s =
      .next ((s.withBus (rxBit s.timing s.bus).2).ret (boolResult (rxBit s.timing s.bus).1)) := if_pos hc

/-- R25: bus activity leaves the lines in the modes its events end in. -/
theorem Bus.Emits.endModes {b b' : Bus} {evs : List Event} {md mc : PinMode} (he : b.Emits b' evs)
    (h : modeAfter .sda b.sdaMode evs = md ∧ modeAfter .scl b.sclMode evs = mc) :
    b'.sdaMode = md ∧ b'.sclMode = mc := ⟨he.sdaMode.trans h.1, he.sclMode.trans h.2⟩

/-- Settles O36: the events of `genStart` are a start condition's, which ends with both lines low. -/
theorem startEmitsAStartCondition : Obligations.StartEmitsAStartCondition := by
  refine ⟨rfl, fun s hc => exec_of_not_configured rfl hc, ?_⟩
  intro s hc
  obtain ⟨evs, h, he⟩ := genStart_spec s.timing s.bus
  exact ⟨_, evs, exec_start_of_configured hc, h, he, he.endModes (h.ends _ _)⟩

/-- Settles O37: the events of `genStop` are a stop condition's, which ends with both lines released. -/
theorem stopEmitsAStopCondition : Obligations.StopEmitsAStopCondition := by
  refine ⟨rfl, fun s hc => exec_of_not_configured rfl hc, ?_⟩
  intro s hc
  obtain ⟨evs, h, he⟩ := genStop_spec s.timing s.bus
  exact ⟨_, evs, exec_stop_of_configured hc, h, he, he.endModes (h.ends _ _)⟩

/-- Settles O38: the events of `txBit` are one bit's out, and the result is 0 whatever they sampled. -/
theorem writeBitSendsOneBit : Obligations.WriteBitSendsOneBit := by
  refine ⟨by decide, fun s bit hc => exec_of_not_configured rfl hc, ?_⟩
  intro s bit hc
  obtain ⟨evs, h, he⟩ := txBit_spec s.timing bit s.bus
  exact ⟨_, evs, exec_writeBit_of_configured hc bit, h, he, he.endModes (h.ends _ _)⟩

/-- Settles O39: the level `rxBit` returns is the one its events sample on SDA. -/
theorem readBitReturnsTheSample : Obligations.ReadBitReturnsTheSample := by
  refine ⟨rfl, fun s hc => exec_of_not_configured rfl hc, ?_⟩
  intro s hc
  obtain ⟨evs, h, he⟩ := rxBit_spec s.timing s.bus
  exact ⟨_, evs, _, exec_readBit_of_configured hc, h, he, he.endModes (h.ends _ _)⟩

end Sys2Proof.Machine
end

section
/-! The statements about the byte level (spec/42_byte_level.md): the two byte commands, each from its word and the
events of its procedure, and R154's loopback law from what the SDA samples of a received byte are. -/

namespace Sys2Proof.Machine

/-- A word with B, F and V zero is OP and A above forty-eight zeros. -/
theorem packWord_zero_bfv (o : Opcode) (a : Byte) : packWord o a 0#8 false 0#32 = o.code ++ a ++ 0#48 :=
  (packWord_zero_fv o a 0#8).trans (BitVec.append_assoc (x₁ := o.code ++ a) (x₂ := 0#8) (x₃ := 0#40))

theorem exec_writeByte_of_configured {s : State} (hc : s.configured = true) (v : Byte) :
    exec (.writeByte v) s =
      .next ((s.withBus (txByte s.timing v s.bus).2).ret (boolResult (txByte s.timing v s.bus).1)) := if_pos hc

theorem exec_readByte_of_configured {s : State} (hc : s.configured = true) (ack : Bool) :
    exec (.readByte ack) s =
      .next ((s.withBus (rxByte s.timing ack s.bus).2).ret (byteResult (rxByte s.timing ack s.bus).1)) := if_pos hc

/-- Settles O40: the acknowledge `txByte` returns is the negated level its events sample in the ninth bit. -/
theorem writeByteSendsTheByteAndReturnsTheAcknowledge :
    Obligations.WriteByteSendsTheByteAndReturnsTheAcknowledge := by
  refine ⟨packWord_zero_bfv .writeByte, fun s v hc => exec_of_not_configured rfl hc, ?_⟩
  intro s v hc
  obtain ⟨evs, h, he⟩ := txByte_spec s.timing v s.bus
  exact ⟨_, evs, _, exec_writeByte_of_configured hc v, h, he, he.endModes (h.ends _ _)⟩

/-- Settles O41: the byte `rxByte` returns is the one whose bits its events sample on SDA. -/
theorem readByteReturnsTheBitsSampled : Obligations.ReadByteReturnsTheBitsSampled := by
  refine ⟨by decide, fun s ack hc => exec_of_not_configured rfl hc, ?_⟩
  intro s ack hc
  obtain ⟨evs, h, he⟩ := rxByte_spec s.timing ack s.bus
  exact ⟨_, evs, _, exec_readByte_of_configured hc ack, h, he, he.endModes (h.ends _ _)⟩

/-! ## Loopback (R154) -/

/-- R66: samples are the answers listed for them, where enough are listed. -/
theorem Answered.eq_of_length {taken bits rest after : List Level} (h : Answered taken (bits ++ rest) after)
    (hlen : taken.length = bits.length) : taken = bits := by
  obtain ⟨free, heq, -⟩ := h
  rw [List.append_assoc] at heq
  exact List.append_inj_left heq hlen

/-- The byte received is the one whose bits the environment lists for SDA, v[7] first. -/
theorem rxByte_of_answers (t : Timing) (ack : Bool) {b : Bus} {v : Byte} {rest : List Level}
    (h : b.sdaAnswers = msbFirst v ++ rest) : (rxByte t ack b).1 = v := by
  obtain ⟨evs, hin, he⟩ := rxByte_spec t ack b
  have hans := he.sdaAnswers
  rw [hin.sda, h] at hans
  exact msbFirst_injective (hans.eq_of_length rfl)

/-- A READ_BYTE whose SDA samples are answered with the bits of a byte has that byte as its result. -/
theorem exec_readByte_of_answers {s : State} {v : Byte} {rest : List Level}
    (h : s.bus.sdaAnswers = msbFirst v ++ rest) (hc : s.configured = true) (ack : Bool) :
    ∃ u, exec (.readByte ack) s = .next u ∧ u.results = s.results ++ [v.zeroExtend 32] := by
  refine ⟨_, exec_readByte_of_configured hc ack, ?_⟩
  rw [rxByte_of_answers s.timing ack h]
  rfl

/-- Settles O42: a byte sent begins with its eight bits sent, and the block stays configured, so READ_BYTE runs next. -/
theorem loopbackReturnsTheByteSent : Obligations.LoopbackReturnsTheByteSent := by
  rintro s v ack bits rest hc rfl
  obtain ⟨evs, ⟨e₁, e₂, hout, -, rfl⟩, he⟩ := txByte_spec s.timing v s.bus
  exact ⟨_, e₁, e₂, exec_writeByte_of_configured hc v, hout, he.trace.trans (List.append_assoc ..).symm,
    fun hans => exec_readByte_of_answers hans hc ack⟩

end Sys2Proof.Machine
end

section
/-! The statements about the transaction commands (spec/43_transaction.md): their words, the two buffers, what each
piece of traffic leaves the lines in, and then the commands, each from an equation for each of its answers. -/

namespace Sys2Proof.Machine

/-! ## Words and results -/

/-- The A field of an address command: A[7] is 0, and A[6:0] is the address (R83). -/
theorem code_append_addr (c : Byte) (addr : Addr) : (c ++ addr.zeroExtend 8 : BitVec 16) = c ++ 0#1 ++ addr := by
  have haddr : addr.zeroExtend 8 = 0#1 ++ addr := BitVec.setWidth_eq_append (by decide)
  rw [haddr]
  exact (BitVec.append_assoc (x₁ := c) (x₂ := 0#1) (x₃ := addr)).symm

/-- A word of an address and no more is OP, a zero, the address and forty-eight zeros. -/
theorem packWord_addr (o : Opcode) (addr : Addr) :
    packWord o (addr.zeroExtend 8) 0#8 false 0#32 = o.code ++ 0#1 ++ addr ++ 0#48 :=
  (packWord_zero_bfv o (addr.zeroExtend 8)).trans (congrArg (· ++ 0#48) (code_append_addr o.code addr))

/-- A word with B zero is OP and A, fifteen zeros, F and V. -/
theorem packWord_zero_b (o : Opcode) (a : Byte) (f : Bool) (v : Word) :
    packWord o a 0#8 f v = o.code ++ a ++ 0#15 ++ BitVec.ofBool f ++ v :=
  congrArg (· ++ BitVec.ofBool f ++ v) (BitVec.append_assoc (x₁ := o.code ++ a) (x₂ := 0#8) (x₃ := 0#7))

/-- A count that is a natural number is its low 32 bits (R82). -/
theorem countResult_natCast (n : Nat) : countResult (n : Int) = BitVec.ofNat 32 n := BitVec.ofInt_natCast ..

/-- Settles O43: appending the direction bit doubles the address and adds the bit. -/
theorem addressByteIsTheAddressAndTheDirection : Obligations.AddressByteIsTheAddressAndTheDirection := by
  refine ⟨fun a rw => ?_, rfl, rfl⟩
  rw [addrByte, BitVec.toNat_concat, Nat.mul_comm]

/-! ## The transmit buffer (R171 to R173) -/

/-- Settles O44: OPEN_TX has one answer, and its word is an address command's. -/
theorem openTxRecordsTheAddressAndEmptiesTheBuffer : Obligations.OpenTxRecordsTheAddressAndEmptiesTheBuffer :=
  ⟨packWord_addr .openTx, fun _ _ => rfl⟩

theorem exec_queueByte_of_room {s : State} (h : s.txLen < s.params.txCapacity) (v : Byte) :
    exec (.queueByte v) s =
      .next ({ s with txBuf := s.txBuf.write s.txLen v, txLen := s.txLen + 1 }.ret 1#32) := by
  simp only [exec, execQueueByte, appendByte_room h]
  rfl

theorem exec_queueByte_of_full {s : State} (h : s.params.txCapacity ≤ s.txLen) (v : Byte) :
    exec (.queueByte v) s = .next (s.ret 0#32) := by
  simp only [exec, execQueueByte, appendByte_full (Nat.not_lt.2 h)]
  rfl

/-- Settles O45: with room the byte is written at `tx_len`, which no other entry sees. -/
theorem queueByteAppendsIfThereIsRoom : Obligations.QueueByteAppendsIfThereIsRoom := by
  refine ⟨packWord_zero_bfv .queueByte, ?_, fun s v h => exec_queueByte_of_full h v⟩
  intro s v h hwf
  exact ⟨_, exec_queueByte_of_room h v, Memory.read_write_same hwf _ v,
    fun j hj => Memory.read_write_other hj s.txBuf v⟩

/-- R173: with the payload offered, the bytes there is room for are written from `tx_len` on, and all are taken. -/
theorem exec_queueBytes_of_offered {s : State} {n : Word} (h : n.toNat ≤ s.payloadIn.length) :
    exec (.queueBytes n) s =
      .next ({ s with txBuf := s.txBuf.writeAll s.txLen (s.payloadIn.take (s.room n.toNat)),
                      txLen := s.txLen + s.room n.toNat, payloadIn := s.payloadIn.drop n.toNat,
                      queue := none }.ret (BitVec.ofNat 32 (s.room n.toNat))) := by
  simp only [exec, execQueueBytes, quantity, takePayload_enough h, outcomeOf, Nat.zero_add, countResult_natCast]

/-- Settles O46: the bytes accepted are those written from `tx_len` on, and only their entries change. -/
theorem queueBytesAppendsWhatFits : Obligations.QueueBytesAppendsWhatFits := by
  refine ⟨packWord_zero_abf .queueBytes, ?_⟩
  intro s n h hwf
  have hroom : s.room n.toNat ≤ n.toNat := Nat.min_le_left ..
  have hlen : (s.payloadIn.take (s.room n.toNat)).length = s.room n.toNat :=
    List.length_take_of_le (hroom.trans h)
  refine ⟨_, s.room n.toNat, rfl, exec_queueBytes_of_offered h, ?_, ?_⟩
  · intro j hj
    rw [Memory.read_writeAll_in hwf (hlen.symm ▸ hj), List.getElem_take, List.getElem?_eq_getElem]
  · rintro j (hbelow | habove)
    · exact Memory.read_writeAll_below hbelow s.txBuf _
    · exact Memory.read_writeAll_above (hlen.symm ▸ habove) s.txBuf

/-! ## The receive buffer (R178 to R180) -/

/-- R35: an unread byte is one the receive buffer has. -/
theorem memRead_rx_of_unread {s : State} (h : s.rxCursor < s.rxLen) (hcap : s.rxLen ≤ s.params.rxCapacity) :
    memRead .rx s.rxCursor s = .ok (s.rxBuf.read s.rxCursor) := memRead_ok (h.trans_le hcap)

theorem exec_read_of_unread {s : State} (h : s.rxCursor < s.rxLen) (hcap : s.rxLen ≤ s.params.rxCapacity) :
    exec .read s =
      .next ({ s with rxCursor := s.rxCursor + 1 }.ret (byteResult (s.rxBuf.read s.rxCursor))) := by
  simp only [exec, execRead, if_pos h, memRead_rx_of_unread h hcap]

theorem exec_read_of_exhausted {s : State} (h : s.rxLen ≤ s.rxCursor) : exec .read s = .next (s.ret sentinel) :=
  if_neg (Nat.not_lt.2 h)

theorem exec_peek_of_unread {s : State} (h : s.rxCursor < s.rxLen) (hcap : s.rxLen ≤ s.params.rxCapacity) :
    exec .peek s = .next (s.ret (byteResult (s.rxBuf.read s.rxCursor))) := by
  simp only [exec, execPeek, if_pos h, memRead_rx_of_unread h hcap]

theorem exec_peek_of_exhausted {s : State} (h : s.rxLen ≤ s.rxCursor) : exec .peek s = .next (s.ret sentinel) :=
  if_neg (Nat.not_lt.2 h)

/-- The integer difference is the number of bytes unread, as R35 keeps the cursor within the length. -/
theorem exec_available {s : State} (h : s.rxCursor ≤ s.rxLen) :
    exec .available s = .next (s.ret (BitVec.ofNat 32 (s.rxLen - s.rxCursor))) := by
  simp only [exec, execAvailable, ← Nat.cast_sub h, countResult_natCast]

/-- A READ with a byte unread, if it answers a next state, advances the cursor and leaves the length. -/
theorem cursor_of_exec_read {s t : State} (h : s.rxCursor < s.rxLen) (ht : exec .read s = .next t) :
    t.rxCursor = s.rxCursor + 1 ∧ t.rxLen = s.rxLen := by
  cases exec_cases ht with
  | read v => exact ⟨rfl, rfl⟩
  | readEmpty hge => omega
  | notConfigured _ hi | onBus _ _ _ hi => cases hi

/-- Settles O50: READ looks at the entry at the cursor while it is below the length. -/
theorem readReturnsTheNextByteAndAdvances : Obligations.ReadReturnsTheNextByteAndAdvances :=
  ⟨rfl, fun _ h hcap => exec_read_of_unread h hcap, fun _ h => exec_read_of_exhausted h⟩

/-- Settles O51: PEEK answers as READ does, and leaves the cursor. -/
theorem peekReturnsTheNextByteAndStays : Obligations.PeekReturnsTheNextByteAndStays :=
  ⟨rfl, fun _ h hcap => exec_peek_of_unread h hcap, fun _ h => exec_peek_of_exhausted h⟩

/-- Settles O52: AVAILABLE is the length less the cursor, which a READ that returns a byte raises by 1. -/
theorem availableCountsTheUnreadBytes : Obligations.AvailableCountsTheUnreadBytes := by
  refine ⟨rfl, fun s h => exec_available h, ?_⟩
  intro s t h ht
  obtain ⟨hcursor, hlen⟩ := cursor_of_exec_read h ht
  omega

/-! ## What the traffic of a transaction leaves the lines in (R25) -/

section Ends

variable {t : Timing} {addr : Addr} {bytes : List Byte} {sendStop rw ack : Bool} {e₁ e₂ : List Event}

/-- With or without its stop, a transaction whose events so far end with SDA released and SCL low ends with SDA
released, and with SCL released by the stop. -/
theorem IsStopIf.ends_append {md mc : PinMode} (h₂ : IsStopIf t sendStop e₂)
    (h₁ : modeAfter .sda md e₁ = .inputPullup ∧ modeAfter .scl mc e₁ = .outputLow) :
    modeAfter .sda md (e₁ ++ e₂) = .inputPullup ∧
      modeAfter .scl mc (e₁ ++ e₂) = if sendStop then .inputPullup else .outputLow := by
  cases sendStop with
  | false => obtain rfl : e₂ = [] := h₂; simpa using h₁
  | true => rw [modeAfter_append, modeAfter_append]; exact IsStop.ends h₂ _ _

/-- A data phase of any length follows the address byte with SDA released and SCL low. -/
theorem IsDataIn.ends_released (h : IsDataIn t bytes e₁) :
    modeAfter .sda .inputPullup e₁ = .inputPullup ∧ modeAfter .scl .outputLow e₁ = .outputLow := by
  cases bytes with
  | nil => obtain rfl : e₁ = [] := h; exact ⟨rfl, rfl⟩
  | cons v vs => exact h.ends (List.cons_ne_nil v vs) _ _

/-- An address byte and a data phase that keeps SDA released and SCL low between its bytes. -/
theorem IsAddressed.ends_append (h₁ : IsAddressed t addr rw ack e₁) (md mc : PinMode)
    (h₂ : modeAfter .sda .inputPullup e₂ = .inputPullup ∧ modeAfter .scl .outputLow e₂ = .outputLow) :
    modeAfter .sda md (e₁ ++ e₂) = .inputPullup ∧ modeAfter .scl mc (e₁ ++ e₂) = .outputLow := by
  obtain ⟨hsda, hscl⟩ := h₁.ends md mc
  rw [modeAfter_append, modeAfter_append, hsda, hscl]
  exact h₂

theorem IsCloseTx.ends {st : Status} {evs : List Event} (h : IsCloseTx t addr bytes sendStop st evs)
    (md mc : PinMode) :
    modeAfter .sda md evs = .inputPullup ∧
      modeAfter .scl mc evs = if sendStop then .inputPullup else .outputLow := by
  rcases h with ⟨e₁, e₂, haddr, hstop, rfl, -⟩ | ⟨e₁, e₂, e₃, ok, haddr, hdata, hstop, rfl, -⟩
  · exact hstop.ends_append (haddr.ends md mc)
  · exact hstop.ends_append (haddr.ends_append md mc hdata.ends)

theorem IsRequest.ends {evs : List Event} (h : IsRequest t addr bytes sendStop evs) (md mc : PinMode) :
    modeAfter .sda md evs = .inputPullup ∧
      modeAfter .scl mc evs = if sendStop then .inputPullup else .outputLow := by
  obtain ⟨e₁, e₂, e₃, haddr, hdata, hstop, rfl⟩ := h
  exact hstop.ends_append (haddr.ends_append md mc hdata.ends_released)

theorem IsRequestNack.ends {evs : List Event} (h : IsRequestNack t addr sendStop evs) (md mc : PinMode) :
    modeAfter .sda md evs = .inputPullup ∧
      modeAfter .scl mc evs = if sendStop then .inputPullup else .outputLow := by
  obtain ⟨e₁, e₂, haddr, hstop, rfl⟩ := h
  exact hstop.ends_append (haddr.ends md mc)

theorem IsProbe.ends {evs : List Event} (h : IsProbe t addr ack evs) (md mc : PinMode) :
    modeAfter .sda md evs = .inputPullup ∧ modeAfter .scl mc evs = .inputPullup := by
  obtain ⟨e₁, e₂, haddr, hstop, rfl⟩ := h
  exact IsStopIf.ends_append (sendStop := true) hstop (haddr.ends md mc)

/-- R176: the statuses a CLOSE_TX reports, with their numerals. -/
theorem IsCloseTx.status_cases {st : Status} {evs : List Event} (h : IsCloseTx t addr bytes sendStop st evs) :
    (st = .success ∧ statusResult st = 0#32) ∨ (st = .nackAddress ∧ statusResult st = 2#32) ∨
      (st = .nackData ∧ statusResult st = 3#32) := by
  rcases h with ⟨_, _, _, _, _, rfl⟩ | ⟨_, _, _, ok, _, _, _, _, rfl⟩
  · exact .inr (.inl ⟨rfl, rfl⟩)
  · cases ok with
    | false => exact .inr (.inr ⟨rfl, rfl⟩)
    | true => exact .inl ⟨rfl, rfl⟩

end Ends

/-! ## PROBE (R181) -/

theorem exec_probe_of_configured {s : State} (hc : s.configured = true) (addr : Addr) :
    exec (.probe addr) s =
      .next ((stopIf true (sendAddress addr false s).2).ret (boolResult (sendAddress addr false s).1)) := if_pos hc

/-- Settles O53: the stop follows whatever the acknowledge, and the result is the acknowledge of the address byte. -/
theorem probeReportsTheAcknowledge : Obligations.ProbeReportsTheAcknowledge := by
  refine ⟨packWord_addr .probe, fun s addr hc => exec_of_not_configured rfl hc, ?_⟩
  intro s addr hc
  obtain ⟨b₁, e₁, hsent, haddr, he₁⟩ := sendAddress_spec addr false s
  obtain ⟨b₂, e₂, hstop, hstopped, he₂⟩ := stopIf_spec true (s.withBus b₁)
  have hprobe : IsProbe s.timing addr (sendAddress addr false s).1 (e₁ ++ e₂) := ⟨e₁, e₂, haddr, hstopped, rfl⟩
  have he := he₁.trans he₂
  refine ⟨b₂, e₁ ++ e₂, (sendAddress addr false s).1, ?_, hprobe, he, he.endModes (hprobe.ends _ _)⟩
  rw [exec_probe_of_configured hc, hsent, hstop]
  rfl

/-! ## CLOSE_TX (R175) -/

/-- `sendAddress_spec` with the answer as a pair, as the commands take it apart. -/
theorem sendAddress_eq (addr : Addr) (rw : Bool) (s : State) :
    ∃ ack b evs, sendAddress addr rw s = (ack, s.withBus b) ∧ IsAddressed s.timing addr rw ack evs ∧
      s.bus.Emits b evs := by
  obtain ⟨b, evs, hb, haddr, he⟩ := sendAddress_spec addr rw s
  exact ⟨_, b, evs, Prod.ext rfl hb, haddr, he⟩

theorem exec_closeTx_of_nack {s s₁ : State} (hc : s.configured = true) (sendStop : Bool)
    (ha : sendAddress s.txAddr false s = (false, s₁)) :
    exec (.closeTx sendStop) s = .next ((stopIf sendStop s₁).ret (statusResult .nackAddress)) := by
  simp only [exec, execCloseTx, whenConfigured, if_pos hc, ha]

theorem exec_closeTx_of_ack {s s₁ s₂ : State} {ok : Bool} (hc : s.configured = true) (sendStop : Bool)
    (ha : sendAddress s.txAddr false s = (true, s₁)) (hq : sendQueued s.txLen 0 s₁ = .ok (ok, s₂)) :
    exec (.closeTx sendStop) s =
      .next ((stopIf sendStop s₂).ret (statusResult (if ok then .success else .nackData))) := by
  simp only [exec, execCloseTx, whenConfigured, if_pos hc, ha, hq]
  cases ok <;> rfl

/-- R175: a CLOSE_TX changes the bus side alone, and its status is the one its traffic shows. -/
theorem exec_closeTx_spec {s : State} (hc : s.configured = true) (hlen : s.txLen ≤ s.params.txCapacity)
    (sendStop : Bool) :
    ∃ b evs st, exec (.closeTx sendStop) s = .next ((s.withBus b).ret (statusResult st)) ∧
      IsCloseTx s.timing s.txAddr s.queued sendStop st evs ∧ s.bus.Emits b evs := by
  obtain ⟨ack, b₁, e₁, ha, haddr, he₁⟩ := sendAddress_eq s.txAddr false s
  cases ack with
  | false =>
    obtain ⟨b₂, e₂, hstop, hstopped, he₂⟩ := stopIf_spec sendStop (s.withBus b₁)
    refine ⟨b₂, e₁ ++ e₂, _, ?_, .inl ⟨e₁, e₂, haddr, hstopped, rfl, rfl⟩, he₁.trans he₂⟩
    rw [exec_closeTx_of_nack hc sendStop ha, hstop]
    rfl
  | true =>
    obtain ⟨ok, b₂, e₂, hq, hdata, he₂⟩ := sendQueued_spec s.txLen 0 (s.withBus b₁) (by simpa using hlen)
    obtain ⟨b₃, e₃, hstop, hstopped, he₃⟩ := stopIf_spec sendStop (s.withBus b₂)
    rw [← List.range_eq_range'] at hdata
    refine ⟨b₃, e₁ ++ e₂ ++ e₃, _, ?_, .inr ⟨e₁, e₂, e₃, ok, haddr, hdata, hstopped, rfl, rfl⟩,
      (he₁.trans he₂).trans he₃⟩
    rw [exec_closeTx_of_ack hc sendStop ha hq, State.withBus_withBus, hstop]
    rfl

/-- Settles O48: the traffic of a CLOSE_TX fixes its status and the modes it ends in. -/
theorem closeTxSendsTheQueuedBytes : Obligations.CloseTxSendsTheQueuedBytes := by
  refine ⟨by decide, fun s sendStop hc => exec_of_not_configured rfl hc, ?_⟩
  intro s sendStop hc hlen
  obtain ⟨b, evs, st, heq, h, he⟩ := exec_closeTx_spec hc hlen sendStop
  exact ⟨b, evs, st, _, heq, h.status_cases, h, he, he.endModes (h.ends _ _)⟩

/-! ## REQUEST (R177) -/

theorem exec_request_of_nack {s s₁ : State} {addr : Addr} (hc : s.configured = true) (qty : Word) (sendStop : Bool)
    (ha : sendAddress addr true { s with rxLen := 0, rxCursor := 0 } = (false, s₁)) :
    exec (.request addr qty sendStop) s = .next ((stopIf sendStop s₁).ret 0#32) := by
  simp only [exec, execRequest, whenConfigured, if_pos hc, ha]

theorem exec_request_of_ack {s s₁ s₂ : State} {addr : Addr} {qty : Word} (hc : s.configured = true)
    (sendStop : Bool) (ha : sendAddress addr true { s with rxLen := 0, rxCursor := 0 } = (true, s₁))
    (hr : receiveInto (clampQuantity qty s) 0 s₁ = .ok s₂) :
    exec (.request addr qty sendStop) s =
      .next ((stopIf sendStop { s₂ with rxLen := clampQuantity qty s }).ret
        (BitVec.ofNat 32 (clampQuantity qty s))) := by
  simp only [exec, execRequest, whenConfigured, if_pos hc, ha, hr, countResult_natCast]

/-- R177: a REQUEST either finds its address not acknowledged and leaves the receive buffer empty, or stores the bytes
its traffic shows from entry 0 on. -/
theorem exec_request_spec {s : State} (hc : s.configured = true) (addr : Addr) (qty : Word) (sendStop : Bool) :
    ∃ b evs, s.bus.Emits b evs ∧
      ((exec (.request addr qty sendStop) s =
          .next ({ s with rxLen := 0, rxCursor := 0, bus := b }.ret 0#32) ∧
        IsRequestNack s.timing addr sendStop evs) ∨
      ∃ bytes, bytes.length = clampQuantity qty s ∧
        exec (.request addr qty sendStop) s =
          .next ({ s with rxLen := clampQuantity qty s, rxCursor := 0, rxBuf := s.rxBuf.writeAll 0 bytes,
                          bus := b }.ret (BitVec.ofNat 32 (clampQuantity qty s))) ∧
        IsRequest s.timing addr bytes sendStop evs) := by
  obtain ⟨ack, b₁, e₁, ha, haddr, he₁⟩ := sendAddress_eq addr true { s with rxLen := 0, rxCursor := 0 }
  cases ack with
  | false =>
    obtain ⟨b₂, e₂, hstop, hstopped, he₂⟩ :=
      stopIf_spec sendStop (State.withBus { s with rxLen := 0, rxCursor := 0 } b₁)
    refine ⟨b₂, e₁ ++ e₂, he₁.trans he₂, .inl ⟨?_, e₁, e₂, haddr, hstopped, rfl⟩⟩
    rw [exec_request_of_nack hc qty sendStop ha, hstop]
    rfl
  | true =>
    obtain ⟨bytes, b₂, e₂, hlen, hr, hdata, he₂⟩ :=
      receiveInto_spec (clampQuantity qty s) 0 (State.withBus { s with rxLen := 0, rxCursor := 0 } b₁)
        (by simp [clampQuantity])
    obtain ⟨b₃, e₃, hstop, hstopped, he₃⟩ :=
      stopIf_spec sendStop { s with rxLen := clampQuantity qty s, rxCursor := 0,
                                    rxBuf := s.rxBuf.writeAll 0 bytes, bus := b₂ }
    refine ⟨b₃, e₁ ++ e₂ ++ e₃, (he₁.trans he₂).trans he₃,
      .inr ⟨bytes, hlen, ?_, e₁, e₂, e₃, haddr, hdata, hstopped, rfl⟩⟩
    rw [exec_request_of_ack hc sendStop ha hr]
    exact congrArg (fun u : State => Host.Outcome.next (u.ret _)) hstop

/-- Settles O49: the bytes stored are those the traffic shows, and only their entries change. -/
theorem requestFillsTheReceiveBuffer : Obligations.RequestFillsTheReceiveBuffer := by
  refine ⟨?_, fun s addr qty sendStop hc => exec_of_not_configured rfl hc, ?_⟩
  · intro addr qty sendStop
    rw [encode, packWord_zero_b, code_append_addr]
    rfl
  · intro s addr qty sendStop hc hwf
    obtain ⟨b, evs, he, ⟨heq, h⟩ | ⟨bytes, hlen, heq, h⟩⟩ := exec_request_spec hc addr qty sendStop
    · exact ⟨b, evs, _, rfl, .inl ⟨heq, h⟩, he, he.endModes (h.ends _ _)⟩
    · refine ⟨b, evs, _, rfl, .inr ⟨bytes, _, hlen, heq, h, ?_, ?_⟩, he, he.endModes (h.ends _ _)⟩
      · intro j hj
        have hj' : j < bytes.length := hlen.symm ▸ hj
        rw [List.getElem?_eq_getElem hj', ← Memory.read_writeAll_in hwf hj', Nat.zero_add]
      · intro j hj
        exact Memory.read_writeAll_above (by rw [Nat.zero_add, hlen]; exact hj) s.rxBuf

end Sys2Proof.Machine
end

section
/-! The statements about faults (spec/60_exceptions.md): the code a word ends in, as a function of the word and the
state; what a command comes to, by the code of its own check; and the block in fault. -/

namespace Sys2Proof.Machine

/-! ## The code a word ends in (R202, R204) -/

/-- CONFIGURE with both pins the same (R101). -/
def equalPins : Instr → Bool
  | .configure sda scl => sda = scl
  | _ => false

/-- R202: the code a command's own check raises, NONE where it passes. -/
def ownCode (i : Instr) (s : State) : FaultCode :=
  if needsConfigured i = true ∧ s.configured = false then .notConfigured
  else if equalPins i then .pinConflict
  else .none

/-- R204: the code an accepted word ends in, the decoder's before the command's own; NONE where the command runs. -/
def wordCode (w : CmdWord) (s : State) : FaultCode :=
  match decode w with
  | .reject r => rejectCode r
  | .command i => ownCode i s

theorem equalPins_iff {i : Instr} : equalPins i = true ↔ ∃ pin, i = .configure pin pin := by
  constructor
  · intro h
    cases i with
    | configure sda scl => exact ⟨sda, by rw [of_decide_eq_true h]⟩
    | _ => cases h
  · rintro ⟨pin, rfl⟩
    exact decide_eq_true rfl

/-- R204: "no command has both". -/
theorem equalPins_of_needsConfigured {i : Instr} (h : needsConfigured i = true) : equalPins i = false := by
  cases i with
  | configure sda scl => cases h
  | _ => rfl

theorem ownCode_eq_notConfigured_iff {i : Instr} {s : State} :
    ownCode i s = .notConfigured ↔ needsConfigured i = true ∧ s.configured = false := by
  unfold ownCode
  split
  · next h => exact iff_of_true rfl h
  · next h => split <;> exact iff_of_false (by decide) h

theorem ownCode_eq_pinConflict_iff {i : Instr} {s : State} :
    ownCode i s = .pinConflict ↔ ∃ pin, i = .configure pin pin := by
  rw [← equalPins_iff]
  cases hi : needsConfigured i with
  | true => cases hc : s.configured <;> simp [ownCode, hi, hc, equalPins_of_needsConfigured hi]
  | false => simp [ownCode, hi]

theorem ownCode_of_configured {i : Instr} {s : State} (hi : needsConfigured i = true) (hc : s.configured = true) :
    ownCode i s = .none := by
  simp [ownCode, hc, equalPins_of_needsConfigured hi]

theorem ownCode_configure_of_ne {sda scl : PinId} (h : sda ≠ scl) (s : State) :
    ownCode (.configure sda scl) s = .none := by
  simp [ownCode, needsConfigured, equalPins, h]

/-- A command's own check raises neither of the decoder's codes. -/
theorem ownCode_ne_rejectCode (i : Instr) (s : State) (r : Reject) : ownCode i s ≠ rejectCode r := by
  unfold ownCode
  cases r <;> split_ifs <;> decide

theorem rejectCode_inj {r r' : Reject} : rejectCode r = rejectCode r' ↔ r = r' := by
  cases r <;> cases r' <;> decide

theorem rejectCode_ne_none (r : Reject) : rejectCode r ≠ .none := by cases r <;> decide

/-- The decoder's codes are those of its own rejections. -/
theorem wordCode_eq_rejectCode_iff {w : CmdWord} {s : State} {r : Reject} :
    wordCode w s = rejectCode r ↔ decode w = .reject r := by
  unfold wordCode
  cases decode w with
  | reject r' => simp [rejectCode_inj]
  | command i => simp [ownCode_ne_rejectCode]

/-- A code that is none of the decoder's is that of a command's own check. -/
theorem wordCode_eq_iff_ownCode {w : CmdWord} {s : State} {c : FaultCode} (hc : ∀ r, rejectCode r ≠ c) :
    wordCode w s = c ↔ ∃ i, decode w = .command i ∧ ownCode i s = c := by
  unfold wordCode
  cases decode w with
  | reject r => simp [hc]
  | command i => simp

theorem wordCode_eq_notConfigured_iff {w : CmdWord} {s : State} :
    wordCode w s = .notConfigured ↔ ∃ i, decode w = .command i ∧ needsConfigured i = true ∧ s.configured = false := by
  simp only [wordCode_eq_iff_ownCode (c := .notConfigured) (by rintro ⟨⟩ <;> decide), ownCode_eq_notConfigured_iff]

theorem wordCode_eq_pinConflict_iff {w : CmdWord} {s : State} :
    wordCode w s = .pinConflict ↔ ∃ pin, decode w = .command (.configure pin pin) := by
  simp [wordCode_eq_iff_ownCode (c := .pinConflict) (by rintro ⟨⟩ <;> decide), ownCode_eq_pinConflict_iff]

/-! ## What a command comes to, by its own check (R203) -/

theorem takePayload_fault {offered : List Byte} {n acc : Nat} {s t : State}
    (h : takePayload offered n acc s = .ok t) : t.fault = s.fault ∧ t.faultCode = s.faultCode := by
  rcases Nat.lt_or_ge offered.length n with hlt | hge
  · rw [takePayload_short hlt] at h; cases h; exact ⟨rfl, rfl⟩
  · rw [takePayload_enough hge] at h; cases h; exact ⟨rfl, rfl⟩

theorem begun_fault (i : Instr) (s : State) : (begun i s).fault = s.fault ∧ (begun i s).faultCode = s.faultCode := by
  cases i <;> exact ⟨rfl, rfl⟩

/-- A command that passes its own check leaves the fault as it is, and one that does not enters it and does nothing
else. -/
theorem exec_fault_cases {i : Instr} {s t : State} (h : exec i s = .next t) :
    (ownCode i s = .none ∧ t.fault = s.fault ∧ t.faultCode = s.faultCode) ∨
      (ownCode i s ≠ .none ∧ t = s.raise (ownCode i s)) := by
  cases exec_cases h with
  | configure sda scl hne => exact .inl ⟨ownCode_configure_of_ne hne s, rfl, rfl⟩
  | pinConflict pin =>
    have hp : ownCode (.configure pin pin) s = .pinConflict := ownCode_eq_pinConflict_iff.2 ⟨pin, rfl⟩
    exact .inr (by simp [hp])
  | notConfigured i hi hc =>
    have hp : ownCode i s = .notConfigured := ownCode_eq_notConfigured_iff.2 ⟨hi, hc⟩
    exact .inr (by simp [hp])
  | onBus i b r hi hc => exact .inl ⟨ownCode_of_configured hi hc, rfl, rfl⟩
  | requestNack addr qty sendStop b hc => exact .inl ⟨ownCode_of_configured rfl hc, rfl, rfl⟩
  | requestAck addr qty sendStop b bytes hc => exact .inl ⟨ownCode_of_configured rfl hc, rfl, rfl⟩
  | queueBytes n t ht => exact .inl ⟨rfl, takePayload_fault ht⟩
  | _ => exact .inl ⟨rfl, rfl, rfl⟩

/-- Without a reset to come, the reset signal is not asserted at any later sampling. -/
theorem State.noReset.headD_drop {s : State} (hr : s.noReset) (n : Nat) : (s.resetIn.drop n).headD false = false :=
  headD_of_take (Nat.le_refl 1) fun b hb => hr b (List.mem_of_mem_drop (List.mem_of_mem_take hb))

/-- Without a reset to come, no reset ends a command's events. -/
theorem DriveCase.ne_reset {evs : List Event} {s : State} {d : Drive} (h : DriveCase evs s d) (hr : s.noReset)
    (u : State) : d ≠ .reset u := by
  rintro rfl
  cases h with
  | reset before _ _ _ _ ha => exact absurd ha (by rw [hr.headD_drop]; decide)

/-- What a command in progress on an untroubled block comes to: it passes its own check and no fault is set; or it does
not, has no event, done or to come, and enters the fault; or a reset abandons it. -/
theorem DriveCase.fault_cases {i : Instr} {start : Bus} {s t : State} {done evs : List Event} {d : Drive}
    (h : DriveCase evs s d) (he : exec i (s.withBus start) = .next t)
    (htr : t.bus.trace = start.trace ++ (done ++ evs)) (hf : s.fault = false) (hc : s.faultCode = .none) :
    (ownCode i s = .none ∧ (conclude i start t d).fault = false ∧ (conclude i start t d).faultCode = .none) ∨
      (ownCode i s ≠ .none ∧ done = [] ∧
        conclude i start t d = ((s.withBus start).raise (ownCode i s)).withInputs s.delayIn s.resetIn.tail) ∨
      ∃ u, d = .reset u := by
  have hcode : ownCode i (s.withBus start) = ownCode i s := rfl
  rcases exec_fault_cases he with ⟨hown, htf, htc⟩ | ⟨hown, rfl⟩ <;> rw [hcode] at hown
  · cases h with
    | ended => exact .inl ⟨hown, htf.trans hf, htc.trans hc⟩
    | waiting =>
      obtain ⟨hbf, hbc⟩ := begun_fault i _
      exact .inl ⟨hown, hbf.trans hf, hbc.trans hc⟩
    | reset => exact .inr (.inr ⟨_, rfl⟩)
  · obtain ⟨rfl, rfl⟩ : done = [] ∧ evs = [] := by simpa using htr
    cases h with
    | ended => exact .inr (.inl ⟨hown, rfl, by simp [conclude, delaysOf, hcode]⟩)
    | waiting before n after hev => simp at hev
    | reset => exact .inr (.inr ⟨_, rfl⟩)

/-- A ready block that takes a word and is not reset ends in the word's code, the fault set unless that is NONE. -/
theorem fault_of_step_ready {s t : State} {w : CmdWord} {rest : List CmdWord} (hr : s.noReset) (hb : s.busy = false)
    (hf : s.fault = false) (hc : s.faultCode = .none) (hw : s.cmdIn = w :: rest) (h : step s = .next t) :
    t.faultCode = wordCode w s ∧ (t.fault = true ↔ t.faultCode ≠ .none) := by
  cases step_cases h with
  | reset ha => exact absurd ((hr.headD_drop 0).symm.trans ha) (by decide)
  | wait _ hwait => simp [hf, hb, hw] at hwait
  | resumeQueue _ _ _ hb' | delayed _ _ _ hb' | resumeCommand _ _ _ _ _ hb' => simp [hb] at hb'
  | reject w' rest' r _ _ _ hw' hd ht =>
    obtain ⟨rfl, rfl⟩ := List.cons.inj (hw.symm.trans hw')
    subst ht
    simp [wordCode, hd, rejectCode_ne_none]
  | run w' rest' i t₀ d _ _ _ hw' hd he hdr ht =>
    obtain ⟨rfl, rfl⟩ := List.cons.inj (hw.symm.trans hw')
    subst ht
    obtain ⟨evs, hem, -⟩ := (exec_cases he).work
    have hdr' : DriveCase evs (s.pastResetSignal.accept rest) d := by
      simpa [hem.trace] using hdr
    have hcode : wordCode w s = ownCode i s := by rw [wordCode, hd]
    have hnr : (s.pastResetSignal.accept rest).noReset := fun b hb => hr b (List.mem_of_mem_tail hb)
    rcases hdr'.fault_cases (start := s.bus) (done := []) he hem.trace hf hc with
      ⟨hown, htf, htc⟩ | ⟨hown, -, ht⟩ | ⟨u, hu⟩
    · exact ⟨by rw [hcode, htc]; exact hown.symm, by simp [htf, htc]⟩
    · rw [ht, hcode]
      exact ⟨rfl, iff_of_true rfl hown⟩
    · exact absurd hu (hdr'.ne_reset hnr u)

/-- Settles O10: the code a step ends in is the word's, and each value of that is one cause. -/
theorem faultCausesAreThoseOfTheTable : Obligations.FaultCausesAreThoseOfTheTable := by
  intro s t w rest hr hb hf hc hw h
  obtain ⟨hcode, hfault⟩ := fault_of_step_ready hr hb hf hc hw h
  rw [hcode] at hfault ⊢
  exact ⟨wordCode_eq_rejectCode_iff (r := .illegalOpcode), wordCode_eq_rejectCode_iff (r := .reservedBits),
    wordCode_eq_notConfigured_iff, wordCode_eq_pinConflict_iff, hfault⟩

/-! ## The block in fault (R203, R207) -/

theorem step_of_fault {s : State} (hf : s.fault = true) (hr : s.resetIn.headD false = false) :
    step s = .next { s with resetIn := s.resetIn.tail } := by
  have hra : s.resetAsserted = false := hr
  simp [step, stepBlock, stepCommand, hra, hf, State.pastResetSignal]

theorem step_of_resetAsserted {s : State} (hr : s.resetIn.headD false = true) :
    step s = .next s.pastResetSignal.resetNow := if_pos hr

/-- Settles O12: a block in fault only looks at the reset signal, and a reset gives NONE. -/
theorem faultIsLeftOnlyByReset : Obligations.FaultIsLeftOnlyByReset :=
  fun _ hf => ⟨step_of_fault hf, fun hr => ⟨_, step_of_resetAsserted hr, rfl, rfl⟩⟩

/-- R203: a step that raises a fault is the fault entry, with the word taken. -/
theorem State.Wf.step_raises {s t : State} (hwf : s.Wf) (h : step s = .next t) (hf : s.fault = false)
    (ht : t.fault = true) : ∃ c m, c ≠ .none ∧
      t = { s with fault := true, faultCode := c, busy := false, cmdIn := s.cmdIn.tail,
                   resetIn := s.resetIn.drop m } := by
  have hc : s.faultCode = .none := by simpa [hf] using hwf.fault_code
  cases hwf.step_cases h with
  | reset hr hn => subst hn; cases ht
  | wait hr hw hn | delayed c hr _ hb hi hd hn => subst hn; exact absurd ht (by simp [hf])
  | resumeQueue q hr _ hb hi hq hn => exact absurd ht (by simp [takePayload_fault hn, hf])
  | reject w rest r hr _ hb hw hd hn =>
    exact ⟨rejectCode r, 1, rejectCode_ne_none r, by simp [hn, hw, State.raise, State.accept, State.pastResetSignal]⟩
  | run w rest i t₀ d evs hr hb hw hd hrun hdr hn =>
    subst hn
    rcases hdr.fault_cases hrun.exec hrun.emits.trace hrun.fault hc with ⟨-, hn, -⟩ | ⟨hown, -, hn⟩ | ⟨u, rfl⟩
    · simp [hn] at ht
    · have hlooks : s.resetIn.tail.tail = s.resetIn.drop 2 := by simp only [← List.drop_one, List.drop_drop]
      exact ⟨_, 2, hown, by
        simp [hn, hw, hlooks, State.raise, State.accept, State.pastResetSignal, State.withBus, State.withInputs]⟩
    · cases ht
  | resume c t₀ d done evs hr hb hi hne hrun hdr hn =>
    subst hn
    rcases hdr.fault_cases hrun.exec hrun.emits.trace hrun.fault hc with ⟨-, hn, -⟩ | ⟨-, hdone, -⟩ | ⟨u, rfl⟩
    · simp [hn] at ht
    · exact absurd hdone hne
    · cases ht

/-- Settles O11: the step is the fault entry, after which the block is in fault and stays so. -/
theorem faultEntryIsPrecise : Obligations.FaultEntryIsPrecise := by
  intro s t hwf h hf ht
  obtain ⟨c, m, hc, rfl⟩ := hwf.step_raises h hf ht
  exact ⟨⟨m, rfl⟩, hc, rfl, rfl, step_of_fault rfl⟩

end Sys2Proof.Machine
end

section
/-! The statement about the reset values (spec/70_reset_and_hazards.md R231): what a reset leaves, whatever it was given. -/

namespace Sys2Proof.Machine

/-- R231: a reset gives every element its reset value, whatever it held; the parameters stay the machine's. -/
theorem State.resetNow_hasResetValues (s : State) : s.resetNow.HasResetValues where
  configured := s.resetNow_configured
  pinsBound := s.resetNow_pinsBound
  hp := rfl
  sdaMode := rfl
  sclMode := rfl
  txAddr := rfl
  txLen := rfl
  rxLen := rfl
  rxCursor := rfl
  fault := s.resetNow_fault
  faultCode := s.resetNow_faultCode
  busy := s.resetNow_busy
  trace := s.resetNow_trace

/-- Settles O13: the step is the reset, and sampling the signal before it leaves the parameters as they were. -/
theorem resetGivesEveryElementItsResetValue : Obligations.ResetGivesEveryElementItsResetValue := by
  intro s hr
  have hv := s.pastResetSignal.resetNow_hasResetValues
  exact ⟨_, step_of_resetAsserted hr, hv.configured, hv.pinsBound, hv.hp, hv.sdaMode, hv.sclMode, hv.txAddr, hv.txLen,
    hv.rxLen, hv.rxCursor, hv.fault, hv.faultCode, hv.busy, hv.trace⟩

end Sys2Proof.Machine
end

section
/-! The statements about every word and every command: the encoder and the decoder are inverse to each other
(spec/30_encoding.md R81 to R89), which words are rejected, and the word as bytes (spec/20_memory.md R63). -/

namespace Sys2Proof

/-! ## The word of a command (R86) -/

theorem fieldOP_encode (i : Instr) : fieldOP (encode i) = (opcodeOfInstr i).code := by
  cases i <;> exact fieldOP_packWord ..

/-- The word of a command matches its row (R87). -/
theorem encode_and_mask (i : Instr) : encode i &&& (opcodeOfInstr i).mask = (opcodeOfInstr i).matchWord := by
  cases i with
  | configure sda scl => exact Laws.TableRow.configure sda scl
  | release => exact Laws.TableRow.release
  | setClock v => exact Laws.TableRow.setClock v
  | start => exact Laws.TableRow.start
  | stop => exact Laws.TableRow.stop
  | writeBit b => exact Laws.TableRow.writeBit b
  | readBit => exact Laws.TableRow.readBit
  | writeByte v => exact Laws.TableRow.writeByte v
  | readByte ack => exact Laws.TableRow.readByte ack
  | openTx addr => exact Laws.TableRow.openTx addr
  | queueByte v => exact Laws.TableRow.queueByte v
  | queueBytes n => exact Laws.TableRow.queueBytes n
  | closeTx sendStop => exact Laws.TableRow.closeTx sendStop
  | request addr qty sendStop => exact Laws.TableRow.request addr qty sendStop
  | read => exact Laws.TableRow.read
  | peek => exact Laws.TableRow.peek
  | available => exact Laws.TableRow.available
  | probe addr => exact Laws.TableRow.probe addr

/-- The fields of a command's word are its operands. -/
theorem commandOf_encode (i : Instr) : commandOf (opcodeOfInstr i) (encode i) = i := by
  cases i <;> simp [opcodeOfInstr, commandOf, encode]

/-- Settles O1: the word of a command is of its row, matches it, and holds its operands. -/
theorem decodeOfEncodeIsTheCommand : Obligations.DecodeOfEncodeIsTheCommand := by
  intro i
  rw [decode_of_fieldOP (fieldOP_encode i), if_pos (encode_and_mask i), commandOf_encode]

/-! ## The fields of a legal word (R87, R89) -/

section Legal

variable {o : Opcode} {w : CmdWord}

/-- A match is the row's word with every field zero. -/
theorem Opcode.matchWord_eq_packWord (o : Opcode) : o.matchWord = packWord o 0#8 0#8 false 0#32 := by
  cases o <;> rfl

theorem fieldA_and (x y : CmdWord) : fieldA (x &&& y) = fieldA x &&& fieldA y := BitVec.extractLsb'_and ..

theorem fieldB_and (x y : CmdWord) : fieldB (x &&& y) = fieldB x &&& fieldB y := BitVec.extractLsb'_and ..

theorem fieldF_and (x y : CmdWord) : fieldF (x &&& y) = (fieldF x && fieldF y) := BitVec.getLsbD_and ..

theorem fieldV_and (x y : CmdWord) : fieldV (x &&& y) = fieldV x &&& fieldV y := BitVec.extractLsb'_and ..

/-- What a row's mask covers of each field is zero in a word that matches the row. -/
theorem fields_and_mask (h : w &&& o.mask = o.matchWord) :
    fieldA w &&& fieldA o.mask = 0#8 ∧ fieldB w &&& fieldB o.mask = 0#8 ∧
      (fieldF w && fieldF o.mask) = false ∧ fieldV w &&& fieldV o.mask = 0#32 := by
  rw [← fieldA_and, ← fieldB_and, ← fieldF_and, ← fieldV_and, h, o.matchWord_eq_packWord]
  simp

/-- Every mask covers RSV (R87). -/
theorem Opcode.getLsbD_mask_rsv (o : Opcode) {k : Nat} (hk : 33 ≤ k) (hk' : k < 40) : o.mask.getLsbD k = true := by
  interval_cases k <;> cases o <;> rfl

/-- A word that matches a row is that row's word with the same fields. -/
theorem packWord_fields (hop : fieldOP w = o.code) (h : w &&& o.mask = o.matchWord) :
    packWord o (fieldA w) (fieldB w) (fieldF w) (fieldV w) = w := by
  apply BitVec.eq_of_getLsbD_eq
  intro k hk
  rw [getLsbD_packWord]
  split_ifs with hv hf hr hb ha
  · simp [fieldV, hv]
  · obtain rfl : k = 32 := by omega
    rfl
  · exact ((and_mask_eq_matchWord_iff hop).1 h k (by omega) (o.getLsbD_mask_rsv (by omega) hr)).symm
  · rw [fieldB, BitVec.getLsbD_extractLsb', decide_eq_true (by omega), Bool.true_and,
      Nat.add_sub_cancel' (by omega)]
  · rw [fieldA, BitVec.getLsbD_extractLsb', decide_eq_true (by omega), Bool.true_and,
      Nat.add_sub_cancel' (by omega)]
  · rw [← hop, getLsbD_fieldOP w (by omega) hk]

/-- Where A[7] is 0, A is the address (R83). -/
theorem zeroExtend_fieldAddr (h : fieldA w &&& 0x80#8 = 0#8) : (fieldAddr w).zeroExtend 8 = fieldA w := by
  apply BitVec.eq_of_getLsbD_eq
  intro k hk
  by_cases hlow : k < 7
  · simp [fieldAddr, fieldA, hk, hlow]
  · obtain rfl : k = 7 := by omega
    have h7 := congrArg (BitVec.getLsbD · 7) h
    simpa [fieldAddr, fieldA] using h7.symm

/-- The command read from a word that matches a row has the fields of that word. -/
theorem encode_commandOf (h : w &&& o.mask = o.matchWord) :
    encode (commandOf o w) = packWord o (fieldA w) (fieldB w) (fieldF w) (fieldV w) := by
  obtain ⟨ha, hb, hf, hv⟩ := fields_and_mask h
  have hbyte (x : Byte) : x &&& 0xFF#8 = x := BitVec.and_allOnes
  have hword (x : Word) : x &&& 0xFFFFFFFF#32 = x := BitVec.and_allOnes
  cases o with
  | openTx | request | probe =>
    rw [commandOf, encode, zeroExtend_fieldAddr ha]
    simp_all [Opcode.mask, fieldA, fieldB, fieldF, fieldV]
  | _ => simp_all [commandOf, encode, Opcode.mask, fieldA, fieldB, fieldF, fieldV]

end Legal

/-- Settles O2: the word has no bit outside the fields its command is read from. -/
theorem legalWordIsTheWordOfItsCommand : Obligations.LegalWordIsTheWordOfItsCommand := by
  intro w i h
  cases ho : opcodeOf (fieldOP w) with
  | none => rw [decode_of_opcodeOf_none ho] at h; cases h
  | some o =>
    have hop : fieldOP w = o.code := (code_of_opcodeOf ho).symm
    rw [decode_of_fieldOP hop] at h
    split at h
    · next hm => cases h; rw [encode_commandOf hm, packWord_fields hop hm]
    · cases h

/-! ## The two rejections, and the word as bytes -/

/-- Settles O3: the rows' codes leave out just the ranges of R88. -/
theorem unassignedOpcodesAreIllegal : Obligations.UnassignedOpcodesAreIllegal := fun _ => decode_eq_illegalOpcode_iff

/-- Settles O4: under a row's OP, the mask says which bits are reserved. -/
theorem reservedBitsAreRejected : Obligations.ReservedBitsAreRejected :=
  fun _ _ hop => decode_eq_reservedBits_iff hop

/-- Settles O6: the bytes are those of the word from the top down, so appending them gives the word. -/
theorem linkBytesCarryTheWord : Obligations.LinkBytesCarryTheWord := by
  intro w rest
  refine ⟨?_, rfl⟩
  simp only [bytesOfWord, List.cons_append, List.nil_append, wordOfBytes]
  iterate 7 rw [BitVec.extractLsb'_append_extractLsb'_eq_extractLsb' (by rfl)]
  rw [BitVec.extractLsb'_eq_self]

end Sys2Proof
end

section
/-! The statements about every command at once: what each writes and leaves (spec/10_state.md section 7), how each ends
(R48), and the commands that leave the bus alone (spec/00_scope.md R18). -/

namespace Sys2Proof.Machine

/-! ## What a command writes -/

/-- R173: taking payload writes the transmit buffer, the payload port and how the command stands, and nothing else. -/
theorem takePayload_frame {offered : List Byte} {n acc : Nat} {s t : State}
    (h : takePayload offered n acc s = .ok t) :
    t = { s with txBuf := t.txBuf, txLen := t.txLen, payloadIn := t.payloadIn, queue := t.queue,
                 results := t.results, busy := t.busy } := by
  rcases Nat.lt_or_ge offered.length n with hlt | hge
  · rw [takePayload_short hlt] at h; cases h; rfl
  · rw [takePayload_enough hge] at h; cases h; rfl

theorem isBusCommand_of_needsConfigured {i : Instr} (h : needsConfigured i = true) : isBusCommand i = true := by
  cases i with
  | start | stop | writeBit | readBit | writeByte | readByte | closeTx | request | probe => rfl
  | configure | release | setClock | openTx | queueByte | queueBytes | read | peek | available => cases h

/-- Settles O26: in each case of `exec` the elements written are those of the command's rows of R43. -/
theorem eachElementIsWrittenOnlyByItsCommands : Obligations.EachElementIsWrittenOnlyByItsCommands := by
  intro i s t h
  cases exec_cases h with
  | queueBytes n t ht => rw [takePayload_frame ht]; simp
  | onBus i b r hi => simp [isBusCommand_of_needsConfigured hi]
  | configure | release | requestNack | requestAck => simp [isBusCommand]
  | pinConflict | notConfigured | clockKept | clockSet | openTx | queued | queueFull | read | readEmpty | peek
  | peekEmpty | available => simp

/-- No command touches the parameters, the inputs it does not take, the place of a waiting command, or the ended
traces. -/
structure SamePorts (s t : State) : Prop where
  params : t.params = s.params
  resetIn : t.resetIn = s.resetIn
  delayIn : t.delayIn = s.delayIn
  inFlight : t.inFlight = s.inFlight
  delay : t.delay = s.delay
  history : t.history = s.history

theorem exec_samePorts {i : Instr} {s t : State} (h : exec i s = .next t) : SamePorts s t := by
  obtain ⟨hp, -, hr, hd, hi, hl, hh, -⟩ := eachElementIsWrittenOnlyByItsCommands i s t h
  exact ⟨hp, hr, hd, hi, hl, hh⟩

/-- Only CONFIGURE binds pins. -/
theorem pinsBound_of_exec {i : Instr} {s t : State} (h : exec i s = .next t)
    (hi : ∀ sda scl, i ≠ .configure sda scl) : t.pinsBound = s.pinsBound := by
  obtain ⟨-, -, -, -, -, -, -, -, hpins, -⟩ := eachElementIsWrittenOnlyByItsCommands i s t h
  by_contra hne
  obtain ⟨sda, scl, rfl⟩ := hpins (.inl hne)
  exact hi sda scl rfl

/-! ## How a command ends -/

/-- How a command can end: with one result, or in the fault entry, or as a QUEUE_BYTES that waits. -/
theorem exec_ends {i : Instr} {s t : State} (h : exec i s = .next t) :
    (t.busy = false ∧ t.fault = s.fault ∧ ∃ r, t.results = s.results ++ [r]) ∨
    (t.busy = false ∧ t.fault = true ∧ t.results = s.results) ∨
    (t.busy = true ∧ t.fault = s.fault ∧ t.results = s.results ∧ t.queue.isSome = true ∧ ∃ n, i = .queueBytes n) := by
  cases exec_cases h with
  | queueBytes n t ht =>
    rcases Nat.lt_or_ge s.payloadIn.length n.toNat with hlt | hge
    · rw [takePayload_short hlt] at ht
      cases ht
      exact .inr (.inr ⟨rfl, rfl, rfl, rfl, n, rfl⟩)
    · rw [takePayload_enough hge] at ht
      cases ht
      exact .inl ⟨rfl, rfl, _, rfl⟩
  | pinConflict | notConfigured => exact .inr (.inl ⟨rfl, rfl, rfl⟩)
  | configure | release | clockKept | clockSet | onBus | requestNack | requestAck | openTx | queued | queueFull
  | read | readEmpty | peek | peekEmpty | available => exact .inl ⟨rfl, rfl, _, rfl⟩

/-- Settles O25: a command that raises no fault leaves `fault` as it was, which is not set. -/
theorem eachCommandGivesOneResultOrFaults : Obligations.EachCommandGivesOneResultOrFaults := by
  intro i s t hf h
  have hends := exec_ends h
  rwa [hf] at hends

/-- Settles O28: the nine commands check `configured` before anything else. -/
theorem busCommandsFaultUnlessConfigured : Obligations.BusCommandsFaultUnlessConfigured :=
  fun _ _ hi hc => exec_of_not_configured hi hc

/-! ## Buffer commands -/

/-- The state with `configured` and the bus side replaced. -/
def State.withLines (c : Bool) (b : Bus) (s : State) : State := { s with configured := c, bus := b }

section WithLines

variable (c : Bool) (b : Bus)

@[simp] theorem State.withLines_rxLen (s : State) : (s.withLines c b).rxLen = s.rxLen := rfl
@[simp] theorem State.withLines_rxCursor (s : State) : (s.withLines c b).rxCursor = s.rxCursor := rfl

theorem takePayload_withLines (offered : List Byte) (n acc : Nat) (s : State) :
    takePayload offered n acc (s.withLines c b) = (takePayload offered n acc s).map (State.withLines c b) := by
  rcases Nat.lt_or_ge offered.length n with hlt | hge
  · rw [takePayload_short hlt, takePayload_short hlt]; rfl
  · rw [takePayload_enough hge, takePayload_enough hge]; rfl

theorem memRead_withLines (buf : Buffer) (i : Nat) (s : State) :
    memRead buf i (s.withLines c b) = memRead buf i s := by cases buf <;> rfl

/-- No buffer command looks at `configured` or at the bus side (R18). -/
theorem exec_withLines {i : Instr} (hi : isBusCommand i = false) (s : State) :
    exec i (s.withLines c b) = onNext (State.withLines c b) (exec i s) := by
  cases i with
  | configure | release | start | stop | writeBit | readBit | writeByte | readByte | closeTx | request | probe =>
    cases hi
  | openTx | available => rfl
  | setClock v => simp only [exec, execSetClock]; split <;> rfl
  | queueByte v =>
    by_cases hr : s.txLen < s.params.txCapacity
    · rw [exec_queueByte_of_room hr, exec_queueByte_of_room (by exact hr)]; rfl
    · have hfull : s.params.txCapacity ≤ s.txLen := Nat.not_lt.1 hr
      rw [exec_queueByte_of_full hfull, exec_queueByte_of_full (by exact hfull)]; rfl
  | queueBytes n =>
    simp only [exec, execQueueBytes, takePayload_withLines]
    change outcomeOf ((takePayload s.payloadIn (quantity n) 0 s).map _) = _
    cases takePayload s.payloadIn (quantity n) 0 s <;> rfl
  | read =>
    simp only [exec, execRead, State.withLines_rxCursor, State.withLines_rxLen, memRead_withLines]
    split
    · cases memRead .rx s.rxCursor s <;> rfl
    · rfl
  | peek =>
    simp only [exec, execPeek, State.withLines_rxCursor, State.withLines_rxLen, memRead_withLines]
    split
    · cases memRead .rx s.rxCursor s <;> rfl
    · rfl

end WithLines

/-- No buffer command has a check that can fail (R18, R202). -/
theorem ownCode_of_not_busCommand {i : Instr} (hi : isBusCommand i = false) (s : State) : ownCode i s = .none := by
  cases i with
  | configure | release | start | stop | writeBit | readBit | writeByte | readByte | closeTx | request | probe =>
    cases hi
  | setClock | openTx | queueByte | queueBytes | read | peek | available => rfl

/-- Only bus commands change the bus side. -/
theorem bus_of_exec {i : Instr} {s t : State} (hi : isBusCommand i = false) (h : exec i s = .next t) :
    t.bus = s.bus := by
  obtain ⟨-, -, -, -, -, -, -, -, -, -, hbus, -⟩ := eachElementIsWrittenOnlyByItsCommands i s t h
  by_contra hne
  exact absurd (hbus hne) (by simp [hi])

/-- Only CONFIGURE and RELEASE write `configured`. -/
theorem configured_of_exec {i : Instr} {s t : State} (hi : isBusCommand i = false) (h : exec i s = .next t) :
    t.configured = s.configured := by
  obtain ⟨-, -, -, -, -, -, -, hconf, -⟩ := eachElementIsWrittenOnlyByItsCommands i s t h
  by_contra hne
  obtain ⟨a, b, rfl⟩ | rfl := hconf hne <;> cases hi

/-- Settles O27: no buffer command is one whose check can fail, and none looks at `configured`. -/
theorem bufferCommandsLeaveTheBusAlone : Obligations.BufferCommandsLeaveTheBusAlone := by
  intro i s t c hi h
  have hbus := bus_of_exec hi h
  rcases exec_fault_cases h with ⟨-, hf, hc⟩ | ⟨hown, -⟩
  · refine ⟨hbus, hf, hc, (exec_withLines c s.bus hi s).trans ?_⟩
    rw [h, ← hbus]
    rfl
  · exact absurd (ownCode_of_not_busCommand hi s) hown

end Sys2Proof.Machine
end

section
/-! The statement about clock stretching (R126): bus sides that differ at most in the trace and in the answers of SCL
stay so through every procedure, which returns the same levels, bytes and acknowledges. -/

namespace Sys2Proof.Machine

/-! ## Bus sides alike but for how SCL is answered -/

/-- R126: two bus sides that differ at most in the trace and in the answers to samples of SCL. -/
structure Bus.Alike (b b' : Bus) : Prop where
  sdaMode : b'.sdaMode = b.sdaMode
  sclMode : b'.sclMode = b.sclMode
  sdaAnswers : b'.sdaAnswers = b.sdaAnswers
  sdaDraws : b'.sdaDraws = b.sdaDraws

section Alike

variable {b b' b'' : Bus} {t : Timing}

theorem Bus.Alike.refl (b : Bus) : b.Alike b := ⟨rfl, rfl, rfl, rfl⟩

theorem Bus.Alike.symm (h : b.Alike b') : b'.Alike b :=
  ⟨h.sdaMode.symm, h.sclMode.symm, h.sdaAnswers.symm, h.sdaDraws.symm⟩

theorem Bus.Alike.trans (h : b.Alike b') (h' : b'.Alike b'') : b.Alike b'' :=
  ⟨h'.sdaMode.trans h.sdaMode, h'.sclMode.trans h.sclMode, h'.sdaAnswers.trans h.sdaAnswers,
    h'.sdaDraws.trans h.sdaDraws⟩

/-- What the two differ in, written out. -/
theorem Bus.Alike.eq_update (h : b.Alike b') :
    b' = { b with trace := b'.trace, sclAnswers := b'.sclAnswers, sclDraws := b'.sclDraws } := by
  obtain ⟨hd, hc, ha, hn⟩ := h
  rw [← hd, ← hc, ← ha, ← hn]

theorem Bus.Alike.setMode (h : b.Alike b') (l : Line) (m : DriveMode) : (b.setMode l m).Alike (b'.setMode l m) := by
  obtain ⟨hd, hc, ha, hn⟩ := h
  cases l with
  | sda => exact ⟨rfl, hc, ha, hn⟩
  | scl => exact ⟨hd, rfl, ha, hn⟩

theorem Bus.alike_delay (n : Nat) (b : Bus) : b.Alike (b.delay n) := ⟨rfl, rfl, rfl, rfl⟩

theorem Bus.Alike.delay (h : b.Alike b') (n : Nat) : (b.delay n).Alike (b'.delay n) :=
  ((b.alike_delay n).symm.trans h).trans (b'.alike_delay n)

/-- A sample of SCL leaves everything but the trace and SCL's own answers. -/
theorem Bus.alike_sample_scl (b : Bus) : b.Alike (b.sample .scl).2 := by
  cases h : b.sclAnswers <;> simp only [Bus.sample, Bus.answer, h] <;> exact ⟨rfl, rfl, rfl, rfl⟩

/-- A sample of SDA is answered alike. -/
theorem Bus.Alike.sample_sda (h : b.Alike b') :
    (b'.sample .sda).1 = (b.sample .sda).1 ∧ (b.sample .sda).2.Alike (b'.sample .sda).2 := by
  obtain ⟨hd, hc, ha, hn⟩ := h
  cases hb : b.sdaAnswers with
  | nil =>
    have hb' : b'.sdaAnswers = [] := ha.trans hb
    simp only [Bus.sample, Bus.answer, hb, hb', hn]
    exact ⟨trivial, hd, hc, rfl, rfl⟩
  | cons lvl rest =>
    have hb' : b'.sdaAnswers = lvl :: rest := ha.trans hb
    simp only [Bus.sample, Bus.answer, hb, hb']
    exact ⟨trivial, hd, hc, rfl, hn⟩

/-- R124, R126: however long the poll, it leaves everything but the trace and SCL's own answers. -/
theorem alike_stretchWait (n : Nat) (b : Bus) : b.Alike (stretchWait n b) := by
  induction n generalizing b with
  | zero => exact b.alike_sample_scl
  | succ n ih =>
    rw [stretchWait]
    split
    · exact b.alike_sample_scl
    · exact (b.alike_sample_scl.trans (Bus.alike_delay 1 _)).trans (ih _)

/-! ## Procedures -/

theorem Bus.Alike.releaseScl (h : b.Alike b') : (releaseScl t b).Alike (releaseScl t b') :=
  ((alike_stretchWait _ _).symm.trans ((h.setMode .scl .inputPullup).delay t.hp)).trans (alike_stretchWait _ _)

theorem Bus.Alike.genStart (h : b.Alike b') : (genStart t b).Alike (genStart t b') :=
  ((((h.setMode .sda .inputPullup).releaseScl.delay t.hp).setMode .sda .outputLow).delay t.hp).setMode .scl .outputLow

theorem Bus.Alike.genStop (h : b.Alike b') : (genStop t b).Alike (genStop t b') :=
  ((((h.setMode .sda .outputLow).delay t.hp).releaseScl.delay t.hp).setMode .sda .inputPullup).delay t.hp

theorem Bus.Alike.putSda (h : b.Alike b') (bit : Bool) : (putSda bit b).Alike (putSda bit b') := by
  cases bit <;> exact h.setMode .sda _

theorem Bus.Alike.txBit (h : b.Alike b') (bit : Bool) : (txBit t bit b).Alike (txBit t bit b') :=
  ((h.putSda bit).delay t.hp).releaseScl.setMode .scl .outputLow

theorem Bus.Alike.rxBit (h : b.Alike b') : (rxBit t b').1 = (rxBit t b).1 ∧ (rxBit t b).2.Alike (rxBit t b').2 := by
  obtain ⟨hlvl, hs⟩ := ((h.setMode .sda .inputPullup).delay t.hp).releaseScl (t := t) |>.sample_sda
  exact ⟨hlvl, hs.setMode .scl .outputLow⟩

theorem Bus.Alike.txBits (h : b.Alike b') (bits : List Bool) : (txBits t bits b).Alike (txBits t bits b') := by
  induction bits generalizing b b' with
  | nil => exact h
  | cons bit bits ih => exact ih (h.txBit bit)

theorem Bus.Alike.txByte (h : b.Alike b') (v : Byte) :
    (txByte t v b').1 = (txByte t v b).1 ∧ (txByte t v b).2.Alike (txByte t v b').2 := by
  obtain ⟨hlvl, hs⟩ := (h.txBits (msbFirst v)).rxBit (t := t)
  exact ⟨congrArg not hlvl, hs⟩

theorem Bus.Alike.rxBits (h : b.Alike b') (n : Nat) (r : Byte) :
    (rxBits t n r b').1 = (rxBits t n r b).1 ∧ (rxBits t n r b).2.Alike (rxBits t n r b').2 := by
  induction n generalizing r b b' with
  | zero => exact ⟨rfl, h⟩
  | succ n ih =>
    obtain ⟨hlvl, hs⟩ := h.rxBit (t := t)
    simp only [Machine.rxBits, hlvl]
    exact ih hs _

theorem Bus.Alike.rxByte (h : b.Alike b') (ack : Bool) :
    (rxByte t ack b').1 = (rxByte t ack b).1 ∧ (rxByte t ack b).2.Alike (rxByte t ack b').2 := by
  obtain ⟨hr, hs⟩ := h.rxBits (t := t) 8 0#8
  exact ⟨hr, hs.txBit (!ack)⟩

end Alike

/-! ## Transactions -/

/-- R126: two states that differ at most in the trace and in the answers to samples of SCL. -/
def State.Alike (s s' : State) : Prop := ∃ b, s' = s.withBus b ∧ s.bus.Alike b

theorem State.Alike.sendAddress {s s' : State} (h : s.Alike s') (addr : Addr) (rw : Bool) :
    (sendAddress addr rw s').1 = (sendAddress addr rw s).1 ∧
      (sendAddress addr rw s).2.Alike (sendAddress addr rw s').2 := by
  obtain ⟨b, rfl, hb⟩ := h
  obtain ⟨hack, hs⟩ := (hb.genStart (t := s.timing)).txByte (t := s.timing) (addrByte addr rw)
  exact ⟨hack, _, rfl, hs⟩

theorem State.Alike.stopIf {s s' : State} (h : s.Alike s') (sendStop : Bool) :
    (stopIf sendStop s).Alike (stopIf sendStop s') := by
  obtain ⟨b, rfl, hb⟩ := h
  cases sendStop with
  | false => exact ⟨b, rfl, hb⟩
  | true => exact ⟨_, rfl, hb.genStop⟩

theorem State.Alike.ret {s s' : State} (h : s.Alike s') (v : Word) : (s.ret v).Alike (s'.ret v) := by
  obtain ⟨b, rfl, hb⟩ := h
  exact ⟨b, rfl, hb⟩

theorem State.Alike.sendQueued {n i : Nat} {s s' t : State} {ok : Bool} (h : s.Alike s')
    (ht : sendQueued n i s = .ok (ok, t)) : ∃ t', sendQueued n i s' = .ok (ok, t') ∧ t.Alike t' := by
  induction n generalizing i s s' with
  | zero => cases ht; exact ⟨s', rfl, h⟩
  | succ n ih =>
    obtain ⟨b, rfl, hb⟩ := h
    have hread : memRead .tx i (s.withBus b) = memRead .tx i s := rfl
    simp only [Machine.sendQueued, hread] at ht ⊢
    cases hv : memRead .tx i s with
    | error f => rw [hv] at ht; cases ht
    | ok v =>
      obtain ⟨hack, hs⟩ := hb.txByte (t := s.timing) v
      have hs' : State.Alike (s.withBus (txByte s.timing v s.bus).2) (s.withBus (txByte s.timing v b).2) :=
        ⟨_, (s.withBus_withBus _ _).symm, hs⟩
      simp only [hv, State.withBus_timing, State.withBus_bus, State.withBus_withBus, hack] at ht ⊢
      split at ht
      · next hy => rw [if_pos hy]; exact ih hs' ht
      · next hn => rw [if_neg hn]; cases ht; exact ⟨_, rfl, hs'⟩

/-- One byte of R177's loop: stored at an index the buffer has, else the machine stops. -/
theorem receiveInto_succ (n i : Nat) (s : State) :
    receiveInto (n + 1) i s =
      if i < s.params.rxCapacity then
        receiveInto n (i + 1)
          (State.withBus { s with rxBuf := s.rxBuf.write i (rxByte s.timing (n != 0) s.bus).1 }
            (rxByte s.timing (n != 0) s.bus).2)
      else .error (.bufferIndex .rx i) := by
  by_cases hi : i < s.params.rxCapacity
  · simp only [Machine.receiveInto, memWrite, State.capacity, State.withBus_params, hi, if_true]
    rfl
  · simp only [Machine.receiveInto, memWrite, State.capacity, State.withBus_params, hi, if_false]

theorem State.Alike.receiveInto {n i : Nat} {s s' t : State} (h : s.Alike s') (ht : receiveInto n i s = .ok t) :
    ∃ t', receiveInto n i s' = .ok t' ∧ t.Alike t' := by
  induction n generalizing i s s' with
  | zero => cases ht; exact ⟨s', rfl, h⟩
  | succ n ih =>
    obtain ⟨b, rfl, hb⟩ := h
    obtain ⟨hbyte, hs⟩ := hb.rxByte (t := s.timing) (n != 0)
    simp only [receiveInto_succ, State.withBus_params, State.withBus_timing, State.withBus_bus, hbyte] at ht ⊢
    split at ht
    · next hi =>
      rw [if_pos hi]
      refine ih ?_ ht
      exact ⟨_, rfl, hs⟩
    · cases ht

/-! ## Commands -/

theorem State.Alike.execCloseTx {sendStop : Bool} {s s' t : State} (h : s.Alike s') (hc : s.configured = true)
    (ht : exec (.closeTx sendStop) s = .next t) : ∃ t', exec (.closeTx sendStop) s' = .next t' ∧ t.Alike t' := by
  obtain ⟨hack, hs⟩ := h.sendAddress s.txAddr false
  have haddr : s'.txAddr = s.txAddr := by obtain ⟨b, rfl, -⟩ := h; rfl
  have hlen : s'.txLen = s.txLen := by obtain ⟨b, rfl, -⟩ := h; rfl
  have hc' : s'.configured = true := by obtain ⟨b, rfl, -⟩ := h; exact hc
  cases ha : Machine.sendAddress s.txAddr false s with
  | mk ack s₁ =>
    have ha' : Machine.sendAddress s'.txAddr false s' = (ack, (Machine.sendAddress s.txAddr false s').2) := by
      rw [haddr]; exact Prod.ext (hack.trans (by rw [ha])) rfl
    rw [ha] at hs
    cases ack with
    | false =>
      rw [exec_closeTx_of_nack hc _ ha] at ht
      cases ht
      exact ⟨_, exec_closeTx_of_nack hc' _ ha', (hs.stopIf sendStop).ret _⟩
    | true =>
      cases hq : Machine.sendQueued s.txLen 0 s₁ with
      | error f => simp [exec, Machine.execCloseTx, whenConfigured, hc, ha, hq] at ht
      | ok p =>
        obtain ⟨ok, s₂⟩ := p
        obtain ⟨s₂', hq', hs'⟩ := hs.sendQueued hq
        rw [exec_closeTx_of_ack hc _ ha hq] at ht
        cases ht
        exact ⟨_, exec_closeTx_of_ack hc' _ ha' (hlen ▸ hq'), (hs'.stopIf sendStop).ret _⟩

theorem State.Alike.execRequest {addr : Addr} {qty : Word} {sendStop : Bool} {s s' t : State} (h : s.Alike s')
    (hc : s.configured = true) (ht : exec (.request addr qty sendStop) s = .next t) :
    ∃ t', exec (.request addr qty sendStop) s' = .next t' ∧ t.Alike t' := by
  obtain ⟨b, rfl, hb⟩ := h
  generalize hs₀ : ({ s with rxLen := 0, rxCursor := 0 } : State) = s₀
  have h₀ : s₀.Alike (s₀.withBus b) := ⟨b, rfl, hs₀ ▸ hb⟩
  have hb₀ : s₀.withBus b = { s.withBus b with rxLen := 0, rxCursor := 0 } := hs₀ ▸ rfl
  obtain ⟨hack, hs⟩ := h₀.sendAddress addr true
  cases ha : Machine.sendAddress addr true s₀ with
  | mk ack s₁ =>
    have ha' : Machine.sendAddress addr true (s₀.withBus b) = (ack, _) := Prod.ext (hack.trans (by rw [ha])) rfl
    rw [ha] at hs
    rw [hb₀] at ha'
    subst hs₀
    cases ack with
    | false =>
      rw [exec_request_of_nack hc _ _ ha] at ht
      cases ht
      exact ⟨_, exec_request_of_nack (by exact hc) _ _ ha', (hs.stopIf sendStop).ret _⟩
    | true =>
      cases hr : Machine.receiveInto (clampQuantity qty s) 0 s₁ with
      | error f => simp only [exec, Machine.execRequest, whenConfigured, if_pos hc, ha, hr, reduceCtorEq] at ht
      | ok s₂ =>
        obtain ⟨s₂', hr', b₂, rfl, hb₂⟩ := hs.receiveInto hr
        rw [exec_request_of_ack hc _ ha hr] at ht
        cases ht
        have hs₂ : State.Alike { s₂ with rxLen := clampQuantity qty s }
            (State.withBus { s₂ with rxLen := clampQuantity qty s } b₂) := ⟨b₂, rfl, hb₂⟩
        exact ⟨_, exec_request_of_ack (by exact hc) _ ha' hr', (hs₂.stopIf sendStop).ret _⟩

/-- A buffer command looks at neither, and leaves the bus side. -/
theorem State.Alike.exec_of_not_busCommand {i : Instr} {s s' t : State} (h : s.Alike s')
    (hi : isBusCommand i = false) (ht : exec i s = .next t) : ∃ t', exec i s' = .next t' ∧ t.Alike t' := by
  obtain ⟨b, rfl, hb⟩ := h
  have hbus := bus_of_exec hi ht
  have hs : exec i (s.withBus b) = onNext (State.withLines t.configured b) (exec i s) := by
    rw [configured_of_exec hi ht]
    exact exec_withLines s.configured b hi s
  exact ⟨t.withBus b, by rw [hs, ht]; rfl, b, rfl, hbus ▸ hb⟩

/-- A command that needs a configured block faults in both states, or runs the same procedures in both. -/
theorem State.Alike.exec_of_needsConfigured {i : Instr} {s s' t : State} (h : s.Alike s')
    (hi : needsConfigured i = true) (ht : exec i s = .next t) : ∃ t', exec i s' = .next t' ∧ t.Alike t' := by
  cases hc : s.configured with
  | false =>
    obtain ⟨b, rfl, hb⟩ := h
    rw [exec_of_not_configured hi hc] at ht
    cases ht
    exact ⟨_, exec_of_not_configured hi (by exact hc), b, rfl, hb⟩
  | true =>
    cases i with
    | configure | release | setClock | openTx | queueByte | queueBytes | read | peek | available => cases hi
    | closeTx sendStop => exact h.execCloseTx hc ht
    | request addr qty sendStop => exact h.execRequest hc ht
    | probe addr =>
      obtain ⟨hack, hs⟩ := h.sendAddress addr false
      obtain ⟨b, rfl, -⟩ := h
      rw [exec_probe_of_configured hc] at ht
      cases ht
      exact ⟨_, exec_probe_of_configured (by exact hc) addr, hack ▸ (hs.stopIf true).ret _⟩
    | start =>
      obtain ⟨b, rfl, hb⟩ := h
      rw [exec_start_of_configured hc] at ht
      cases ht
      exact ⟨_, exec_start_of_configured (by exact hc), _, rfl, hb.genStart⟩
    | stop =>
      obtain ⟨b, rfl, hb⟩ := h
      rw [exec_stop_of_configured hc] at ht
      cases ht
      exact ⟨_, exec_stop_of_configured (by exact hc), _, rfl, hb.genStop⟩
    | writeBit bit =>
      obtain ⟨b, rfl, hb⟩ := h
      rw [exec_writeBit_of_configured hc] at ht
      cases ht
      exact ⟨_, exec_writeBit_of_configured (by exact hc) bit, _, rfl, hb.txBit bit⟩
    | readBit =>
      obtain ⟨b, rfl, hb⟩ := h
      obtain ⟨hlvl, hs⟩ := hb.rxBit (t := s.timing)
      rw [exec_readBit_of_configured hc] at ht
      cases ht
      exact ⟨_, exec_readBit_of_configured (by exact hc), hlvl ▸ State.Alike.ret ⟨_, rfl, hs⟩ _⟩
    | writeByte v =>
      obtain ⟨b, rfl, hb⟩ := h
      obtain ⟨hack, hs⟩ := hb.txByte (t := s.timing) v
      rw [exec_writeByte_of_configured hc] at ht
      cases ht
      exact ⟨_, exec_writeByte_of_configured (by exact hc) v, hack ▸ State.Alike.ret ⟨_, rfl, hs⟩ _⟩
    | readByte ack =>
      obtain ⟨b, rfl, hb⟩ := h
      obtain ⟨hr, hs⟩ := hb.rxByte (t := s.timing) ack
      rw [exec_readByte_of_configured hc] at ht
      cases ht
      exact ⟨_, exec_readByte_of_configured (by exact hc) ack, hr ▸ State.Alike.ret ⟨_, rfl, hs⟩ _⟩

/-- R126: from alike states a command ends in alike states. -/
theorem State.Alike.exec {i : Instr} {s s' t : State} (h : s.Alike s') (ht : exec i s = .next t) :
    ∃ t', exec i s' = .next t' ∧ t.Alike t' := by
  cases hn : needsConfigured i with
  | true => exact h.exec_of_needsConfigured hn ht
  | false =>
    cases i with
    | start | stop | writeBit | readBit | writeByte | readByte | closeTx | request | probe => cases hn
    | setClock | openTx | queueByte | queueBytes | read | peek | available => exact h.exec_of_not_busCommand rfl ht
    | configure sda scl =>
      obtain ⟨b, rfl, hb⟩ := h
      by_cases heq : sda = scl
      · subst heq
        rw [exec_configure_same] at ht
        cases ht
        exact ⟨_, exec_configure_same sda _, b, rfl, hb⟩
      · rw [exec_configure_of_ne heq] at ht
        cases ht
        exact ⟨_, exec_configure_of_ne heq _, _, rfl,
          ((hb.setMode .sda .inputPullup).setMode .scl .inputPullup).delay _⟩
    | release =>
      obtain ⟨b, rfl, hb⟩ := h
      rw [exec_release] at ht
      cases ht
      refine ⟨_, exec_release _, _, rfl, ?_⟩
      change Bus.Alike (if s.pinsBound then _ else _) (if s.pinsBound then _ else _)
      split
      · exact (hb.setMode .sda .input).setMode .scl .input
      · exact hb

/-- Settles O29: the two runs begin in alike states, so they end in alike states. -/
theorem clockStretchingChangesNoResult : Obligations.ClockStretchingChangesNoResult := by
  intro i s t t' answers draws ht ht'
  have halike : s.Alike (s.withBus { s.bus with sclAnswers := answers, sclDraws := draws }) :=
    ⟨_, rfl, rfl, rfl, rfl, rfl⟩
  obtain ⟨u, hu, b, rfl, hb⟩ := halike.exec ht
  obtain rfl := Host.Outcome.next.inj (hu.symm.trans ht')
  exact congrArg t.withBus hb.eq_update

end Sys2Proof.Machine
end

section
/-! What a step is, an equation for each of its cases (spec/10_state.md R45, R47, R49), with the statements about the
start state and the idle block. -/

namespace Sys2Proof.Machine

section Equations

variable {s : State} {c : InFlight}

theorem step_of_not_resetAsserted (hr : s.resetIn.headD false = false) : step s = stepCommand s.pastResetSignal := by
  have hra : s.resetAsserted = false := hr
  simp [step, stepBlock, hra]

theorem step_of_busy (hr : s.resetIn.headD false = false) (hf : s.fault = false) (hb : s.busy = true) :
    step s = resume s.pastResetSignal := by
  simp [step_of_not_resetAsserted hr, stepCommand, hf, hb]

theorem step_of_idle (hr : s.resetIn.headD false = false) (hb : s.busy = false) (hf : s.fault = false)
    (hc : s.cmdIn = []) : step s = .next s.pastResetSignal := by
  simp [step_of_not_resetAsserted hr, stepCommand, hf, hb, hc]

/-- A ready block accepts a command's word, and the command begins. -/
theorem step_of_command {w : CmdWord} {rest : List CmdWord} {i : Instr} (hr : s.resetIn.headD false = false)
    (hb : s.busy = false) (hf : s.fault = false) (hc : s.cmdIn = w :: rest) (hd : decode w = .command i) :
    step s = follow i (s.pastResetSignal.accept rest) (s.pastResetSignal.accept rest) := by
  simp [step_of_not_resetAsserted hr, stepCommand, runWord, hf, hb, hc, hd]

theorem resume_of_inFlight (hi : s.inFlight = some c) : resume s = resumeCommand c s := by
  simp only [resume, hi]

theorem step_of_delayed (hr : s.resetIn.headD false = false) (hf : s.fault = false) (hb : s.busy = true)
    (hi : s.inFlight = some c) (hd : s.delayDone = false) :
    step s = .next (s.withInputs s.delayIn.tail s.resetIn.tail) := by
  have hdp : ¬ s.pastResetSignal.delayDone = true := by rw [show s.pastResetSignal.delayDone = false from hd]; decide
  rw [step_of_busy hr hf hb, resume_of_inFlight (s := s.pastResetSignal) hi, resumeCommand, if_neg hdp]
  rfl

/-- The state in which a command goes on after its delay. -/
def State.resumed (s : State) : State :=
  { s.withInputs s.delayIn.tail s.resetIn.tail with inFlight := none, delay := none }

theorem step_of_delayDone (hr : s.resetIn.headD false = false) (hf : s.fault = false) (hb : s.busy = true)
    (hi : s.inFlight = some c) (hd : s.delayDone = true) :
    step s = follow c.instr (s.resumed.withBus c.start) s.resumed := by
  have hdp : s.pastResetSignal.delayDone = true := hd
  have hbd : s.pastResetSignal.boundary = { s.pastResetSignal with bus := c.start, inFlight := none, delay := none } :=
    State.boundary_some hi
  rw [step_of_busy hr hf hb, resume_of_inFlight (s := s.pastResetSignal) hi, resumeCommand, if_pos hdp, hbd]
  rfl

theorem step_of_queue {q : QueueProgress} (hr : s.resetIn.headD false = false) (hf : s.fault = false)
    (hb : s.busy = true) (hi : s.inFlight = none) (hq : s.queue = some q) :
    step s = outcomeOf (takePayload s.payloadIn q.remaining q.accepted s.pastResetSignal) := by
  simp only [step_of_busy hr hf hb, resume, State.pastResetSignal_inFlight, hi, resumeQueue,
    State.pastResetSignal_queue, hq, State.pastResetSignal_payloadIn]

end Equations

/-- Settles O15: with nothing offered the step only samples the reset signal. -/
theorem readyBlockWaitsForAWord : Obligations.ReadyBlockWaitsForAWord := fun _ hr hb hf hc => step_of_idle hr hb hf hc

/-- Settles O14: every element by the definition of the start state. -/
theorem startStateHasTheResetValues : Obligations.StartStateHasTheResetValues :=
  ⟨rfl, rfl, rfl, rfl, rfl, rfl, rfl, rfl, rfl, rfl, rfl, rfl, rfl, rfl⟩

end Sys2Proof.Machine
end

section
/-! The statements about the well-formed state: the ranges of what is stored, which every command keeps; how a command
stands when it ends or waits; and then steps, which keep both and never stop. -/

namespace Sys2Proof.Machine

/-! ## What is stored, and that every command keeps it -/

/-- The part of `State.Wf` about the stored elements, whatever command is in progress. -/
structure State.Stored (s : State) : Prop where
  params_valid : s.params.valid = true
  hp_pos : 1 ≤ s.hp.toNat
  configured_bound : s.configured = true → s.pinsBound = true
  pins_differ : s.pinsBound = true → s.sdaPin ≠ s.sclPin
  txLen_le : s.txLen ≤ s.params.txCapacity
  rxCursor_le : s.rxCursor ≤ s.rxLen
  rxLen_le : s.rxLen ≤ s.params.rxCapacity
  txBuf_wf : s.txBuf.wf = true
  txBuf_within : s.txBuf.within s.params.txCapacity = true
  rxBuf_wf : s.rxBuf.wf = true
  rxBuf_within : s.rxBuf.within s.params.rxCapacity = true

theorem State.Wf.stored {s : State} (w : s.Wf) : s.Stored :=
  ⟨w.params_valid, w.hp_pos, w.configured_bound, w.pins_differ, w.txLen_le, w.rxCursor_le, w.rxLen_le, w.txBuf_wf,
    w.txBuf_within, w.rxBuf_wf, w.rxBuf_within⟩

/-- Taking payload fills the transmit buffer as far as there is room (R173). -/
theorem takePayload_stored {offered : List Byte} {n acc : Nat} {s t : State} (hs : s.Stored)
    (h : takePayload offered n acc s = .ok t) : t.Stored := by
  have hlen := hs.txLen_le
  have hfits (m : Nat) : s.txLen + s.room m ≤ s.params.txCapacity := by rw [State.room]; omega
  have hbytes (m : Nat) : s.txLen + (offered.take (s.room m)).length ≤ s.params.txCapacity :=
    (Nat.add_le_add_left (List.length_take_le ..) _).trans (hfits m)
  rcases Nat.lt_or_ge offered.length n with hlt | hge
  · rw [takePayload_short hlt] at h
    cases h
    exact { hs with
      txLen_le := hfits _
      txBuf_wf := Memory.wf_writeAll _ _ hs.txBuf_wf
      txBuf_within := Memory.within_writeAll (hbytes _) hs.txBuf_within }
  · rw [takePayload_enough hge] at h
    cases h
    exact { hs with
      txLen_le := hfits _
      txBuf_wf := Memory.wf_writeAll _ _ hs.txBuf_wf
      txBuf_within := Memory.within_writeAll (hbytes _) hs.txBuf_within }

theorem exec_stored {i : Instr} {s t : State} (hs : s.Stored) (h : exec i s = .next t) : t.Stored := by
  cases exec_cases h with
  | configure sda scl hne => exact { hs with configured_bound := fun _ => rfl, pins_differ := fun _ => hne }
  | release => exact { hs with configured_bound := by simp }
  | clockSet v hv => exact { hs with hp_pos := one_le_halfPeriodOf _ }
  | requestNack => exact { hs with rxCursor_le := Nat.le_refl 0, rxLen_le := Nat.zero_le _ }
  | requestAck addr qty sendStop b bytes hc hlen =>
    have hle : clampQuantity qty s ≤ s.params.rxCapacity := Nat.min_le_right ..
    have hfits : 0 + bytes.length ≤ s.params.rxCapacity := by omega
    exact { hs with
      rxCursor_le := Nat.zero_le _
      rxLen_le := hle
      rxBuf_wf := Memory.wf_writeAll 0 bytes hs.rxBuf_wf
      rxBuf_within := Memory.within_writeAll hfits hs.rxBuf_within }
  | openTx addr => exact { hs with txLen_le := Nat.zero_le _ }
  | queued v hr => exact { hs with
      txLen_le := hr
      txBuf_wf := Memory.wf_write _ v hs.txBuf_wf
      txBuf_within := Memory.within_write v hr hs.txBuf_within }
  | queueBytes n t ht => exact takePayload_stored hs ht
  | read v hlt => exact { hs with rxCursor_le := hlt }
  | pinConflict | clockKept | notConfigured | onBus | queueFull | readEmpty | peek | peekEmpty | available =>
    exact { hs with }

/-- A CONFIGURE that has an event has two different pins (R101). -/
theorem pins_ne_of_exec {sda scl : PinId} {s t : State} (h : exec (.configure sda scl) s = .next t)
    (hev : t.bus.trace ≠ s.bus.trace) : sda ≠ scl := by
  rintro rfl
  rw [exec_configure_same] at h
  cases h
  exact hev rfl

/-- What a command has written by its first event keeps the ranges too. -/
theorem begun_stored {i : Instr} {s : State} (hs : s.Stored) (hne : ∀ sda scl, i = .configure sda scl → sda ≠ scl) :
    (begun i s).Stored := by
  cases i with
  | configure sda scl => exact { hs with configured_bound := fun _ => rfl, pins_differ := fun _ => hne sda scl rfl }
  | request addr qty sendStop => exact { hs with rxCursor_le := Nat.le_refl 0, rxLen_le := Nat.zero_le _ }
  | release | setClock | start | stop | writeBit | readBit | writeByte | readByte | openTx | queueByte | queueBytes
  | closeTx | read | peek | available | probe => exact hs

/-- By its first event a command has written at most the pins and the length and cursor of the receive buffer. -/
theorem begun_frame (i : Instr) (s : State) :
    begun i s = { s with pinsBound := (begun i s).pinsBound, sdaPin := (begun i s).sdaPin,
                         sclPin := (begun i s).sclPin, rxLen := (begun i s).rxLen,
                         rxCursor := (begun i s).rxCursor } := by
  cases i <;> rfl

/-! ## How a command stands when it ends or waits -/

/-- R42: the block is busy exactly while a QUEUE_BYTES has payload to take, at most its 32-bit count. -/
structure State.Settled (s : State) : Prop where
  fault_code : s.fault = true ↔ s.faultCode ≠ .none
  fault_idle : s.fault = true → s.busy = false
  busy_queue : s.busy = s.queue.isSome
  queue_counts : ∀ q, s.queue = some q → 1 ≤ q.remaining ∧ q.remaining + q.accepted < 2 ^ 32
  inFlight : s.inFlight = none
  delay : s.delay = none

/-- With no bus command in progress, `State.Wf` is the two parts. -/
theorem State.Stored.wf {s : State} (hs : s.Stored) (hp : s.Settled) : s.Wf where
  params_valid := hs.params_valid
  hp_pos := hs.hp_pos
  configured_bound := hs.configured_bound
  pins_differ := hs.pins_differ
  txLen_le := hs.txLen_le
  rxCursor_le := hs.rxCursor_le
  rxLen_le := hs.rxLen_le
  txBuf_wf := hs.txBuf_wf
  txBuf_within := hs.txBuf_within
  rxBuf_wf := hs.rxBuf_wf
  rxBuf_within := hs.rxBuf_within
  fault_code := hp.fault_code
  fault_idle := hp.fault_idle
  busy_waiting := by rw [hp.busy_queue, hp.inFlight]; simp
  one_command := .inr hp.inFlight
  delay_inFlight := by rw [hp.delay, hp.inFlight]; rfl
  mid_command := by rw [hp.inFlight]; simp
  queue_counts := hp.queue_counts

theorem takePayload_settled {offered : List Byte} {n acc : Nat} {s t : State}
    (h : takePayload offered n acc s = .ok t) (hn : n + acc < 2 ^ 32) (hf : s.fault = false)
    (hc : s.faultCode = .none) (hi : s.inFlight = none) (hd : s.delay = none) : t.Settled := by
  rcases Nat.lt_or_ge offered.length n with hlt | hge
  · rw [takePayload_short hlt] at h
    cases h
    refine ⟨by simp [hf, hc], by simp [hf], rfl, ?_, hi, hd⟩
    rintro q ⟨⟩
    have hroom : s.room offered.length ≤ offered.length := Nat.min_le_left ..
    exact ⟨by simp only; omega, by simp only; omega⟩
  · rw [takePayload_enough hge] at h
    cases h
    exact ⟨by simp [hf, hc], by simp [hf], rfl, by simp, hi, hd⟩

/-- A command that begins on an untroubled block with nothing waiting ends in the fault entry, or waits as a
QUEUE_BYTES, or has ended. -/
theorem exec_settled {i : Instr} {s t : State} (h : exec i s = .next t) (hf : s.fault = false)
    (hc : s.faultCode = .none) (hq : s.queue = none) (hi : s.inFlight = none) (hd : s.delay = none) : t.Settled := by
  cases exec_cases h with
  | queueBytes n t ht => exact takePayload_settled ht n.isLt hf hc hi hd
  | pinConflict | notConfigured => exact ⟨by simp, fun _ => rfl, by simp [hq], by simp [hq], hi, hd⟩
  | configure | release | clockKept | clockSet | onBus | requestNack | requestAck | openTx | queued | queueFull | read
  | readEmpty | peek | peekEmpty | available =>
    exact ⟨by simp [hf, hc], by simp [hf], by simp [hq], by simp [hq], hi, hd⟩

/-- R231: the reset values are well formed. -/
theorem State.resetNow_wf {s : State} (hp : s.params.valid = true) : s.resetNow.Wf := by
  refine State.Stored.wf ?_ ⟨by simp, by simp, rfl, by simp [State.resetNow, State.resetWith], rfl, rfl⟩
  obtain ⟨-, hhp⟩ : (1 ≤ s.params.txCapacity ∧ 1 ≤ s.params.rxCapacity) ∧ 1 ≤ s.params.halfPeriodReset.toNat := by
    simpa [Params.valid] using hp
  exact ⟨hp, hhp, by simp, by simp, Nat.zero_le _, Nat.le_refl 0, Nat.zero_le _, rfl, rfl, rfl, rfl⟩

/-- A command in progress ends, waits or is abandoned in a well-formed state. -/
theorem Running.conclude_wf {i : Instr} {start : Bus} {s t : State} {done evs : List Event} {d : Drive}
    (hrun : Running i start s t done evs) (hdr : DriveCase evs s d) (hs : s.Stored) (hc : s.faultCode = .none)
    (hb : s.busy = true) : (conclude i start t d).Wf := by
  have hstart : (s.withBus start).Stored := { hs with }
  cases hdr with
  | ended =>
    have hset := exec_settled hrun.exec hrun.fault hc hrun.queue hrun.inFlight hrun.delay
    exact State.Stored.wf { exec_stored hstart hrun.exec with } { hset with }
  | reset => exact State.resetNow_wf hs.params_valid
  | waiting before n after hev =>
    subst hev
    have hmid := hrun.mid (s.delayIn.drop (delaysOf before + 1)) (s.resetIn.drop (before.length + 1))
    generalize hu : ({ s with
      bus := s.bus.play (before ++ [.wait n]), resetIn := s.resetIn.drop (before.length + 1),
      delayIn := s.delayIn.drop (delaysOf before + 1), delay := some (BitVec.ofNat 32 n) } : State) = u at hmid ⊢
    have hbegun : (begun i u).Stored := by
      refine begun_stored (hu ▸ { hs with }) ?_
      rintro sda scl rfl
      exact pins_ne_of_exec hrun.exec (by simp [hrun.emits.trace])
    have hfault : (begun i u).fault = false := by rw [begun_frame, ← hu]; exact hrun.fault
    have hcode : (begun i u).faultCode = .none := by rw [begun_frame, ← hu]; exact hc
    have hqueue : (begun i u).queue = none := by rw [begun_frame, ← hu]; exact hrun.queue
    have hbusy : (begun i u).busy = true := by rw [begun_frame, ← hu]; exact hb
    have hdelay : (begun i u).delay.isSome = true := by rw [begun_frame, ← hu]; rfl
    exact { hbegun with
      fault_code := by simp [conclude, hfault, hcode]
      fault_idle := by simp [conclude, hfault]
      busy_waiting := by simp [conclude, hbusy]
      one_command := .inl hqueue
      delay_inFlight := hdelay
      mid_command := by rintro c ⟨⟩; exact hmid
      queue_counts := by simp [conclude, hqueue] }

/-! ## Steps -/

/-- An untroubled well-formed block has the code NONE. -/
theorem State.Wf.faultCode_none {s : State} (w : s.Wf) (hf : s.fault = false) : s.faultCode = .none := by
  simpa [hf] using w.fault_code

theorem State.boundary_withInputs (d r : List Bool) (s : State) :
    (s.withInputs d r).boundary = s.boundary.withInputs d r := by
  cases hi : s.inFlight with
  | none => rw [State.boundary_none hi, State.boundary_none (s := s.withInputs d r) hi]
  | some c => rw [State.boundary_some hi, State.boundary_some (s := s.withInputs d r) hi]; rfl

/-- A well-formed state stays so as the inputs it has looked at are taken off. -/
theorem State.Wf.withInputs {s : State} (w : s.Wf) (d r : List Bool) : (s.withInputs d r).Wf :=
  { w with
    mid_command := by
      intro c hi
      obtain ⟨t, n, before, after, he, hd, htr, hb⟩ := w.mid_command c hi
      refine ⟨t.withInputs d r, n, before, after, ?_, hd, htr, hb⟩
      rw [s.boundary_withInputs, exec_withInputs, he]
      rfl }

/-- Settles O16: what a step changes it leaves in a well-formed state, case by case; a command that begins or goes on
runs as its meaning says. -/
theorem stepKeepsTheStateWellFormed : Obligations.StepKeepsTheStateWellFormed := by
  intro s t w h
  cases w.step_cases h with
  | reset hr ht => subst ht; exact State.resetNow_wf w.params_valid
  | wait hr hw ht => subst ht; exact w.withInputs s.delayIn s.resetIn.tail
  | delayed c hr hf hb hi hd ht => subst ht; exact w.withInputs _ _
  | resumeQueue q hr hf hb hi hq ht =>
    have hdelay : s.delay = none := by simpa [hi] using w.delay_inFlight
    have hstored : s.pastResetSignal.Stored := { w.stored with }
    exact (takePayload_stored hstored ht).wf
      (takePayload_settled ht (w.queue_counts q hq).2 hf (w.faultCode_none hf) hi hdelay)
  | reject w' rest r hr hf hb hc hd ht =>
    subst ht
    obtain ⟨hq, hi, hdelay⟩ := w.ready hb
    have hstored : ((s.pastResetSignal.accept rest).raise (rejectCode r)).Stored := { w.stored with }
    exact hstored.wf ⟨by simp [rejectCode_ne_none], fun _ => rfl, by simp [hq], by simp [hq], hi, hdelay⟩
  | run w' rest i t₀ d evs hr hb hc hd hrun hdr ht =>
    subst ht
    exact hrun.conclude_wf hdr { w.stored with } (w.faultCode_none hrun.fault) rfl
  | resume c t₀ d done evs hr hb hi hne hrun hdr ht =>
    subst ht
    exact hrun.conclude_wf hdr { w.stored with } (w.faultCode_none hrun.fault) hb

/-- Settles O17: the parameters of R5 meet R5's constraints, and no command is in progress. -/
theorem startStateIsWellFormed : Obligations.StartStateIsWellFormed :=
  { State.resetNow_wf (s := State.reset) (by decide) with mid_command := by intro c hi; cases hi }

/-! ## No step stops -/

theorem takePayload_ok (offered : List Byte) (n acc : Nat) (s : State) : ∃ t, takePayload offered n acc s = .ok t := by
  rcases Nat.lt_or_ge offered.length n with hlt | hge
  · exact ⟨_, takePayload_short hlt⟩
  · exact ⟨_, takePayload_enough hge⟩

/-- R11: no command reaches an entry outside its buffer. -/
theorem State.Stored.exec_next {s : State} (hs : s.Stored) (i : Instr) : ∃ t, exec i s = .next t := by
  cases hn : needsConfigured i with
  | true =>
    cases hc : s.configured with
    | false => exact ⟨_, exec_of_not_configured hn hc⟩
    | true =>
      cases i with
      | configure | release | setClock | openTx | queueByte | queueBytes | read | peek | available => cases hn
      | start => exact ⟨_, exec_start_of_configured hc⟩
      | stop => exact ⟨_, exec_stop_of_configured hc⟩
      | writeBit bit => exact ⟨_, exec_writeBit_of_configured hc bit⟩
      | readBit => exact ⟨_, exec_readBit_of_configured hc⟩
      | writeByte v => exact ⟨_, exec_writeByte_of_configured hc v⟩
      | readByte ack => exact ⟨_, exec_readByte_of_configured hc ack⟩
      | probe addr => exact ⟨_, exec_probe_of_configured hc addr⟩
      | closeTx sendStop =>
        obtain ⟨b, evs, st, heq, -⟩ := exec_closeTx_spec hc hs.txLen_le sendStop
        exact ⟨_, heq⟩
      | request addr qty sendStop =>
        obtain ⟨b, evs, -, ⟨heq, -⟩ | ⟨bytes, -, heq, -⟩⟩ := exec_request_spec hc addr qty sendStop
        · exact ⟨_, heq⟩
        · exact ⟨_, heq⟩
  | false =>
    cases i with
    | start | stop | writeBit | readBit | writeByte | readByte | closeTx | request | probe => cases hn
    | configure sda scl =>
      by_cases heq : sda = scl
      · exact ⟨_, if_pos heq⟩
      · exact ⟨_, exec_configure_of_ne heq s⟩
    | release => exact ⟨_, exec_release s⟩
    | setClock v =>
      rcases Int.lt_or_le 0 v.toInt with hpos | hle
      · exact ⟨_, exec_setClock_of_pos hpos s⟩
      · exact ⟨_, exec_setClock_of_nonpos hle s⟩
    | openTx | available => exact ⟨_, rfl⟩
    | queueByte v =>
      rcases Nat.lt_or_ge s.txLen s.params.txCapacity with hroom | hfull
      · exact ⟨_, exec_queueByte_of_room hroom v⟩
      · exact ⟨_, exec_queueByte_of_full hfull v⟩
    | queueBytes n =>
      obtain ⟨t, ht⟩ := takePayload_ok s.payloadIn n.toNat 0 s
      exact ⟨t, congrArg outcomeOf ht⟩
    | read =>
      rcases Nat.lt_or_ge s.rxCursor s.rxLen with hunread | hexhausted
      · exact ⟨_, exec_read_of_unread hunread hs.rxLen_le⟩
      · exact ⟨_, exec_read_of_exhausted hexhausted⟩
    | peek =>
      rcases Nat.lt_or_ge s.rxCursor s.rxLen with hunread | hexhausted
      · exact ⟨_, exec_peek_of_unread hunread hs.rxLen_le⟩
      · exact ⟨_, exec_peek_of_exhausted hexhausted⟩

/-- A command in progress answers a next state if its meaning does. -/
theorem follow_next {i : Instr} {a s t : State} (h : exec i a = .next t) : ∃ u, follow i a s = .next u := by
  rw [follow, h]
  exact ⟨_, rfl⟩

/-- Settles O18: in each case of a step the state it answers; a command's meaning has one from a well-formed state. -/
theorem wellFormedStateAlwaysSteps : Obligations.WellFormedStateAlwaysSteps := by
  intro s w
  cases hr : s.resetIn.headD false with
  | true => exact ⟨_, step_of_resetAsserted hr⟩
  | false =>
    cases hf : s.fault with
    | true => exact ⟨_, step_of_fault hf hr⟩
    | false =>
      cases hb : s.busy with
      | false =>
        cases hc : s.cmdIn with
        | nil => exact ⟨_, step_of_idle hr hb hf hc⟩
        | cons word rest =>
          cases hd : decode word with
          | reject r => exact ⟨_, step_of_decode_reject hr hb hf hc hd⟩
          | command i =>
            have hstored : (s.pastResetSignal.accept rest).Stored := { w.stored with }
            obtain ⟨t, ht⟩ := hstored.exec_next i
            rw [step_of_command hr hb hf hc hd]
            exact follow_next ht
      | true =>
        cases hi : s.inFlight with
        | some c =>
          cases hd : s.delayDone with
          | false => exact ⟨_, step_of_delayed hr hf hb hi hd⟩
          | true =>
            have hstored : (s.resumed.withBus c.start).Stored := { w.stored with }
            obtain ⟨t, ht⟩ := hstored.exec_next c.instr
            rw [step_of_delayDone hr hf hb hi hd]
            exact follow_next ht
        | none =>
          obtain ⟨q, hq⟩ : ∃ q, s.queue = some q := by
            simpa [hb, hi, Option.isSome_iff_exists] using w.busy_waiting
          obtain ⟨t, ht⟩ := takePayload_ok s.payloadIn q.remaining q.accepted s.pastResetSignal
          exact ⟨t, by rw [step_of_queue hr hf hb hi hq, ht]; rfl⟩

end Sys2Proof.Machine
end

section
/-! The statements about the bus side along a run: what a step does to it is to play events of a command on it, or on
the bus side the command began on, or to reset it. -/

namespace Sys2Proof.Machine

/-! ## The modes last set (R25) -/

theorem Bus.Mirrors.play {b : Bus} (h : b.Mirrors) (evs : List Event) : (b.play evs).Mirrors := by
  obtain ⟨hd, hc⟩ := h
  obtain ⟨hpd, hpc⟩ := b.play_modes evs
  exact ⟨by rw [hpd, hd, Bus.play_trace, modeAfter_append], by rw [hpc, hc, Bus.play_trace, modeAfter_append]⟩

theorem State.resetNow_mirrors (s : State) : s.resetNow.bus.Mirrors := ⟨rfl, rfl⟩

/-- A state with no bus command in progress is at a boundary. -/
theorem State.Throughout.of_boundary {P : Bus → Prop} {s : State} (hi : s.inFlight = none) (h : P s.bus) :
    s.Throughout P := ⟨h, by rwa [State.boundary_none hi]⟩

/-- Where the command in progress began stays with it as the bus side changes. -/
theorem State.Throughout.of_bus {P : Bus → Prop} {s t : State} (h : s.Throughout P) (hb : P t.bus)
    (hi : t.inFlight = s.inFlight) : t.Throughout P := by
  refine ⟨hb, ?_⟩
  cases hs : s.inFlight with
  | none => rwa [State.boundary_none (hi.trans hs)]
  | some c =>
    have hthen := h.2
    rw [State.boundary_some hs] at hthen
    rw [State.boundary_some (hi.trans hs)]
    exact hthen

/-- A command that waits for a delay keeps where it began. -/
theorem conclude_waiting_throughout {P : Bus → Prop} {i : Instr} {start : Bus} {t u : State} (hnow : P u.bus)
    (hthen : P start) : (conclude i start t (.waiting u)).Throughout P := by
  refine ⟨by cases i <;> exact hnow, ?_⟩
  rw [conclude_waiting_boundary]
  cases i <;> exact hthen

/-- R173: taking payload leaves the bus side and what waits for a delay. -/
theorem State.Throughout.takePayload {P : Bus → Prop} {offered : List Byte} {n acc : Nat} {s t : State}
    (h : s.Throughout P) (ht : takePayload offered n acc s = .ok t) : t.Throughout P := by
  rw [takePayload_frame ht]
  exact h.of_bus h.1 rfl

/-- A command begun in `a` and by now in `u` ends with the modes those last set, waits with them, or is abandoned. -/
theorem DriveCase.conclude_mirrors {i : Instr} {a u t : State} {evs : List Event} {d : Drive} (h : DriveCase evs u d)
    (he : exec i a = .next t) (ha : a.Throughout Bus.Mirrors) (hu : u.bus.Mirrors) :
    (conclude i a.bus t d).Throughout Bus.Mirrors := by
  cases h with
  | ended =>
    obtain ⟨evs', hem, -⟩ := (exec_cases he).work
    have ht : t.bus.Mirrors := hem.play ▸ ha.1.play evs'
    exact ha.of_bus ht (exec_samePorts he).inFlight
  | waiting => exact conclude_waiting_throughout (hu.play _) ha.1
  | reset => exact .of_boundary rfl (State.resetNow_mirrors _)

/-- Settles O19: playing events on a bus side keeps the modes those last set, and a step only plays events, on the bus
side it finds or on that of the command's start, or resets. -/
theorem stepKeepsTheModesThoseLastSet : Obligations.StepKeepsTheModesThoseLastSet := by
  intro s t hP h
  cases step_cases h with
  | reset hr ht => subst ht; exact .of_boundary rfl (State.resetNow_mirrors _)
  | wait hr hw ht | delayed c hr hf hb hi hd ht | reject w rest r hr hf hb hc hd ht =>
    subst ht
    exact hP.of_bus hP.1 rfl
  | resumeQueue q hr hf hb hi hq ht =>
    have hpast : s.pastResetSignal.Throughout Bus.Mirrors := hP.of_bus hP.1 rfl
    exact hpast.takePayload ht
  | resumeCommand c t₀ d hr hf hb hi hdn he hdr ht =>
    subst ht
    have hthen := hP.2
    rw [State.boundary_some hi] at he hthen
    exact hdr.conclude_mirrors he (.of_boundary rfl hthen) hP.1
  | run w rest i t₀ d hr hf hb hc hd he hdr ht =>
    subst ht
    exact hdr.conclude_mirrors (a := s.pastResetSignal.accept rest) he (hP.of_bus hP.1 rfl) hP.1

/-! ## Samples and waits (R44, R66) -/

theorem KeepsDelays.left {t : Timing} {e₁ e₂ : List Event} (h : KeepsDelays t (e₁ ++ e₂)) : KeepsDelays t e₁ :=
  fun n hn => h n (List.mem_append_left e₂ hn)

/-- A property of the bus side that events which wait half-periods and poll waits only, and sample released lines only,
keep as they are played. -/
structure KeptByTraffic (t : Timing) (P : Bus → Prop) : Prop where
  reset : ∀ s : State, P s.resetNow.bus
  play : ∀ b evs, P b → KeepsDelays t evs → (∀ md mc, samplesReleased md mc evs) → P (b.play evs)

/-- What a command's events keep holds as it ends, waits or is abandoned. -/
theorem Running.conclude_throughout {P : Bus → Prop} {i : Instr} {start : Bus} {s t : State} {done evs : List Event}
    {d : Drive} (hrun : Running i start s t done evs) (hdr : DriveCase evs s d) (hkept : KeptByTraffic s.timing P)
    (hstart : P start) : (conclude i start t d).Throughout P := by
  cases hdr with
  | ended =>
    have ht : P t.bus := hrun.emits.play ▸ hkept.play start _ hstart hrun.delays hrun.released
    exact .of_boundary ((exec_samePorts hrun.exec).inFlight.trans hrun.inFlight) ht
  | waiting before n after hev =>
    have hsplit : done ++ evs = (done ++ (before ++ [.wait n])) ++ after := by simp [hev]
    have hdelays := hrun.delays
    have hreleased := hrun.released
    rw [hsplit] at hdelays hreleased
    refine conclude_waiting_throughout ?_ hstart
    change P (s.bus.play (before ++ [.wait n]))
    rw [hrun.bus, ← Bus.play_append]
    exact hkept.play start _ hstart hdelays.left fun md mc => (samplesReleased_append.1 (hreleased md mc)).1
  | reset => exact .of_boundary rfl (hkept.reset _)

/-- A property of the bus side that a command's events keep is kept by every step of a well-formed state. -/
theorem State.Wf.step_throughout {P : Bus → Prop} {s t : State} (w : s.Wf) (hkept : KeptByTraffic s.timing P)
    (hP : s.Throughout P) (h : step s = .next t) : t.Throughout P := by
  cases w.step_cases h with
  | reset hr ht => subst ht; exact .of_boundary rfl (hkept.reset _)
  | wait hr hw ht | delayed c hr hf hb hi hd ht | reject w rest r hr hf hb hc hd ht =>
    subst ht
    exact hP.of_bus hP.1 rfl
  | resumeQueue q hr hf hb hi hq ht =>
    have hpast : s.pastResetSignal.Throughout P := hP.of_bus hP.1 rfl
    exact hpast.takePayload ht
  | run w' rest i t₀ d evs hr hb hc hd hrun hdr ht => subst ht; exact hrun.conclude_throughout hdr hkept hP.1
  | resume c t₀ d done evs hr hb hi hne hrun hdr ht =>
    subst ht
    have hthen := hP.2
    rw [State.boundary_some hi] at hthen
    exact hrun.conclude_throughout hdr hkept hthen

/-- Settles O20: a command's events sample only released lines from whatever modes they start in. -/
theorem stepSamplesOnlyReleasedLines : Obligations.StepSamplesOnlyReleasedLines := by
  intro s t w
  refine w.step_throughout ⟨fun _ => trivial, ?_⟩
  intro b evs hb _ hreleased
  unfold Bus.SamplesReleased
  rw [Bus.play_trace, samplesReleased_append]
  exact ⟨hb, hreleased _ _⟩

/-- Settles O22: a command's waits are half-periods, which are at least 1, and the poll's. -/
theorem stepKeepsWaitsPositive : Obligations.StepKeepsWaitsPositive := by
  intro s t w
  refine w.step_throughout ⟨fun _ n hn => absurd hn (by simp), ?_⟩
  intro b evs hb hdelays _
  rw [Bus.play_trace]
  exact waitsPositive_append hb (hdelays.positive w.hp_pos)

/-- Settles O23: the start state has set no mode and has no event, and no command is in progress. -/
theorem startStateMeetsTheBusInvariants : Obligations.StartStateMeetsTheBusInvariants := by
  have hlegal : State.reset.LinesLegal := ⟨by decide, by decide, by decide, by decide⟩
  have hwaits : waitsPositive State.reset.bus.trace := fun n hn => absurd hn List.not_mem_nil
  exact ⟨.of_boundary rfl ⟨rfl, rfl⟩, .of_boundary rfl trivial, hlegal, hlegal, .of_boundary rfl hwaits⟩

/-! ## The lines (R22, R26, R27) -/

/-- Events that set no line to neutral leave a line that is released or driven low so. -/
theorem NeverNeutral.modeAfter_held {evs : List Event} (h : NeverNeutral evs) (l : Line) {m : PinMode}
    (hm : m = .inputPullup ∨ m = .outputLow) :
    modeAfter l m evs = .inputPullup ∨ modeAfter l m evs = .outputLow := by
  induction evs generalizing m with
  | nil => exact hm
  | cons e es ih =>
    have hes : NeverNeutral es := fun l hl => h l (List.mem_cons_of_mem e hl)
    cases e with
    | wait n => exact ih hes hm
    | sample l' lvl => exact ih hes hm
    | mode l' d =>
      refine ih hes ?_
      split
      · cases d with
        | input => exact absurd (List.mem_cons_self ..) (h l')
        | inputPullup => exact .inl rfl
        | outputLow => exact .inr rfl
      · exact hm

theorem State.resetNow_linesLegal (s : State) : s.resetNow.LinesLegal :=
  ⟨by simp, fun _ => ⟨rfl, rfl, rfl⟩, by simp, by simp⟩

/-- A command that ends leaves the lines legal. -/
theorem exec_linesLegal {i : Instr} {s t : State} (hl : s.LinesLegal) (h : exec i s = .next t) : t.LinesLegal := by
  cases exec_cases h with
  | configure sda scl hne =>
    exact ⟨fun _ => rfl, fun hp => absurd hp (by simp), fun _ => .inl rfl, fun _ => .inl rfl⟩
  | release =>
    refine ⟨by simp, fun hp => ?_, by simp, by simp⟩
    have hp' : s.pinsBound = false := hp
    simpa [hp'] using hl.unbound_unset hp'
  | onBus i b r hi hc hq hw hh =>
    have hbound := hl.configured_bound hc
    exact ⟨fun _ => hbound, fun hp => absurd (hbound.symm.trans hp) (by simp), fun _ => hh.1, fun _ => hh.2⟩
  | requestNack addr qty sendStop b hc hw hh | requestAck addr qty sendStop b bytes hc hlen hw hh =>
    have hbound := hl.configured_bound hc
    exact ⟨fun _ => hbound, fun hp => absurd (hbound.symm.trans hp) (by simp), fun _ => hh.1, fun _ => hh.2⟩
  | queueBytes n t ht => rw [takePayload_frame ht]; exact { hl with }
  | pinConflict | notConfigured | clockKept | clockSet | openTx | queued | queueFull | read | readEmpty | peek
  | peekEmpty | available => exact { hl with }

/-- Binding pins, all a command has written of what the lines' legality depends on by its first event, keeps it. -/
theorem begun_linesLegal {i : Instr} {s : State} (hl : s.LinesLegal) : (begun i s).LinesLegal := by
  cases i with
  | configure sda scl =>
    exact { hl with configured_bound := fun _ => rfl, unbound_unset := fun hp => absurd hp (by simp [begun]) }
  | release | setClock | start | stop | writeBit | readBit | writeByte | readByte | openTx | queueByte | queueBytes
  | closeTx | request | read | peek | available | probe => exact { hl with }

/-- RELEASE has no delay (R102). -/
theorem Running.ne_release {i : Instr} {start : Bus} {s t : State} {done evs : List Event} {n : Nat}
    (hrun : Running i start s t done evs) (hwait : Event.wait n ∈ done ++ evs) : i ≠ .release := by
  rintro rfl
  have htrace := hrun.emits.trace
  obtain rfl := Host.Outcome.next.inj ((exec_release _).symm.trans hrun.exec)
  cases hp : s.pinsBound with
  | false =>
    have hevs : done ++ evs = [] := by simpa [hp] using htrace
    simp [hevs] at hwait
  | true =>
    have hevs : done ++ evs = [.mode .sda .input, .mode .scl .input] := by
      simpa [hp, (relinquish_emits start).trace] using htrace.symm
    simp [hevs] at hwait

/-- A command that waits for a delay has set no line to neutral; unless it is CONFIGURE, it found its pins bound. -/
theorem Running.waiting_linesLegal {i : Instr} {start : Bus} {s t u : State} {done before after : List Event} {n : Nat}
    (hrun : Running i start s t done (before ++ .wait n :: after)) (hl : (s.withBus start).LinesLegal)
    (hu : u.bus = s.bus.play (before ++ [.wait n])) (hc : u.configured = s.configured)
    (hp : u.pinsBound = s.pinsBound) : (begun i u).LinesLegal := by
  have hneutral : NeverNeutral (done ++ (before ++ [.wait n])) := by
    intro l hmem
    refine hrun.neutral (hrun.ne_release (n := n) (by simp)) l ?_
    simp only [List.mem_append, List.mem_cons, List.not_mem_nil, or_false] at hmem ⊢
    tauto
  obtain ⟨hsda, hscl⟩ := start.play_modes (done ++ (before ++ [.wait n]))
  rw [Bus.play_append, ← hrun.bus, ← hu] at hsda hscl
  have hheld_sda : s.configured = true → u.bus.sdaMode = .inputPullup ∨ u.bus.sdaMode = .outputLow := fun h =>
    hsda ▸ hneutral.modeAfter_held .sda (hl.configured_sda h)
  have hheld_scl : s.configured = true → u.bus.sclMode = .inputPullup ∨ u.bus.sclMode = .outputLow := fun h =>
    hscl ▸ hneutral.modeAfter_held .scl (hl.configured_scl h)
  have hbound (hi : ∀ sda scl, i ≠ .configure sda scl) : s.pinsBound ≠ false := by
    intro hunbound
    have htrace := ((exec_linesLegal hl hrun.exec).unbound_unset ((pinsBound_of_exec hrun.exec hi).trans hunbound)).2.2
    simp [hrun.emits.trace] at htrace
  cases i with
  | configure sda scl =>
    exact ⟨fun _ => rfl, fun h => absurd h (by simp [begun]), hc ▸ hheld_sda, hc ▸ hheld_scl⟩
  | release | setClock | start | stop | writeBit | readBit | writeByte | readByte | openTx | queueByte | queueBytes
  | closeTx | request | read | peek | available | probe =>
    exact ⟨hc ▸ hp ▸ hl.configured_bound, fun h => absurd (hp.symm.trans h) (hbound (by simp)), hc ▸ hheld_sda,
      hc ▸ hheld_scl⟩

/-- The lines' legality depends on the bus side, on `configured` and on `pins_bound` alone. -/
theorem State.LinesLegal.of_eq {s t : State} (hl : s.LinesLegal) (hc : t.configured = s.configured)
    (hp : t.pinsBound = s.pinsBound) (hb : t.bus = s.bus) : t.LinesLegal := by
  obtain ⟨h₁, h₂, h₃, h₄⟩ := hl
  rw [← hc, ← hp] at h₁
  rw [← hp, ← hb] at h₂
  rw [← hc, ← hb] at h₃ h₄
  exact ⟨h₁, h₂, h₃, h₄⟩

theorem Running.conclude_linesLegal {i : Instr} {start : Bus} {s t : State} {done evs : List Event} {d : Drive}
    (hrun : Running i start s t done evs) (hdr : DriveCase evs s d) (hl : (s.withBus start).LinesLegal) :
    (conclude i start t d).LinesLegal ∧ (conclude i start t d).boundary.LinesLegal := by
  cases hdr with
  | ended =>
    have hlt := exec_linesLegal hl hrun.exec
    have hi : t.inFlight = none := (exec_samePorts hrun.exec).inFlight.trans hrun.inFlight
    rw [State.boundary_none (by exact hi)]
    exact ⟨{ hlt with }, { hlt with }⟩
  | reset =>
    rw [State.boundary_none (by rfl)]
    exact ⟨State.resetNow_linesLegal _, State.resetNow_linesLegal _⟩
  | waiting before n after hev =>
    subst hev
    rw [conclude_waiting_boundary]
    refine ⟨State.LinesLegal.of_eq (s := begun i _) ?_ rfl rfl rfl, begun_linesLegal { hl with }⟩
    exact hrun.waiting_linesLegal hl rfl rfl rfl

/-- Settles O21: a command in progress leaves the lines legal as it ends, waits or is abandoned, and any other step that
is no reset leaves what they depend on. -/
theorem stepKeepsTheLinesLegal : Obligations.StepKeepsTheLinesLegal := by
  intro s t w hl hlb h
  have hkeeps (hb : t.bus = s.bus) (hc : t.configured = s.configured) (hp : t.pinsBound = s.pinsBound)
      (hi : t.inFlight = s.inFlight) : t.LinesLegal ∧ t.boundary.LinesLegal := by
    refine ⟨hl.of_eq hc hp hb, ?_⟩
    cases hs : s.inFlight with
    | none => rw [State.boundary_none (hi.trans hs)]; exact hl.of_eq hc hp hb
    | some c =>
      rw [State.boundary_some hs] at hlb
      rw [State.boundary_some (hi.trans hs)]
      exact hlb.of_eq hc hp rfl
  cases w.step_cases h with
  | reset hr ht =>
    subst ht
    rw [State.boundary_none (by rfl)]
    exact ⟨State.resetNow_linesLegal _, State.resetNow_linesLegal _⟩
  | wait hr hw ht | delayed c hr hf hb hi hd ht | reject w rest r hr hf hb hc hd ht =>
    subst ht; exact hkeeps rfl rfl rfl rfl
  | resumeQueue q hr hf hb hi hq ht =>
    have hfr := takePayload_frame ht
    exact hkeeps (by rw [hfr]; rfl) (by rw [hfr]; rfl) (by rw [hfr]; rfl) (by rw [hfr]; rfl)
  | run w' rest i t₀ d evs hr hb hc hd hrun hdr ht => subst ht; exact hrun.conclude_linesLegal hdr { hl with }
  | resume c t₀ d done evs hr hb hi hne hrun hdr ht =>
    subst ht
    rw [State.boundary_some hi] at hlb
    exact hrun.conclude_linesLegal hdr { hlb with }

/-! ## The observation (R8, R44, R48) -/

/-- Events are appended to the trace and at most one result to the results, and no trace is ended. -/
def State.AppendsTo (s t : State) : Prop :=
  ∃ evs rs, t.bus.trace = s.bus.trace ++ evs ∧ t.results = s.results ++ rs ∧ rs.length ≤ 1 ∧ t.history = s.history

/-- Without an event and without a result. -/
theorem State.AppendsTo.of_eq {s t : State} (hb : t.bus = s.bus) (hr : t.results = s.results)
    (hh : t.history = s.history) : s.AppendsTo t := ⟨[], [], by simp [hb], by simp [hr], by simp, hh⟩

theorem takePayload_appendsTo {offered : List Byte} {n acc : Nat} {s t : State}
    (h : takePayload offered n acc s = .ok t) : s.AppendsTo t := by
  rcases Nat.lt_or_ge offered.length n with hlt | hge
  · rw [takePayload_short hlt] at h
    cases h
    exact .of_eq rfl rfl rfl
  · rw [takePayload_enough hge] at h
    cases h
    exact ⟨[], [_], by simp, rfl, Nat.le_refl 1, rfl⟩

theorem results_of_exec {i : Instr} {s t : State} (h : exec i s = .next t) :
    ∃ rs, t.results = s.results ++ rs ∧ rs.length ≤ 1 := by
  rcases exec_ends h with ⟨-, -, r, hr⟩ | ⟨-, -, hr⟩ | ⟨-, -, hr, -⟩
  · exact ⟨[r], hr, Nat.le_refl 1⟩
  · exact ⟨[], by simp [hr], Nat.zero_le 1⟩
  · exact ⟨[], by simp [hr], Nat.zero_le 1⟩

/-- A command in progress that no reset abandons appends the events it comes to, and its result if it ends. -/
theorem Running.conclude_appendsTo {i : Instr} {start : Bus} {s t : State} {done evs : List Event} {d : Drive}
    (hrun : Running i start s t done evs) (hdr : DriveCase evs s d) (hr : s.noReset) :
    s.AppendsTo (conclude i start t d) := by
  cases d with
  | reset u => exact absurd rfl (hdr.ne_reset hr u)
  | ended u =>
    obtain ⟨rs, hrs, hlen⟩ := results_of_exec hrun.exec
    refine ⟨evs, rs, ?_, hrs, hlen, (exec_samePorts hrun.exec).history⟩
    change t.bus.trace = s.bus.trace ++ evs
    rw [hrun.emits.trace, hrun.bus, Bus.play_trace, List.append_assoc]
  | waiting u =>
    cases hdr with
    | waiting before n after hev =>
      refine ⟨before ++ [.wait n], [], ?_, ?_, Nat.zero_le 1, ?_⟩
      all_goals rw [conclude, begun_frame]
      · exact s.bus.play_trace _
      · exact (List.append_nil _).symm

/-- Settles O24: a step that is no reset takes payload, or takes a command further, or leaves the observation. -/
theorem stepOnlyAppendsToTheObservation : Obligations.StepOnlyAppendsToTheObservation := by
  intro s t w hr h
  have hrest : ∀ b ∈ s.resetIn.tail, b = false := fun b hb => hr b (List.mem_of_mem_tail hb)
  change s.AppendsTo t
  cases w.step_cases h with
  | reset ha => exact absurd ((hr.headD_drop 0).symm.trans ha) (by decide)
  | wait _ hw ht | delayed c _ hf hb hi hd ht | reject w' rest r _ hf hb hc hd ht => subst ht; exact .of_eq rfl rfl rfl
  | resumeQueue q _ hf hb hi hq ht =>
    have happ := takePayload_appendsTo ht
    exact happ
  | run w' rest i t₀ d evs _ hb hc hd hrun hdr ht => subst ht; exact hrun.conclude_appendsTo hdr hrest
  | resume c t₀ d done evs _ hb hi hne hrun hdr ht => subst ht; exact hrun.conclude_appendsTo hdr hrest

end Sys2Proof.Machine
end

section
/-! The statements about whole transactions: payload in parts (R215), how often a command releases SCL and how long it
waits at least (spec/70_reset_and_hazards.md R241, R243), and the bytes from end to end (spec/20_memory.md R62). -/

namespace Sys2Proof.Machine

/-! ## Payload in parts (R49, R173, R215) -/

/-- Payload offered in two parts is taken as if offered at once. -/
theorem takePayload_append {p : List Byte} (q : List Byte) {n : Nat} (acc : Nat) (s : State) (h : p.length ≤ n) :
    takePayload (p ++ q) n acc s =
      takePayload q (n - p.length) (acc + s.room p.length)
        { s with txBuf := s.txBuf.writeAll s.txLen (p.take (s.room p.length)),
                 txLen := s.txLen + s.room p.length } := by
  induction p generalizing n acc s with
  | nil => simp [State.room, Memory.writeAll]
  | cons b rest ih =>
    obtain ⟨n, rfl⟩ : ∃ k, n = k + 1 := ⟨n - 1, by simp at h; omega⟩
    have h' : rest.length ≤ n := by simpa using h
    by_cases hr : s.txLen < s.params.txCapacity
    · have hroom : s.room (rest.length + 1) =
          State.room rest.length { s with txBuf := s.txBuf.write s.txLen b, txLen := s.txLen + 1 } + 1 := by
        simp only [State.room]; omega
      simp only [List.cons_append, takePayload, appendByte_room hr, ih _ _ h', List.length_cons, hroom,
        List.take_succ_cons, Memory.writeAll, Nat.add_sub_add_right]
      simp only [Nat.add_assoc, Nat.add_comm 1]
    · have hroom : ∀ m, s.room m = 0 := fun m => by simp only [State.room]; omega
      simp only [List.cons_append, takePayload, appendByte_full hr, ih _ _ h', List.length_cons, hroom,
        Nat.add_sub_add_right, List.take_zero]

/-- How payload is taken depends on neither the payload port's own list nor how the command stood. -/
theorem takePayload_handshake (offered l : List Byte) (n acc : Nat) (q : Option QueueProgress) (b : Bool) (s : State) :
    takePayload offered n acc { s with payloadIn := l, queue := q, busy := b } = takePayload offered n acc s := by
  rcases Nat.lt_or_ge offered.length n with hlt | hge
  · rw [takePayload_short hlt, takePayload_short hlt]; rfl
  · rw [takePayload_enough hge, takePayload_enough hge]; rfl

/-- Settles O47: what waits is where taking the first part has come to, and taking the second part from there is taking
both at once. -/
theorem waitingQueueBytesResumesAsIfNeverInterrupted : Obligations.WaitingQueueBytesResumesAsIfNeverInterrupted := by
  intro s t n p q hf hi hlt h
  have ht : exec (.queueBytes n) { s with payloadIn := p } =
      outcomeOf (takePayload p n.toNat 0 { s with payloadIn := p }) := rfl
  rw [ht, takePayload_short hlt] at h
  cases h
  refine ⟨rfl, rfl, rfl, ?_⟩
  refine (step_of_queue (q := ⟨n.toNat - p.length, 0 + s.room p.length⟩) (by rfl) (by exact hf) (by rfl) (by exact hi)
    (by rfl)).trans ?_
  change _ = outcomeOf (takePayload (p ++ q) n.toNat 0 { s with payloadIn := p ++ q, resetIn := [] })
  rw [takePayload_append q 0 _ hlt.le]
  exact congrArg outcomeOf ((takePayload_handshake ..).trans (takePayload_handshake ..).symm)

/-! ## Releases of SCL and least waits (R241, R243) -/

section Counts

variable {t : Timing} {addr : Addr} {bytes : List Byte} {sendStop : Bool} {evs : List Event}

theorem IsStopIf.traffic (h : IsStopIf t sendStop evs) :
    Traffic t evs (if sendStop then 1 else 0) (if sendStop then 4 else 0) := by
  cases sendStop with
  | false => obtain rfl : evs = [] := h; exact .nil t
  | true => exact IsStop.traffic h

/-- CLOSE_TX sends `k` of the queued bytes, all of them if it reports success. -/
theorem IsCloseTx.traffic {st : Status} (h : IsCloseTx t addr bytes sendStop st evs) :
    ∃ k, k ≤ bytes.length ∧ (st = .success → k = bytes.length) ∧
      Traffic t evs (10 + 9 * k + if sendStop then 1 else 0) (21 + 18 * k + if sendStop then 4 else 0) := by
  rcases h with ⟨e₁, e₂, haddr, hstop, rfl, rfl⟩ | ⟨e₁, e₂, e₃, ok, haddr, hdata, hstop, rfl, rfl⟩
  · exact ⟨0, Nat.zero_le _, by simp, haddr.traffic.append hstop.traffic⟩
  · obtain ⟨k, hle, hall, hk⟩ := hdata.traffic
    exact ⟨k, hle, fun hs => hall (by cases ok <;> simp_all), (haddr.traffic.append hk).append hstop.traffic⟩

theorem IsRequest.traffic (h : IsRequest t addr bytes sendStop evs) :
    Traffic t evs (10 + 9 * bytes.length + if sendStop then 1 else 0)
      (21 + 18 * bytes.length + if sendStop then 4 else 0) := by
  obtain ⟨e₁, e₂, e₃, haddr, hdata, hstop, rfl⟩ := h
  exact (haddr.traffic.append hdata.traffic).append hstop.traffic

theorem IsRequestNack.traffic (h : IsRequestNack t addr sendStop evs) :
    Traffic t evs (10 + if sendStop then 1 else 0) (21 + if sendStop then 4 else 0) := by
  obtain ⟨e₁, e₂, haddr, hstop, rfl⟩ := h
  exact haddr.traffic.append hstop.traffic

theorem IsProbe.traffic {ack : Bool} (h : IsProbe t addr ack evs) : Traffic t evs 11 25 := by
  obtain ⟨e₁, e₂, haddr, hstop, rfl⟩ := h
  exact haddr.traffic.append hstop.traffic

end Counts

/-- R181: a PROBE changes the bus side alone, and its result is the acknowledge its traffic shows. -/
theorem exec_probe_spec {s : State} (hc : s.configured = true) (addr : Addr) :
    ∃ b evs ack, exec (.probe addr) s = .next ((s.withBus b).ret (boolResult ack)) ∧
      IsProbe s.timing addr ack evs ∧ s.bus.Emits b evs := by
  obtain ⟨b, evs, ack, heq, h, he, -⟩ := probeReportsTheAcknowledge.2.2 s addr hc
  exact ⟨b, evs, ack, heq, h, he⟩

/-- R30: `tx_len` bytes are queued. -/
theorem State.length_queued (s : State) : s.queued.length = s.txLen := by simp [State.queued]

/-- Settles O54: the releases are those of the address, of each byte and of the stop. -/
theorem transactionsReleaseSclABoundedNumberOfTimes : Obligations.TransactionsReleaseSclABoundedNumberOfTimes := by
  intro s hc
  refine ⟨?_, ?_, ?_⟩
  · intro sendStop hlen
    obtain ⟨b, evs, st, heq, h, he⟩ := exec_closeTx_spec hc hlen sendStop
    obtain ⟨k, hle, -, hk⟩ := h.traffic
    refine ⟨_, evs, heq, he.trace, ?_⟩
    rw [s.length_queued] at hle
    rw [hk.releases]
    split <;> omega
  · intro addr qty sendStop
    obtain ⟨b, evs, he, ⟨heq, h⟩ | ⟨bytes, hlen, heq, h⟩⟩ := exec_request_spec hc addr qty sendStop
    · refine ⟨_, evs, heq, he.trace, ?_⟩
      rw [h.traffic.releases]
      split <;> omega
    · refine ⟨_, evs, heq, he.trace, ?_⟩
      have hle : clampQuantity qty s ≤ s.params.rxCapacity := Nat.min_le_right ..
      rw [h.traffic.releases, hlen]
      split <;> omega
  · intro addr
    obtain ⟨b, evs, ack, heq, h, he⟩ := exec_probe_spec hc addr
    exact ⟨_, evs, heq, he.trace, h.traffic.releases⟩

/-- The events appended to a trace are those of the traffic that was emitted. -/
theorem Bus.Emits.eq_of_trace {b b' : Bus} {e evs : List Event} (he : b.Emits b' e) (h : b'.trace = b.trace ++ evs) :
    evs = e := List.append_cancel_left (h.symm.trans he.trace)

/-- A command whose meaning has traffic that waits at least `w` half-periods waits that long. -/
theorem waits_of_traffic {i : Instr} {s t u : State} {b : Bus} {e evs : List Event} {k w : Nat}
    (h : t.bus.trace = s.bus.trace ++ evs) (ht : exec i s = .next t) (heq : exec i s = .next u) (hu : u.bus = b)
    (he : s.bus.Emits b e) (htr : Traffic s.timing e k w) : w * s.hp.toNat ≤ waitTotal evs := by
  obtain rfl := Host.Outcome.next.inj (ht.symm.trans heq)
  subst hu
  rw [he.eq_of_trace h]
  exact htr.total

section Waits

variable {s t : State} {evs : List Event}

/-- RELEASE sets modes at most. -/
theorem waitTotal_of_release (h : t.bus.trace = s.bus.trace ++ evs) (ht : exec .release s = .next t) :
    waitTotal evs = 0 := by
  rw [exec_release] at ht
  cases ht
  cases hp : s.pinsBound with
  | false =>
    simp only [State.ret_bus, hp, Bool.false_eq_true, if_false] at h
    rw [(Bus.Emits.refl s.bus).eq_of_trace h]
    rfl
  | true =>
    simp only [State.ret_bus, hp, if_true] at h
    rw [(relinquish_emits s.bus).eq_of_trace h]
    rfl

theorem waitTotal_of_not_busCommand {i : Instr} (h : t.bus.trace = s.bus.trace ++ evs) (hi : isBusCommand i = false)
    (ht : exec i s = .next t) : waitTotal evs = 0 := by
  rw [bus_of_exec hi ht] at h
  rw [(Bus.Emits.refl s.bus).eq_of_trace h]
  rfl

/-- A CLOSE_TX that reports success has sent every queued byte. -/
theorem waits_of_closeTx {sendStop : Bool} (h : t.bus.trace = s.bus.trace ++ evs) (hc : s.configured = true)
    (ht : exec (.closeTx sendStop) s = .next t) (hres : t.results = s.results ++ [0#32])
    (hlen : s.txLen ≤ s.params.txCapacity) :
    ((if sendStop then 25 else 21) + 18 * s.txLen) * s.hp.toNat ≤ waitTotal evs := by
  obtain ⟨b, e, st, heq, hs, he⟩ := exec_closeTx_spec hc hlen sendStop
  obtain ⟨k, -, hall, hk⟩ := hs.traffic
  have hw := waits_of_traffic h ht heq rfl he hk
  have hst : st = .success := by
    obtain rfl := Host.Outcome.next.inj (ht.symm.trans heq)
    have hr : statusResult st = 0#32 := by simpa using hres
    rcases hs.status_cases with ⟨hst, -⟩ | ⟨-, hst⟩ | ⟨-, hst⟩
    · exact hst
    · exact absurd (hst.symm.trans hr) (by decide)
    · exact absurd (hst.symm.trans hr) (by decide)
  rw [hall hst, s.length_queued] at hw
  cases sendStop with
  | false => simpa using hw
  | true => simpa [Nat.add_right_comm] using hw

/-- A REQUEST has received `rx_len` bytes, none if its address was not acknowledged. -/
theorem waits_of_request {addr : Addr} {qty : Word} {sendStop : Bool} (h : t.bus.trace = s.bus.trace ++ evs)
    (hc : s.configured = true) (ht : exec (.request addr qty sendStop) s = .next t) :
    ((if sendStop then 25 else 21) + 18 * t.rxLen) * s.hp.toNat ≤ waitTotal evs := by
  obtain ⟨b, e, he, ⟨heq, hs⟩ | ⟨bytes, hlen, heq, hs⟩⟩ := exec_request_spec hc addr qty sendStop
  · have hw := waits_of_traffic h ht heq rfl he hs.traffic
    obtain rfl := Host.Outcome.next.inj (ht.symm.trans heq)
    cases sendStop <;> simpa using hw
  · have hw := waits_of_traffic h ht heq rfl he hs.traffic
    obtain rfl := Host.Outcome.next.inj (ht.symm.trans heq)
    rw [hlen] at hw
    cases sendStop with
    | false => simpa using hw
    | true => simpa [Nat.add_right_comm] using hw

end Waits

/-- Settles O55: the traffic of each command has its half-periods in it, whatever the bus answers. -/
theorem commandsWaitAtLeastTheirHalfPeriods : Obligations.CommandsWaitAtLeastTheirHalfPeriods := by
  intro s t evs h
  refine ⟨?_, ?_, fun hc => ⟨?_, ?_, ?_, ?_, ?_, ?_, ?_, ?_, ?_⟩⟩
  · intro sda scl hne ht
    rw [exec_configure_of_ne hne] at ht
    cases ht
    rw [(settle_emits s.timing s.bus).eq_of_trace h]
    exact Nat.le_refl _
  · rintro i (rfl | hi) ht
    · exact waitTotal_of_release h ht
    · exact waitTotal_of_not_busCommand h hi ht
  · intro ht
    obtain ⟨e, hs, he⟩ := genStart_spec s.timing s.bus
    exact waits_of_traffic h ht (exec_start_of_configured hc) rfl he hs.traffic
  · intro ht
    obtain ⟨e, hs, he⟩ := genStop_spec s.timing s.bus
    exact waits_of_traffic h ht (exec_stop_of_configured hc) rfl he hs.traffic
  · intro bit ht
    obtain ⟨e, hs, he⟩ := txBit_spec s.timing bit s.bus
    exact waits_of_traffic h ht (exec_writeBit_of_configured hc bit) rfl he hs.traffic
  · intro ht
    obtain ⟨e, hs, he⟩ := rxBit_spec s.timing s.bus
    exact waits_of_traffic h ht (exec_readBit_of_configured hc) rfl he hs.traffic
  · intro v ht
    obtain ⟨e, hs, he⟩ := txByte_spec s.timing v s.bus
    exact waits_of_traffic h ht (exec_writeByte_of_configured hc v) rfl he hs.traffic
  · intro ack ht
    obtain ⟨e, hs, he⟩ := rxByte_spec s.timing ack s.bus
    exact waits_of_traffic h ht (exec_readByte_of_configured hc ack) rfl he hs.traffic
  · intro addr ht
    obtain ⟨b, e, ack, heq, hs, he⟩ := exec_probe_spec hc addr
    exact waits_of_traffic h ht heq rfl he hs.traffic
  · exact fun sendStop ht hres hlen => waits_of_closeTx h hc ht hres hlen
  · exact fun addr qty sendStop ht => waits_of_request h hc ht

/-! ## Bytes from end to end (R62) -/

/-- Bytes written from entry 0 on are read back in their order. -/
theorem Memory.map_read_writeAll {m : Memory} (h : m.wf = true) (vs : List Byte) :
    (List.range vs.length).map (m.writeAll 0 vs).read = vs := by
  apply List.ext_getElem
  · simp
  · intro k hk hk'
    have hread := Memory.read_writeAll_in h (i := 0) hk'
    simpa using hread

/-- R171, R173: after OPEN_TX, the payload bytes QUEUE_BYTES has room for are the bytes queued. -/
theorem exec_queueBytes_of_opened {s : State} {n : Word} (h0 : s.txLen = 0) (hwf : s.txBuf.wf = true)
    (hlen : s.payloadIn.length = n.toNat) :
    ∃ t, exec (.queueBytes n) s = .next t ∧ t.queued = s.payloadIn.take s.params.txCapacity ∧
      t.txLen ≤ s.params.txCapacity ∧ t.results = s.results ++ [BitVec.ofNat 32 (min n.toNat s.params.txCapacity)] ∧
      t = { s with txBuf := t.txBuf, txLen := t.txLen, payloadIn := t.payloadIn, queue := t.queue,
                   results := t.results, busy := t.busy } := by
  have hroom : s.room n.toNat = min n.toNat s.params.txCapacity := by rw [State.room, h0, Nat.sub_zero]
  have htake : s.payloadIn.take (s.room n.toNat) = s.payloadIn.take s.params.txCapacity := by
    rw [hroom, ← hlen, List.take_eq_take_iff]
    omega
  have hcount : (s.payloadIn.take s.params.txCapacity).length = s.room n.toNat := by
    rw [hroom, List.length_take, hlen, Nat.min_comm]
  refine ⟨_, exec_queueBytes_of_offered hlen.ge, ?_, ?_, ?_, rfl⟩
  · simp only [State.queued, State.ret_txLen, State.ret_txBuf, h0, htake, Nat.zero_add]
    rw [← hcount]
    exact Memory.map_read_writeAll hwf _
  · simp only [State.ret_txLen, h0, hroom, Nat.zero_add]
    exact Nat.min_le_right ..
  · rw [← hroom]
    rfl

/-- Settles O56: OPEN_TX empties the buffer, so the bytes QUEUE_BYTES accepts are the ones queued for CLOSE_TX. -/
theorem transmissionSendsTheHostsBytesInOrder : Obligations.TransmissionSendsTheHostsBytesInOrder := by
  intro s addr n sendStop hc hwf hlen
  obtain ⟨s₂, hqueue, hqueued, hle, hres, hfr⟩ :=
    exec_queueBytes_of_opened (s := State.ret 0#32 { s with txAddr := addr, txLen := 0 }) rfl hwf hlen
  obtain ⟨b, evs, st, hclose, h, he⟩ :=
    exec_closeTx_spec (s := s₂) (by rw [hfr]; exact hc) (by rw [hfr]; exact hle) sendStop
  rw [hqueued] at h
  have hbus : s₂.bus = s.bus := by rw [hfr]; rfl
  have haddr : s₂.txAddr = addr := by rw [hfr]; rfl
  have htiming : s₂.timing = s.timing := by rw [hfr]; rfl
  rw [haddr, htiming] at h
  refine ⟨_, s₂, _, evs, st, rfl, hqueue, hclose, h, hbus ▸ he.trace, ?_⟩
  simp [hres]

/-- READs of unread bytes give them in order and leave what is not theirs. -/
theorem readTimes_spec (k : Nat) (s : State) (hk : s.rxCursor + k ≤ s.rxLen) (hcap : s.rxLen ≤ s.params.rxCapacity) :
    ∃ u, readTimes k s = .next u ∧ u.rxCursor = s.rxCursor + k ∧ u.rxLen = s.rxLen ∧
      u.results = s.results ++ (List.range' s.rxCursor k).map fun j => (s.rxBuf.read j).zeroExtend 32 := by
  induction k generalizing s with
  | zero => exact ⟨s, rfl, rfl, rfl, by simp⟩
  | succ k ih =>
    obtain ⟨u, hu, hcursor, hlen, hres⟩ :=
      ih ({ s with rxCursor := s.rxCursor + 1 }.ret (byteResult (s.rxBuf.read s.rxCursor)))
        (by simp only [State.ret_rxCursor, State.ret_rxLen]; omega) hcap
    refine ⟨u, ?_, ?_, hlen, ?_⟩
    · rw [readTimes, exec_read_of_unread (by omega) hcap]
      exact hu
    · rw [hcursor]
      simp only [State.ret_rxCursor]
      omega
    · simpa [List.range'_succ, byteResult] using hres

/-- Settles O57: the bytes taken off the bus are stored from entry 0 on, where the READs find them. -/
theorem readsAfterARequestGiveTheBytesReceived : Obligations.ReadsAfterARequestGiveTheBytesReceived := by
  intro s t addr qty sendStop hc hwf ht hne
  obtain ⟨b, evs, he, ⟨heq, -⟩ | ⟨bytes, hlen, heq, h⟩⟩ := exec_request_spec hc addr qty sendStop
  · obtain rfl := Host.Outcome.next.inj (ht.symm.trans heq)
    exact absurd rfl hne
  · have ht' := Host.Outcome.next.inj (ht.symm.trans heq)
    have hrx : t.rxLen = bytes.length := by rw [ht', hlen]; rfl
    have hcursor : t.rxCursor = 0 := by rw [ht']; rfl
    have hbuf : t.rxBuf = s.rxBuf.writeAll 0 bytes := by rw [ht']; rfl
    have hcap : t.rxLen ≤ t.params.rxCapacity := by rw [ht']; exact Nat.min_le_right ..
    have hbus : t.bus = b := by rw [ht']; rfl
    obtain ⟨u, hu, hend, hkept, hres⟩ := readTimes_spec t.rxLen t (by rw [hcursor, Nat.zero_add]) hcap
    refine ⟨bytes, evs, u, h, hbus ▸ he.trace, hrx.symm, hu, ?_, by rw [hend, hkept, hcursor, Nat.zero_add]⟩
    rw [hres, hcursor, hbuf, hrx, ← List.range_eq_range']
    conv_rhs => rw [← Memory.map_read_writeAll hwf bytes, List.map_map]
    rfl

end Sys2Proof.Machine
end

section
/-! The statements about a command from its word to its end: with nothing in its way, with a delay that is not done,
with a reset, and with every delay waited for (spec/10_state.md R45, R47, spec/70_reset_and_hazards.md R230). -/

namespace Sys2Proof.Machine

/-! ## With nothing in its way (R21, R45) -/

/-- The state in which an accepted word's command runs, with the inputs it has not looked at. -/
theorem State.accept_withInputs (s : State) (rest : List CmdWord) (d r : List Bool) :
    (s.pastResetSignal.accept rest).withInputs d r =
      { s with resetIn := r, delayIn := d, cmdIn := rest, busy := true } :=
  rfl

/-- With no reset to come and every delay done when the block looks, a command in progress ends as its meaning says. -/
theorem DriveCase.ended_of_inputs {evs : List Event} {s : State} {d : Drive} (h : DriveCase evs s d) (hr : s.noReset)
    (hd : s.delaysDone) :
    d = .ended { s with bus := s.bus.play evs, resetIn := s.resetIn.drop (evs.length + 1),
                        delayIn := s.delayIn.drop (delaysOf evs) } := by
  cases h with
  | ended => rfl
  | reset before after hev _ _ ha => exact absurd ha (by rw [hr.headD_drop]; decide)
  | waiting before n after hev _ _ hw =>
    have hdone : (s.delayIn.drop (delaysOf before)).headD true = true :=
      headD_of_take (Nat.le_refl 1) fun b hb => hd b (List.mem_of_mem_drop (List.mem_of_mem_take hb))
    exact absurd (hdone.symm.trans hw) (by decide)

/-- With no reset to come and every delay done, a command that begins does what its meaning says. -/
theorem follow_of_inputs {i : Instr} {a t : State} (he : exec i a = .next t) (hr : a.noReset) (hd : a.delaysDone) :
    ∃ m k, follow i a a = .next (t.withInputs (a.delayIn.drop k) (a.resetIn.drop m)) := by
  obtain ⟨evs, hem, -⟩ := (exec_cases he).work
  refine ⟨evs.length + 1, delaysOf evs, ?_⟩
  rw [follow_eq he hem.trace, (drive_cases evs a).ended_of_inputs hr hd]
  rfl

/-- The inputs a command has looked at, after the sampling at the start of the step. -/
theorem exec_accept {i : Instr} {s t : State} {rest : List CmdWord}
    (he : exec i (s.pastResetSignal.accept rest) = .next t) (m k : Nat) :
    exec i { s with resetIn := s.resetIn.drop (1 + m), delayIn := s.delayIn.drop k, cmdIn := rest, busy := true } =
      .next (t.withInputs (s.delayIn.drop k) (s.resetIn.tail.drop m)) := by
  have hlooks : s.resetIn.drop (1 + m) = s.resetIn.tail.drop m := by rw [← List.drop_drop, List.drop_one]
  rw [hlooks, ← State.accept_withInputs, exec_withInputs, he]
  rfl

/-- Settles O7: the word is accepted, and its command's meaning is run with nothing in its way; where the meaning stops,
so does the step. -/
theorem stepRunsTheOfferedCommand : Obligations.StepRunsTheOfferedCommand := by
  intro s w rest i hr hd hb hf hc hw
  rw [step_of_command (hr.headD_drop 0) hb hf hc hw]
  have hself : s.pastResetSignal.accept rest =
      { s with resetIn := s.resetIn.drop 1, delayIn := s.delayIn.drop 0, cmdIn := rest, busy := true } := by
    rw [List.drop_one]; rfl
  cases he : exec i (s.pastResetSignal.accept rest) with
  | fault f => exact ⟨1, 0, by rw [← hself, he, follow, he]⟩
  | refused r => exact ⟨1, 0, by rw [← hself, he, follow, he]⟩
  | next t =>
    obtain ⟨m, k, h⟩ := follow_of_inputs he (fun b hb => hr b (List.mem_of_mem_tail hb)) hd
    exact ⟨1 + m, k, h.trans (exec_accept he m k).symm⟩

theorem decode_of_decodeTableWord {nbits w : Nat} {i : Instr} (h : decodeTableWord nbits w = some i) :
    decode (BitVec.ofNat 64 w) = .command i := by
  unfold decodeTableWord at h
  split at h
  · split at h
    · next hdec => rw [hdec, Option.some.inj h]
    · cases h
  · cases h

/-- Settles O8: the offer leaves no reset and no delay to come, so the step is as above, with nothing to drop. -/
theorem offeredTableWordIsRunNext : Obligations.OfferedTableWordIsRunNext := by
  intro s nbits w i hb hf _ hw
  have hr : (s.withFetchWord nbits w).noReset := fun b hb => absurd hb List.not_mem_nil
  have hd : (s.withFetchWord nbits w).delaysDone := fun b hb => absurd hb List.not_mem_nil
  obtain ⟨m, k, h⟩ := stepRunsTheOfferedCommand _ _ s.cmdIn i hr hd hb hf rfl (decode_of_decodeTableWord hw)
  simpa [State.withFetchWord, State.offer] using h

/-! ## A delay that is not done (R47) -/

/-- A delay that is not done keeps a command waiting, with the events up to it performed. -/
theorem drive_waits {before after : List Event} {n : Nat} {s : State} {ds : List Bool} (hr : s.noReset)
    (hd : s.delayIn = List.replicate (delaysOf before) true ++ false :: ds) :
    drive (before ++ .wait n :: after) s = .waiting { s with
      bus := s.bus.play (before ++ [.wait n]), resetIn := s.resetIn.drop (before.length + 1), delayIn := ds,
      delay := some (BitVec.ofNat 32 n) } := by
  have hdone : ∀ b ∈ s.delayIn.take (delaysOf before), b = true := by
    rw [hd, List.take_left' (List.length_replicate ..)]
    exact fun b hb => List.eq_of_mem_replicate hb
  have hleft : s.delayIn.drop (delaysOf before) = false :: ds := by
    rw [hd, List.drop_left' (List.length_replicate ..)]
  rw [drive_through before _ s (fun b hb => hr b (List.mem_of_mem_take hb)) hdone, hleft, drive]
  have hlow : ¬ (s.resetIn.drop before.length).headD false = true := by rw [hr.headD_drop]; decide
  rw [if_neg (by exact hlow)]
  simp [State.outstanding, State.delayDone, State.perform_eq, delaysOf, Bus.play_append]

/-- R38: every delay of a command fits the 32 bits of `delay_us`. -/
theorem toNat_delay {i : Instr} {s t : State} {before after : List Event} {n : Nat} (he : exec i s = .next t)
    (ht : t.bus.trace = s.bus.trace ++ (before ++ .wait n :: after)) : (BitVec.ofNat 32 n).toNat = n := by
  obtain ⟨evs, hem, hdelays, -⟩ := (exec_cases he).work
  have hn : n = s.timing.hp ∨ n = 1 := hdelays n (by rw [← hem.eq_of_trace ht]; simp)
  have hlt : n < 2 ^ 32 := by
    rcases hn with rfl | rfl
    · exact s.hp.isLt
    · decide
  exact Nat.mod_eq_of_lt hlt

/-- Settles O59: the command begins and comes to its delay; a step of a block that waits for one looks at
`delay_done`. -/
theorem delayPortHoldsTheCommandUntilDone : Obligations.DelayPortHoldsTheCommandUntilDone := by
  refine ⟨?_, ?_⟩
  · intro s t w rest i before n after ds hb hf hc hw hr he htr hd
    generalize ha : s.pastResetSignal.accept rest = a
    have he' : exec i a = .next (t.withInputs s.delayIn s.resetIn.tail) := by
      have h := exec_withInputs s.delayIn s.resetIn.tail i { s with cmdIn := rest, busy := true }
      rw [he] at h
      exact ha ▸ h
    have hra : a.noReset := by subst ha; exact fun b hb => hr b (List.mem_of_mem_tail hb)
    have hfollow := follow_eq (s := a) (evs := before ++ .wait n :: after) he' (by subst ha; exact htr)
    rw [drive_waits hra (by subst ha; exact hd), conclude, begun_frame] at hfollow
    subst ha
    exact ⟨_, BitVec.ofNat 32 n, (step_of_command (hr.headD_drop 0) hb hf hc hw).trans hfollow, rfl, rfl,
      toNat_delay he htr, Bus.play_trace .., rfl, hf, rfl, rfl, rfl⟩
  · intro s ds hb hf hi hr hd
    obtain ⟨c, hc⟩ := Option.isSome_iff_exists.1 hi
    have hlow : s.delayDone = false := by rw [State.delayDone, hd]; rfl
    rw [step_of_delayed hr hf hb hc hlow, hd]
    rfl

/-! ## A reset (R230) -/

theorem drive_of_resetAsserted (evs : List Event) {s : State} (h : s.resetIn.headD false = true) :
    drive evs s = .reset s.pastResetSignal := by
  cases evs <;> exact if_pos h

/-- A reset after some of its events abandons a command. -/
theorem follow_reset {i : Instr} {a s t : State} {before after : List Event} {rs : List Bool}
    (he : exec i a = .next t) (ht : t.bus.trace = s.bus.trace ++ (before ++ after))
    (hd : ∀ b ∈ s.delayIn.take (delaysOf before), b = true)
    (hr : s.resetIn = List.replicate before.length false ++ true :: rs) :
    ∃ u, follow i a s = .next u ∧ s.AbandonedAfter before u ∧ u.cmdIn = s.cmdIn ∧ u.resetIn = rs := by
  have hlow : ∀ b ∈ s.resetIn.take before.length, b = false := by
    rw [hr, List.take_left' (List.length_replicate ..)]
    exact fun b hb => List.eq_of_mem_replicate hb
  have hleft : s.resetIn.drop before.length = true :: rs := by
    rw [hr, List.drop_left' (List.length_replicate ..)]
  rw [follow_eq he ht, drive_through before after s hlow hd, hleft, drive_of_resetAsserted _ rfl]
  refine ⟨_, rfl, ?_, rfl, rfl⟩
  exact ⟨rfl, by simp [conclude], rfl, State.resetNow_hasResetValues _, rfl, rfl⟩

/-- Settles O58: the reset finds a command in progress at the sampling after some of its events, in the step in which it
begins or goes on; or the block at the start of a step. -/
theorem resetAbandonsTheCommandInProgress : Obligations.ResetAbandonsTheCommandInProgress := by
  refine ⟨?_, ?_, ?_⟩
  · intro s t w rest i before after rs hb hf hc hw he htr hd hr
    have hr0 : s.resetIn.headD false = false := by rw [hr]; rfl
    have he' : exec i (s.pastResetSignal.accept rest) = .next (t.withInputs s.delayIn s.resetIn.tail) := by
      have h := exec_withInputs s.delayIn s.resetIn.tail i { s with cmdIn := rest, busy := true }
      rwa [he] at h
    obtain ⟨u, hu, hab, hcmd, hrs⟩ :=
      follow_reset (s := s.pastResetSignal.accept rest) (rs := rs) he' htr hd
        (by rw [State.accept_resetIn, State.pastResetSignal_resetIn, hr]; rfl)
    exact ⟨u, (step_of_command hr0 hb hf hc hw).trans hu, { hab with }, hcmd, hrs⟩
  · intro s t c before after rs hb hf hi he htr hd hr
    have hr0 : s.resetIn.headD false = false := by rw [hr]; rfl
    have hdone : s.delayDone = true := headD_of_take (Nat.le_add_right 1 _) hd
    have he' : exec c.instr (s.resumed.withBus c.start) = .next (t.withInputs s.delayIn.tail s.resetIn.tail) := by
      have h := exec_withInputs s.delayIn.tail s.resetIn.tail c.instr s.boundary
      rw [he, State.boundary_some hi] at h
      exact h
    have hd' : ∀ b ∈ s.resumed.delayIn.take (delaysOf before), b = true := by
      have h := forall_take_drop hd
      rwa [List.drop_one] at h
    obtain ⟨u, hu, hab, hcmd, hrs⟩ :=
      follow_reset (s := s.resumed) (rs := rs) he' htr hd' (by rw [State.resumed]; simp [hr])
    exact ⟨u, (step_of_delayDone hr0 hf hb hi hdone).trans hu, { hab with }, hcmd, hrs⟩
  · intro s _ hr
    exact ⟨_, step_of_resetAsserted hr, ⟨rfl, by simp, rfl, State.resetNow_hasResetValues _, rfl, rfl⟩, rfl, rfl⟩

/-! ## Every delay waited for (R14, R47) -/

theorem stepTimes_succ {s t : State} (h : step s = .next t) (n : Nat) : stepTimes (n + 1) s = stepTimes n t := by
  rw [stepTimes, h]

theorem State.noReset.drop {s t : State} (hr : s.noReset) (m : Nat) (ht : t.resetIn = s.resetIn.drop m) : t.noReset :=
  fun b hb => hr b (List.mem_of_mem_drop (ht ▸ hb))

/-- A command that waits for a delay in `v`, and whose meaning, from where it began, answers `t` with the inputs
left. -/
structure WaitsFor (i : Instr) (start : Bus) (t v : State) : Prop where
  wf : v.Wf
  noReset : v.noReset
  inFlight : v.inFlight = some { instr := i, start := start }
  exec : exec i v.boundary = .next (t.withInputs v.delayIn v.resetIn)

/-- What a command in progress in `s` has come to in `u`: it has ended as its meaning says, or waits for a delay, with
fewer looks at `delay_done` left to take. -/
def EndsOrWaits (i : Instr) (start : Bus) (t s u : State) : Prop :=
  ∃ m k, u = t.withInputs (s.delayIn.drop k) (s.resetIn.drop m) ∨
    (WaitsFor i start t u ∧ u.delayIn = s.delayIn.drop k ∧ u.resetIn = s.resetIn.drop m ∧
      u.delayIn.length < s.delayIn.length)

theorem Running.ends_or_waits {i : Instr} {start : Bus} {s t : State} {done evs : List Event} {d : Drive}
    (hrun : Running i start s t done evs) (hdr : DriveCase evs s d) (hr : s.noReset) (hw : (conclude i start t d).Wf) :
    EndsOrWaits i start t s (conclude i start t d) := by
  cases hdr with
  | reset before after hev _ _ ha => exact absurd ha (by rw [hr.headD_drop]; decide)
  | ended => exact ⟨_, _, .inl rfl⟩
  | waiting before n after hev _ _ hlow =>
    have hdelays (u : State) : (conclude i start t (.waiting u)).delayIn = u.delayIn := by rw [conclude, begun_frame]
    have hresets (u : State) : (conclude i start t (.waiting u)).resetIn = u.resetIn := by rw [conclude, begun_frame]
    have hmore : delaysOf before < s.delayIn.length := by
      by_contra hle
      rw [List.drop_eq_nil_of_le (Nat.not_lt.1 hle)] at hlow
      cases hlow
    refine ⟨before.length + 1, delaysOf before + 1, .inr ⟨⟨hw, hr.drop _ (hresets _), rfl, ?_⟩,
      hdelays _, hresets _, ?_⟩⟩
    · rw [hrun.exec_boundary (by simp [hev]) _ _ _ _ rfl, hdelays, hresets]
    · rw [hdelays, List.length_drop]
      omega

/-- A step of a waiting command looks at `delay_done`, and goes on with the command if it is raised. -/
theorem WaitsFor.step {i : Instr} {start : Bus} {t v : State} (h : WaitsFor i start t v) :
    ∃ u, step v = .next u ∧ EndsOrWaits i start t v u := by
  obtain ⟨u, hu⟩ := wellFormedStateAlwaysSteps v h.wf
  refine ⟨u, hu, ?_⟩
  have hwf := stepKeepsTheStateWellFormed v u h.wf hu
  have hbusy : v.busy = true := by simp [h.wf.busy_waiting, h.inFlight]
  cases h.wf.step_cases hu with
  | reset ha => exact absurd ((h.noReset.headD_drop 0).symm.trans ha) (by decide)
  | wait _ hw =>
    rcases hw with hf | ⟨-, hb, -⟩
    · exact absurd (h.wf.fault_idle hf) (by simp [hbusy])
    · exact absurd hb (by simp [hbusy])
  | resumeQueue q _ _ _ hi => exact absurd (hi.symm.trans h.inFlight) (by simp)
  | reject _ _ _ _ _ hb | run _ _ _ _ _ _ _ hb => exact absurd hb (by simp [hbusy])
  | delayed c _ _ _ _ hd hu' =>
    subst hu'
    refine ⟨1, 1, .inr ⟨⟨hwf, h.noReset.drop 1 List.drop_one.symm, h.inFlight, ?_⟩, List.drop_one.symm,
      List.drop_one.symm, ?_⟩⟩
    · rw [v.boundary_withInputs, exec_withInputs, h.exec]
      rfl
    · cases hin : v.delayIn with
      | nil => rw [State.delayDone, hin] at hd; cases hd
      | cons b rest => simp
  | resume c t₀ d done evs _ _ hi _ hrun hdr hu' =>
    obtain rfl := Option.some.inj (hi.symm.trans h.inFlight)
    have ht₀ : t₀ = t.withInputs v.delayIn.tail v.resetIn.tail := by
      have hexec := exec_withInputs v.delayIn.tail v.resetIn.tail i v.boundary
      rw [h.exec, State.boundary_some hi] at hexec
      exact Host.Outcome.next.inj (hrun.exec.symm.trans hexec)
    have hdrop (l : List Bool) (j : Nat) : l.tail.drop j = l.drop (1 + j) := by rw [← List.drop_drop, List.drop_one]
    obtain ⟨m, k, hend | ⟨hwaits, hd, hr, hlt⟩⟩ :=
      hrun.ends_or_waits hdr (h.noReset.drop 1 List.drop_one.symm) (hu' ▸ hwf)
    · refine ⟨1 + m, 1 + k, .inl ?_⟩
      rw [hu', hend, ht₀, ← hdrop, ← hdrop]
      rfl
    · have hle : v.delayIn.tail.length ≤ v.delayIn.length := by simp
      rw [← hu'] at hwaits hd hr hlt
      refine ⟨1 + m, 1 + k, .inr ⟨{ hwaits with exec := ?_ },
        hd.trans (hdrop ..), hr.trans (hdrop ..), hlt.trans_le hle⟩⟩
      rw [hwaits.exec, ht₀]
      rfl

/-- However often its delays keep it waiting, a command ends as its meaning says: each step that leaves it waiting takes
a look at `delay_done`, which is raised once none is left. -/
theorem WaitsFor.ends {i : Instr} {start : Bus} {t v : State} (h : WaitsFor i start t v) :
    ∃ n m k, stepTimes n v = .next (t.withInputs (v.delayIn.drop k) (v.resetIn.drop m)) := by
  induction hlen : v.delayIn.length using Nat.strong_induction_on generalizing v with
  | _ len ih =>
    obtain ⟨u, hu, m, k, hend | ⟨hwaits, hd, hr, hlt⟩⟩ := h.step
    · exact ⟨1, m, k, by rw [stepTimes_succ hu, hend]; rfl⟩
    · obtain ⟨n, m', k', hn⟩ := ih _ (hlen ▸ hlt) hwaits rfl
      exact ⟨n + 1, m + m', k + k', by rw [stepTimes_succ hu, hn, hd, hr, List.drop_drop, List.drop_drop]⟩

/-- Settles O60: after the step that accepts its word, the command has ended or waits, and what waits ends at last. -/
theorem delayedCommandEndsAsIfNeverDelayed : Obligations.DelayedCommandEndsAsIfNeverDelayed := by
  intro s w rest i hwf hr hb hf hc hw
  obtain ⟨u, hu⟩ := wellFormedStateAlwaysSteps s hwf
  have hwfu := stepKeepsTheStateWellFormed s u hwf hu
  cases hwf.step_cases hu with
  | reset ha => exact absurd ((hr.headD_drop 0).symm.trans ha) (by decide)
  | wait _ hwait => simp [hf, hb, hc] at hwait
  | resumeQueue _ _ _ hb' | delayed _ _ _ hb' | resume _ _ _ _ _ _ hb' => exact absurd hb' (by simp [hb])
  | reject w' rest' r _ _ _ hc' hd =>
    obtain ⟨rfl, rfl⟩ := List.cons.inj (hc.symm.trans hc')
    exact absurd (hw.symm.trans hd) (by simp)
  | run w' rest' i' t d evs _ _ hc' hd hrun hdr hu' =>
    obtain ⟨rfl, rfl⟩ := List.cons.inj (hc.symm.trans hc')
    obtain rfl := Decoded.command.inj (hw.symm.trans hd)
    rw [hu'] at hwfu
    obtain ⟨m, k, hend | ⟨hwaits, hd', hr', -⟩⟩ := hrun.ends_or_waits hdr (hr.drop 1 List.drop_one.symm) hwfu
    · refine ⟨1, 1 + m, k, ?_⟩
      rw [stepTimes_succ hu, hu', hend, exec_accept hrun.exec]
      rfl
    · obtain ⟨n, m', k', hn⟩ := hwaits.ends
      refine ⟨n + 1, 1 + (m + m'), k + k', ?_⟩
      rw [stepTimes_succ hu, hu', hn, hd', hr', List.drop_drop, List.drop_drop, exec_accept hrun.exec]
      rfl

end Sys2Proof.Machine
end
